-- ==== Sys2Proof/Word.lean ====
section
/-! DEFINITION. The machine's words: the 64-bit data word (R14, R130), the 32-bit control register (R28),
the 4-bit buffer number of a command field (R81). -/

namespace Sys2Proof

/-- A data word: one 64-bit cell holding a binary64 pattern (R14). -/
abbrev Word := BitVec 64

/-- A control register of the `CSR` space (R28). -/
abbrev Reg := BitVec 32

/-- A buffer number as a command carries it, used unsigned (R82). -/
abbrev BufNo := BitVec 4

end Sys2Proof
end

