-- ==== Sys2Proof/Syntax.lean ====
section
/-! DEFINITION. The command set `FFTCMD` version 1 (R2, R85): one constructor per row of the opcode table. -/

namespace Sys2Proof

/-- A command. `dst` and `src` are the buffer-number fields `DST` and `SRC` as they stand in the word (R81, R82). -/
inductive Instr where
  /-- `NOP` (R230). -/
  | nop
  /-- `FFT DST, SRC` (R170). -/
  | fft (dst src : BufNo)
  /-- `IFFT DST, SRC` (R171). -/
  | ifft (dst src : BufNo)
  /-- `RFFT DST, SRC` (R201). -/
  | rfft (dst src : BufNo)
  /-- `CSPEC DST` (R210). -/
  | cspec (dst : BufNo)
  deriving DecidableEq, Repr

end Sys2Proof
end

