-- ==== Sys2Proof/WellFormed.lean ====
section
/-! DEFINITION. The operand checks of a decoded command that depend on the instance (R84 (3)), and the aliasing
test (R84 (4), R252), which is not part of well-formedness: an aliased command is a legal word that faults. -/

namespace Sys2Proof

/-- R82: a buffer number is legal when it is `< NBUF`. -/
def legalBuf (nbuf : Nat) (b : BufNo) : Bool := decide (b.toNat < nbuf)

/-- R84 (3): every buffer the command names exists in an instance of `nbuf` buffers. -/
def Instr.wf (nbuf : Nat) : Instr → Bool
  | .nop => true
  | .fft d s => legalBuf nbuf d && legalBuf nbuf s
  | .ifft d s => legalBuf nbuf d && legalBuf nbuf s
  | .rfft d s => legalBuf nbuf d && legalBuf nbuf s
  | .cspec d => legalBuf nbuf d

/-- R84 (4), R24: source and destination are the same storage exactly when the numbers are equal. -/
def Instr.aliased : Instr → Bool
  | .nop => false
  | .fft d s => decide (d = s)
  | .ifft d s => decide (d = s)
  | .rfft d s => decide (d = s)
  | .cspec _ => false

end Sys2Proof
end

