-- ==== Sys2Proof/Decode.lean ====
section
/-! DEFINITION. Decoding a command word (R80 to R86), total on every 32-bit value and refusing by name; after it
the encoder (R81, R85) and the textual form (R87). -/

namespace Sys2Proof

/-- Why a word is no command, in the order in which R84 checks. Each is the fault IllegalCommand (R253). -/
inductive DecodeError where
  /-- R84 (1): `w[31:12] != 0`. -/
  | reservedBits
  /-- R84 (2): `w[3:0] > 4`. -/
  | opcode
  /-- R84 (3): a nonzero operand field where the command has no such operand. -/
  | operandField
  deriving DecidableEq, Repr

/-- Field `OPC` (R81). -/
def opcField (w : Reg) : BitVec 4 := w.extractLsb' 0 4

/-- Field `DST` (R81). -/
def dstField (w : Reg) : BufNo := w.extractLsb' 4 4

/-- Field `SRC` (R81). -/
def srcField (w : Reg) : BufNo := w.extractLsb' 8 4

/-- Field `RSV` (R81). -/
def rsvField (w : Reg) : BitVec 20 := w.extractLsb' 12 20

/-- The decoder (R84, R85, R86), less the range check `< NBUF` and the aliasing check, which the
commands' meanings make. -/
def decode (w : Reg) : Except DecodeError Instr :=
  if rsvField w ≠ 0 then .error .reservedBits
  else if opcField w = 0 then
    if dstField w = 0 ∧ srcField w = 0 then .ok .nop else .error .operandField
  else if opcField w = 1 then .ok (.fft (dstField w) (srcField w))
  else if opcField w = 2 then .ok (.ifft (dstField w) (srcField w))
  else if opcField w = 3 then .ok (.rfft (dstField w) (srcField w))
  else if opcField w = 4 then
    if srcField w = 0 then .ok (.cspec (dstField w)) else .error .operandField
  else .error .opcode

/-- R81: `word = OPC | (DST << 4) | (SRC << 8)`. -/
def encodeFields (opc : Nat) (dst src : BufNo) : Reg :=
  BitVec.ofNat 32 opc ||| (dst.zeroExtend 32 <<< 4) ||| (src.zeroExtend 32 <<< 8)

/-- The opcode number of a command (R85). -/
def Instr.opc : Instr → Nat
  | .nop => 0
  | .fft _ _ => 1
  | .ifft _ _ => 2
  | .rfft _ _ => 3
  | .cspec _ => 4

/-- The encoder (R81, R85). -/
def encode (i : Instr) : Reg :=
  match i with
  | .nop => encodeFields 0 0 0
  | .fft d s => encodeFields 1 d s
  | .ifft d s => encodeFields 2 d s
  | .rfft d s => encodeFields 3 d s
  | .cspec d => encodeFields 4 d 0

/-- The command the decoder reads from a table row's word: bit 0 of `w` is bit 0 of the command word and
every bit at `nbits` or above is zero. -/
def decodeTableWord (nbits w : Nat) : Option Instr :=
  match decode (BitVec.ofNat 32 (w % 2 ^ nbits)) with
  | .ok i => some i
  | .error _ => none

/-- The textual form of an operand, `b<k>` (R87). -/
def bufText (b : BufNo) : String := "b" ++ toString b.toNat

/-- The textual form of a command (R87): mnemonic, then operands, destination first. -/
def Instr.text : Instr → String
  | .nop => "NOP"
  | .fft d s => "FFT " ++ bufText d ++ ", " ++ bufText s
  | .ifft d s => "IFFT " ++ bufText d ++ ", " ++ bufText s
  | .rfft d s => "RFFT " ++ bufText d ++ ", " ++ bufText s
  | .cspec d => "CSPEC " ++ bufText d

end Sys2Proof
end

