-- ==== Sys2Proof/Config.lean ====
section
/-! DEFINITION. What an implementation fixes (R7, R9, R10, R11) and the values the spec leaves free. The free
values are constants without a body: nothing can be proved about which value they take. -/

namespace Sys2Proof

/-- The floating-point rounding mode `RM` (R10). The spec requires roundTiesToEven and leaves the mode a
parameter; these are the five IEEE 754 binary rounding modes. PRESUMED, log entry 4. -/
inductive RoundingMode where
  /-- roundTiesToEven, the default and only required mode. -/
  | rne
  /-- roundTiesToAway. -/
  | rna
  /-- roundTowardPositive. -/
  | rtp
  /-- roundTowardNegative. -/
  | rtn
  /-- roundTowardZero. -/
  | rtz
  deriving DecidableEq, Repr

/-- The direction `inv` of a transform (R142): `+1` forward, `-1` inverse. -/
inductive Direction where
  | forward
  | inverse
  deriving DecidableEq, Repr

/-- FREE VALUE (R135, U6): sign bit and payload of the quiet NaN stored by the draw of that number. -/
opaque Config.nanDraw : Nat → BitVec 52

/-- FREE VALUE (R137, U7): the cosine routine of the ROM builder away from `+0.0`. -/
opaque Config.cosFree : Word → Word

/-- FREE VALUE (R137, U7): the sine routine of the ROM builder away from `+0.0`. -/
opaque Config.sinFree : Word → Word

/-- FREE VALUE (R55 gives no value here): what `BRROM` reads for an entry that does not fit 64 bits,
which happens only for `n >= 67`. Log entry 9. -/
opaque Config.wideEntry : Nat → Word

/-- `n` of the instance that `State.reset` describes. DESIGN CHOICE, log entry 1: the spec leaves `n` open. -/
def Config.defaultLogN : Nat := 2

/-- `NBUF` of the instance that `State.reset` describes: the spec's default (R9). -/
def Config.defaultNbuf : Nat := 4

/-- `RM` of the instance that `State.reset` describes: the spec's default (R10). -/
def Config.defaultRm : RoundingMode := .rne

end Sys2Proof
end

