-- ==== Sys2Proof/Machine/Float.lean ====
section
/-! DEFINITION. Binary64 arithmetic (R130 to R136, R144): a datum is held exactly, each operation computes the
exact result on integers and rounds it once. -/

namespace Sys2Proof

/-- A binary64 datum (R130, R131). `fin neg mag` is the finite value `mag * 2^-1074` with its sign bit, so zeros of
both signs and subnormals are ordinary members. `nan` is a NaN whose pattern is not fixed: the pattern is drawn
when the datum is stored (R135; log entry 5). -/
inductive F64 where
  | nan
  | inf (neg : Bool)
  | fin (neg : Bool) (mag : Nat)
  deriving DecidableEq, Repr

namespace F64

/-- The number of units `2^-1074` in `1`. -/
def one : Nat := 2 ^ 1074

/-- Units at and above which a rounded magnitude is no finite binary64: `2^1024` in units of `2^-1074`. -/
def overflow : Nat := 2 ^ 2098

/-- The largest finite magnitude in units. -/
def maxMag : Nat := (2 ^ 53 - 1) * 2 ^ 2045

/-- R130: sign bit 63, biased exponent `[62:52]`, fraction `[51:0]`. -/
def ofWord (w : Word) : F64 :=
  let sign := w.msb
  let e := (w.extractLsb' 52 11).toNat
  let f := (w.extractLsb' 0 52).toNat
  if e = 2047 then
    if f = 0 then .inf sign else .nan
  else if e = 0 then .fin sign f
  else .fin sign ((2 ^ 52 + f) * 2 ^ (e - 1))

/-- Exponent and fraction fields of a representable magnitude, as one number. -/
def packMag (mag : Nat) : Nat :=
  let t := mag.log2 - 52
  t * 2 ^ 52 + mag / 2 ^ t

/-- The 64-bit pattern of a sign and a 63-bit magnitude part. -/
def withSign (neg : Bool) (v : BitVec 63) : Word := BitVec.ofBool neg ++ v

/-- R135: a quiet NaN, whose sign bit and 51 payload bits are the draw's. -/
def quietNan (draw : BitVec 52) : Word :=
  draw.extractLsb' 51 1 ++ 0xFFF#12 ++ draw.extractLsb' 0 51

/-- The pattern stored for a datum. The draw is used for a NaN only. -/
def toWord (draw : BitVec 52) : F64 → Word
  | .nan => quietNan draw
  | .inf s => withSign s 0x7FF0000000000000#63
  | .fin s m => withSign s (BitVec.ofNat 63 (packMag m))

/-- Whether the truncated significand `q`, with remainder `r` of a unit `u`, is rounded up (R10, R132). -/
def roundsUp (rm : RoundingMode) (neg : Bool) (q r u : Nat) : Bool :=
  match rm with
  | .rne => decide (u < 2 * r) || (decide (2 * r = u) && decide (q % 2 = 1))
  | .rna => decide (u ≤ 2 * r)
  | .rtp => !neg && decide (r ≠ 0)
  | .rtn => neg && decide (r ≠ 0)
  | .rtz => false

/-- The magnitude `a / d` (in units of `2^-1074`) rounded to 53 significant bits, and to a whole unit below
that (gradual underflow, R131), with no upper bound. -/
def roundMag (rm : RoundingMode) (neg : Bool) (a d : Nat) : Nat :=
  let t := (a / d).log2 - 52
  let u := d * 2 ^ t
  let q := a / u
  (if roundsUp rm neg q (a % u) u then q + 1 else q) * 2 ^ t

/-- The datum of a rounded magnitude: an infinity of the right sign when it is too large (R134), or the largest
finite value in the modes that round toward zero there. -/
def finish (rm : RoundingMode) (neg : Bool) (mag : Nat) : F64 :=
  if mag < overflow then .fin neg mag
  else
    match rm with
    | .rne => .inf neg
    | .rna => .inf neg
    | .rtp => if neg then .fin neg maxMag else .inf neg
    | .rtn => if neg then .inf neg else .fin neg maxMag
    | .rtz => .fin neg maxMag

/-- The exact magnitude `a / d` units, rounded once (R132). -/
def round (rm : RoundingMode) (neg : Bool) (a d : Nat) : F64 := finish rm neg (roundMag rm neg a d)

/-- R133: inverts the sign bit. -/
def neg : F64 → F64
  | .nan => .nan
  | .inf s => .inf (!s)
  | .fin s m => .fin (!s) m

/-- A sign and a magnitude as an integer number of units. -/
def signed (neg : Bool) (mag : Nat) : Int := if neg then -(mag : Int) else mag

/-- The sign of an exact zero sum (R134): the common sign of two zeros of one sign; otherwise `+0.0`, or `-0.0`
under roundTowardNegative. -/
def zeroSumSign (rm : RoundingMode) (s1 : Bool) (m1 : Nat) (s2 : Bool) (m2 : Nat) : Bool :=
  if m1 = 0 ∧ m2 = 0 ∧ s1 = s2 then s1 else decide (rm = .rtn)

/-- `fadd` (R132, R134). -/
def add (rm : RoundingMode) : F64 → F64 → F64
  | .nan, _ => .nan
  | .inf _, .nan => .nan
  | .fin _ _, .nan => .nan
  | .inf s1, .inf s2 => if s1 = s2 then .inf s1 else .nan
  | .inf s1, .fin _ _ => .inf s1
  | .fin _ _, .inf s2 => .inf s2
  | .fin s1 m1, .fin s2 m2 =>
    let z := signed s1 m1 + signed s2 m2
    if z = 0 then .fin (zeroSumSign rm s1 m1 s2 m2) 0
    else round rm (decide (z < 0)) z.natAbs 1

/-- `fsub` (R132): the IEEE difference is the sum with the sign bit of the second operand inverted. -/
def sub (rm : RoundingMode) (x y : F64) : F64 := add rm x (neg y)

/-- `fmul` (R132, R134). -/
def mul (rm : RoundingMode) : F64 → F64 → F64
  | .nan, _ => .nan
  | .inf _, .nan => .nan
  | .fin _ _, .nan => .nan
  | .inf s1, .inf s2 => .inf (s1 != s2)
  | .inf s1, .fin s2 m2 => if m2 = 0 then .nan else .inf (s1 != s2)
  | .fin s1 m1, .inf s2 => if m1 = 0 then .nan else .inf (s1 != s2)
  | .fin s1 m1, .fin s2 m2 => round rm (s1 != s2) (m1 * m2) one

/-- `fdiv` (R132, R134). -/
def div (rm : RoundingMode) : F64 → F64 → F64
  | .nan, _ => .nan
  | .inf _, .nan => .nan
  | .fin _ _, .nan => .nan
  | .inf _, .inf _ => .nan
  | .inf s1, .fin s2 _ => .inf (s1 != s2)
  | .fin s1 _, .inf s2 => .fin (s1 != s2) 0
  | .fin s1 m1, .fin s2 m2 =>
    if m2 = 0 then
      if m1 = 0 then .nan else .inf (s1 != s2)
    else round rm (s1 != s2) (m1 * one) m2

/-- `+0.0` (R139). -/
def zero : F64 := .fin false 0

/-- `0.5` (R139). -/
def half : F64 := .fin false (2 ^ 1073)

/-- The natural number `k`, exactly. For the numbers the spec converts, `N = 2^n` and the word offsets `o` of the
twiddle generator, this is the operand of one exact product or quotient that is then rounded once (R137). -/
def ofNat (k : Nat) : F64 := .fin false (k * one)

/-- Whether a datum is a NaN. -/
def isNan : F64 → Bool
  | .nan => true
  | .inf _ => false
  | .fin _ _ => false

end F64

/-- R133 on a stored pattern: bit 63 inverted, nothing else, a NaN's payload kept. -/
def negWord (w : Word) : Word := w ^^^ 0x8000000000000000#64

end Sys2Proof
end

