-- ==== Sys2Proof/Machine/Complex.lean ====
section
/-! DEFINITION. Complex values and primitives (R140 to R143) over an arithmetic given as plain data, so that one text
of the network serves the hardware's binary64 datapath and the exact arithmetic of the laws R173 and R208. -/

namespace Sys2Proof

/-- The real operations and constants the commands use (R132, R133, R139). -/
structure Arith (α : Type) where
  add : α → α → α
  sub : α → α → α
  mul : α → α → α
  div : α → α → α
  neg : α → α
  /-- `+0.0`. -/
  zero : α
  /-- `0.5`. -/
  half : α
  /-- `2^n`. -/
  pow2 : Nat → α

/-- The hardware's arithmetic: binary64 under the instance's rounding mode (R132). -/
def f64Arith (rm : RoundingMode) : Arith F64 where
  add := F64.add rm
  sub := F64.sub rm
  mul := F64.mul rm
  div := F64.div rm
  neg := F64.neg
  zero := F64.zero
  half := F64.half
  pow2 := fun n => F64.ofNat (2 ^ n)

/-- Exact arithmetic in a field, for the exactness laws (R173, R208). No command uses it. -/
def exactArith (K : Type) [Field K] : Arith K where
  add := fun x y => x + y
  sub := fun x y => x - y
  mul := fun x y => x * y
  div := fun x y => x / y
  neg := fun x => -x
  zero := 0
  half := 1 / 2
  pow2 := fun n => 2 ^ n

/-- A complex value, a pair `(r, i)` (R140); a point of a buffer (R14). -/
structure Cplx (α : Type) where
  re : α
  im : α
  deriving DecidableEq, Repr

section
variable {α : Type}

/-- `cadd` (R140). -/
def cadd (A : Arith α) (x y : Cplx α) : Cplx α := ⟨A.add x.re y.re, A.add x.im y.im⟩

/-- `csub` (R140). -/
def csub (A : Arith α) (x y : Cplx α) : Cplx α := ⟨A.sub x.re y.re, A.sub x.im y.im⟩

/-- `conj` (R140). -/
def cconj (A : Arith α) (x : Cplx α) : Cplx α := ⟨x.re, A.neg x.im⟩

/-- `cmul` (R141): four products, one difference, one sum, in this order, data first and twiddle second. -/
def cmul (A : Arith α) (x w : Cplx α) : Cplx α :=
  ⟨A.sub (A.mul x.re w.re) (A.mul x.im w.im), A.add (A.mul x.re w.im) (A.mul x.im w.re)⟩

/-- `sgn(inv, x)` (R142). -/
def sgn (A : Arith α) (dir : Direction) (x : α) : α :=
  match dir with
  | .forward => x
  | .inverse => A.neg x

/-- The twiddle used in a direction: the ROM pair with `sgn(inv, ·)` on its imaginary part (R142). -/
def twiddle (A : Arith α) (dir : Direction) (w : Cplx α) : Cplx α := ⟨w.re, sgn A dir w.im⟩

/-- The `i`-th word of an interleaved complex array, real part first (R14). -/
def wordOf (x : Nat → Cplx α) (i : Nat) : α := if i % 2 = 0 then (x (i / 2)).re else (x (i / 2)).im

/-- An array of words read as points (R14). -/
def pointOf (a : Nat → α) (k : Nat) : Cplx α := ⟨a (2 * k), a (2 * k + 1)⟩

end

end Sys2Proof
end

