-- ==== Sys2Proof/Machine/Tables.lean ====
section
/-! DEFINITION. Construction (R100 to R112): validating the size, the shape numbers, the twiddle ROM, the
digit-reversal ROM. Construction is not a step of the machine; it yields the constants a state is built from. -/

namespace Sys2Proof

/-- `b` of R107: bits of a point index consumed by the base pass. -/
def baseBits (ne : Nat) : Nat := if ne % 2 = 0 then 2 else 1

/-- `B` of R107: points per base block. -/
def basePoints (ne : Nat) : Nat := 2 ^ baseBits ne

/-- `p` of R107: number of radix-4 combine passes. -/
def passes (ne : Nat) : Nat := (ne - baseBits ne) / 2

/-- `G` of R107: number of base blocks. -/
def groups (ne : Nat) : Nat := 4 ^ passes ne

/-- The loop of `rev4` (R109) over the group positions below `d`. -/
def rev4Loop (p t : Nat) : Nat → Nat
  | 0 => 0
  | d + 1 => rev4Loop p t d ||| (((t >>> (2 * d)) &&& 3) <<< (2 * (p - 1 - d)))

/-- `rev4(p, t)` (R109): the order of the `p` two-bit groups of `t` reversed. -/
def rev4 (p t : Nat) : Nat := rev4Loop p t p

/-- `ReversalTable(n)` (R108). -/
def reversalTable (n : Nat) : List Nat := (List.range (groups n)).map (rev4 (passes n))

/-- `cos64` (R137): `cos64(+0.0) = 1.0`, otherwise the free routine. -/
def cos64 (x : Word) : Word := if x = 0#64 then 0x3FF0000000000000#64 else Config.cosFree x

/-- `sin64` (R137): `sin64(+0.0) = +0.0`, otherwise the free routine. -/
def sin64 (x : Word) : Word := if x = 0#64 then 0#64 else Config.sinFree x

/-- `PI64` (R137). -/
def pi64 : F64 := F64.ofWord 0x400921FB54442D18#64

/-- The angle of entry pair `k` (R105, R137): `theta = fdiv(fmul(PI64, o), N)` with `o = 2k`. Both operations round to nearest
even whatever the instance's `RM`: D17 writes `RN(RN(PI64*o)/N)`, and R105, R66 and R137 make the ROM a function of `n`
(DEDUCED, log entry 17). -/
def twiddleAngle (n k : Nat) : F64 :=
  F64.div .rne (F64.mul .rne pi64 (F64.ofNat (2 * k))) (F64.ofNat (2 ^ n))

/-- The pattern of the angle. The angle is a finite number, so no NaN is drawn. -/
def twiddleAngleWord (n k : Nat) : Word := (twiddleAngle n k).toWord 0#52

/-- `TwiddleTable(n)` (R105): words `2k` and `2k + 1` are `cos64(theta)` and `neg(sin64(theta))`. -/
def twiddleTable (n : Nat) : List Word :=
  (List.range (2 ^ n)).flatMap fun k =>
    [cos64 (twiddleAngleWord n k), negWord (sin64 (twiddleAngleWord n k))]

/-- The context a construction yields (R103): `n`, `TW`, `BR`; `N` is `2^n`. -/
structure Context where
  logN : Nat
  tw : List Word
  br : List Nat
  deriving DecidableEq, Repr

/-- Why a construction yields no context. -/
inductive ConstructError where
  /-- InvalidSize (R104, R251). -/
  | invalidSize
  /-- A power of two above `2^255`: outside the spec, not InvalidSize (R7, U12). Safe: no context is made up. -/
  | outsideSpec
  deriving DecidableEq, Repr

/-- `Valid(size)` (R104): greater than 1 and a power of two. -/
def validSize (size : Int) : Bool := decide (1 < size) && decide (2 ^ size.toNat.log2 = size.toNat)

/-- The context of the valid size `2^n`. -/
def contextOf (n : Nat) : Context :=
  { logN := n, tw := twiddleTable n, br := reversalTable n }

/-- `CONSTRUCT(size)` (R103). -/
def construct (size : Int) : Except ConstructError Context :=
  if !validSize size then .error .invalidSize
  else if 255 < size.toNat.log2 then .error .outsideSpec
  else .ok (contextOf size.toNat.log2)

end Sys2Proof
end

