-- ==== Sys2Proof/Machine/State.lean ====
section
/-! DEFINITION. The state of the block (R21), the host's pending turns (R20, R231), the ways a step can stop, and the
state after reset (R38, R280). -/

namespace Sys2Proof.Machine

/-- The `DATA` space (R50): bytes at their `DATA` byte addresses, addresses strictly rising, an absent address
being a byte that nothing has written since reset (R39). -/
abbrev Memory := List Host.Cell

/-- The address spaces reached by `MemRead` and `MemWrite` (R50, R52). -/
inductive Space where
  | data
  | twrom
  | brrom
  deriving DecidableEq, Repr

/-- One thing the host does to the block (R231). Widths are arguments so that the accesses that are not admitted
(R56) can be expressed. -/
inductive HostAction where
  /-- `RegRead(off)` of `bytes` bytes (R51). -/
  | regRead (off bytes : Nat)
  /-- `RegWrite(off, v)` of `bytes` bytes (R51). -/
  | regWrite (off bytes : Nat) (v : Reg)
  /-- `MemRead(space, addr, size)` (R52). -/
  | memRead (space : Space) (addr size : Nat)
  /-- `MemWrite(space, addr, size, v)` (R52). -/
  | memWrite (space : Space) (addr size : Nat) (v : Word)
  /-- Reset (R280). -/
  | reset
  deriving DecidableEq, Repr

/-- Whose turn it is. Every interleaving of host and engine (R61, U15) is a list of turns. -/
inductive Turn where
  /-- The host performs one action. -/
  | host (a : HostAction)
  /-- The engine may take its step now (nothing happens when it is not enabled). -/
  | engine
  /-- The host reads `STATUS` until `BUSY = 0` (R87), which after a `CMD` write is until `DONE = 1` (R232 (4), R32): the
  engine takes the step it owes, then the host has its answer. -/
  | await
  /-- The host stops its sequence if the last command faulted (R88); the sequence is taken to be all that follows (DESIGN CHOICE, log
  entry 18). -/
  | stopOnFault
  deriving DecidableEq, Repr

/-- What a host read returned. -/
inductive Reply where
  /-- The value of a control register. -/
  | reg (v : Reg)
  /-- A word of `DATA`, `TWROM` or `BRROM`. -/
  | word (v : Word)
  deriving DecidableEq, Repr

/-- The state of one constructed instance. -/
structure State where
  /-- `CSR.ID` (R29), constant. -/
  id : Reg
  /-- `CSR.CFG` (R30), constant: `LOGN` in `[7:0]`, `NBUFM1` in `[11:8]`. -/
  cfg : Reg
  /-- `CSR.CMD` (R31). -/
  cmd : Reg
  /-- `CSR.STATUS` (R32). -/
  status : Reg
  /-- The twiddle ROM `TW` (R34), `2N` words. -/
  tw : List Word
  /-- The digit-reversal ROM `BR` (R35), `G` numbers. -/
  br : List Nat
  /-- The data buffer file `BUF` (R22) as the bytes of the `DATA` space (R53). -/
  mem : Memory
  /-- `RM` (R10), a construction constant of the instance. -/
  rm : RoundingMode
  /-- The model's own: how many NaN draws have been made (R135). Log entry 5. -/
  draws : Nat
  /-- The model's own: the turns still to come. Log entry 6. -/
  turns : List Turn
  /-- The model's own: what the host's reads returned, newest first. Log entry 6. -/
  replies : List Reply
  deriving DecidableEq, Repr

/-- The faults of the model: the machine stops. The architectural faults AliasedBuffers and IllegalCommand are
no members: they end a command in a next state (R254). -/
inductive Fault where
  /-- Raised by a command or a host read that reads a `DATA` word not written since reset (R39, R289, U1).
  Safe: nothing is claimed of a run that reads an unspecified value. -/
  | unwrittenWord
  deriving DecidableEq, Repr

/-- What the model gives no step. -/
inductive Refusal where
  /-- Raised by an arm of `exec` that has no meaning. Safe. -/
  | notModelled (mnemonic : String)
  /-- R56 (a): a `CSR` access at an offset outside `0x00`, `0x04`, `0x08`, `0x0C`. Safe. -/
  | csrOffset
  /-- R56 (a), (b): a width other than 4 bytes in `CSR` or 8 bytes elsewhere. Safe. -/
  | accessWidth
  /-- R56 (a): a write to `ID`, `CFG` or `STATUS`. Safe. -/
  | readOnlyRegister
  /-- R56 (b): an address that is no multiple of 8. Safe. -/
  | misaligned
  /-- R56 (b): an address at or beyond the end of its space. Safe. -/
  | outsideSpace
  /-- R56 (c): a write to `TWROM` or `BRROM`. Safe. -/
  | readOnlySpace
  /-- R56 (d): a `DATA` access or a `CMD` write while `BUSY = 1`. Safe. -/
  | busy
  deriving DecidableEq, Repr

/-- The outcome of one step of this machine. -/
abbrev Result := Host.Outcome State Fault Refusal

/-- `n` as `CFG.LOGN` reports it (R30); `n <= 255` by the width of the field (R7). -/
def State.logN (s : State) : Nat := (s.cfg.extractLsb' 0 8).toNat

/-- `N = 2^n` (R8, R30). -/
def State.size (s : State) : Nat := 2 ^ s.logN

/-- `NBUF` as `CFG.NBUFM1` reports it (R30). -/
def State.nbuf (s : State) : Nat := (s.cfg.extractLsb' 8 4).toNat + 1

/-- The value of `CFG` for `n` and `NBUF` (R30). -/
def cfgValue (n nbuf : Nat) : Reg := BitVec.ofNat 32 (n ||| ((nbuf - 1) <<< 8))

/-- The block right after construction and reset (R38, R280), for a context (R103), `NBUF` (R9) and `RM` (R10). -/
def State.ofContext (c : Context) (nbuf : Nat) (rm : RoundingMode) : State :=
  { id := 0x46465401#32
    cfg := cfgValue c.logN nbuf
    cmd := 0#32
    status := 0#32
    tw := c.tw
    br := c.br
    mem := []
    rm := rm
    draws := 0
    turns := []
    replies := [] }

/-- The machine right after reset: the instance of log entry 1. -/
def State.reset : State :=
  State.ofContext (contextOf Config.defaultLogN) Config.defaultNbuf Config.defaultRm

end Sys2Proof.Machine
end

