-- ==== Sys2Proof/Machine/Flags.lean ====
section
/-! DEFINITION. The status bits. The block has no condition codes and no floating-point flags (R27, R136); the only
status is `CSR.STATUS` (R32): `BUSY`, `DONE`, `ERRCODE`. -/

namespace Sys2Proof.Machine

/-- `STATUS.BUSY`, bit 0 (R32). -/
def busyBit (st : Reg) : Bool := st.getLsbD 0

/-- `STATUS.DONE`, bit 1 (R32). -/
def doneBit (st : Reg) : Bool := st.getLsbD 1

/-- `STATUS.ERRCODE`, bits `[7:4]` (R32). -/
def errField (st : Reg) : BitVec 4 := st.extractLsb' 4 4

/-- `STATUS` with its three fields replaced and its other bits kept. -/
def putStatus (st : Reg) (busy done : Bool) (err : BitVec 4) : Reg :=
  st.extractLsb' 8 24 ++ err ++ st.extractLsb' 2 2 ++ BitVec.ofBool done ++ BitVec.ofBool busy

/-- Whether a command is in flight: the engine's step is enabled exactly then (R20, R36). -/
def State.busy (s : State) : Bool := busyBit s.status

/-- `STATUS.DONE` of a state. -/
def State.done (s : State) : Bool := doneBit s.status

/-- `STATUS.ERRCODE` of a state. -/
def State.errCode (s : State) : BitVec 4 := errField s.status

/-- The architectural faults of a command (R250). -/
inductive CommandFault where
  /-- AliasedBuffers (R252). -/
  | aliasedBuffers
  /-- IllegalCommand (R253). -/
  | illegalCommand
  deriving DecidableEq, Repr

/-- The fault codes (R250). -/
def faultCode : CommandFault → BitVec 4
  | .aliasedBuffers => 1
  | .illegalCommand => 2

end Sys2Proof.Machine
end

