-- ==== Sys2Proof/Machine/Ops.lean ====
section
/-! DEFINITION. The named operations over memory and registers: bytes and words of the `DATA` space, ending a
command, raising a command fault, issuing a command, reset. -/

namespace Sys2Proof.Machine

/-- The byte at a `DATA` address; none when nothing has written it since reset (R39). -/
def readByte : Memory → Nat → Option (BitVec 8)
  | [], _ => none
  | (k, v) :: m, a => if a = k then some v else readByte m a

/-- Memory with one byte written, addresses kept strictly rising. -/
def writeByte (a : Nat) (v : BitVec 8) : Memory → Memory
  | [] => [(a, v)]
  | (k, w) :: m =>
    if a < k then (a, v) :: (k, w) :: m
    else if a = k then (a, v) :: m
    else (k, w) :: writeByte a v m

/-- The canonical form of memory: addresses strictly rising. Every listed byte differs from what an unlisted
address reads as, which is no value. -/
abbrev Memory.wf (m : Memory) : Prop := m.Pairwise (fun x y => x.1 < y.1)

/-- Byte `j` of a word: bits `[8j+7 : 8j]` (R59). -/
def byteOf (v : Word) (j : Nat) : BitVec 8 := v.extractLsb' (8 * j) 8

/-- The word at a `DATA` byte address, little-endian (R52, R59); none unless all of it has been written. -/
def readWord (m : Memory) (a : Nat) : Option Word :=
  match readByte m a, readByte m (a + 1), readByte m (a + 2), readByte m (a + 3),
    readByte m (a + 4), readByte m (a + 5), readByte m (a + 6), readByte m (a + 7) with
  | some b0, some b1, some b2, some b3, some b4, some b5, some b6, some b7 =>
    some (b7 ++ b6 ++ b5 ++ b4 ++ b3 ++ b2 ++ b1 ++ b0)
  | _, _, _, _, _, _, _, _ => none

/-- The bytes `j - 1, …, 0` of a word written from address `a` on. -/
def writeBytes (a : Nat) (v : Word) : Nat → Memory → Memory
  | 0, m => m
  | j + 1, m => writeBytes a v j (writeByte (a + j) (byteOf v j) m)

/-- Memory with a word written at a `DATA` byte address, little-endian (R52, R59). -/
def writeWord (a : Nat) (v : Word) (m : Memory) : Memory := writeBytes a v 8 m

/-- `k` consecutive words; none if any of them has not been written (R39, R289). -/
def readWords (m : Memory) (a : Nat) : Nat → Option (List Word)
  | 0 => some []
  | k + 1 =>
    match readWord m a, readWords m (a + 8) k with
    | some w, some ws => some (w :: ws)
    | _, _ => none

/-- Consecutive words written from a `DATA` byte address on. -/
def writeWords (a : Nat) : List Word → Memory → Memory
  | [], m => m
  | w :: ws, m => writeWords (a + 8) ws (writeWord a w m)

/-- The end of the engine's step (R83): `BUSY <- 0`, `DONE <- 1`, `ERRCODE <- code`, and nothing else. -/
def endCommand (code : BitVec 4) (s : State) : State :=
  { s with status := putStatus s.status false true code }

/-- A command that completes (R17, R32): error code 0. -/
def complete (s : State) : State := endCommand 0 s

/-- TAKING A FAULT (R254): nothing but `STATUS` changes; `CMD` keeps the faulting word; there is no vector, no
saved program counter and no mode. -/
def raise (f : CommandFault) (s : State) : State := endCommand (faultCode f) s

/-- A command issued (R31): the word stored, `BUSY <- 1`, `DONE <- 0`, `ERRCODE <- 0`. This is also the whole
recovery from a fault (R258): the next issue clears its code. -/
def issue (w : Reg) (s : State) : State :=
  { s with cmd := w, status := putStatus s.status true false 0 }

/-- Reset (R280, R281): `CMD` and `STATUS` zero, every buffer word unspecified, the constants of the instance
unchanged, a command in flight abandoned. -/
def blockReset (s : State) : State := { s with cmd := 0#32, status := 0#32, mem := [] }

/-- What a host read returns, recorded for the host. -/
def addReply (r : Reply) (s : State) : State := { s with replies := r :: s.replies }

end Sys2Proof.Machine
end

