-- ==== Sys2Proof/Machine/Operands.lean ====
section
/-! DEFINITION. Operands: buffers by number (R22 to R25, R53), the operand checks of R84 (3) and (4), the words a command
reads and the words it stores, the engine's view of the ROMs (R34, R35). -/

namespace Sys2Proof.Machine

/-- The `DATA` byte address of word `i` of buffer `b` (R53). -/
def wordAddr (s : State) (b i : Nat) : Nat := 8 * (b * (2 * s.size) + i)

/-- `BUF[b][i]` (R15); none when the word has not been written since reset (R39). -/
def bufWord (s : State) (b : BufNo) (i : Nat) : Option Word := readWord s.mem (wordAddr s b.toNat i)

/-- Words `i, …, i + k - 1` of buffer `b`, as a command reads them (R289). -/
def readBuf (s : State) (b : BufNo) (i k : Nat) : Option (List Word) :=
  readWords s.mem (wordAddr s b.toNat i) k

/-- Words written to buffer `b` from word `i` on. -/
def writeBuf (b : BufNo) (i : Nat) (ws : List Word) (s : State) : State :=
  { s with mem := writeWords (wordAddr s b.toNat i) ws s.mem }

/-- The patterns stored for results, draw number `k` upward: a NaN's pattern is free, one draw for each word (R135). -/
def patterns (k : Nat) : List F64 → List Word
  | [] => []
  | v :: vs => v.toWord (Config.nanDraw k) :: patterns (k + 1) vs

/-- Results of the datapath stored to buffer `b` from word 0 on. -/
def storeResults (b : BufNo) (vs : List F64) (s : State) : State :=
  { writeBuf b 0 (patterns s.draws vs) s with draws := s.draws + vs.length }

/-- Words as the points of the datapath (R14, R130). -/
def pointsOf (ws : List Word) : Nat → Cplx F64 := pointOf fun i => F64.ofWord (ws.getD i 0#64)

/-- The first `k` words of an array of points, interleaved (R14). -/
def wordsOf (x : Nat → Cplx F64) (k : Nat) : List F64 := (List.range k).map (wordOf x)

/-- Entry pair `k` of the twiddle ROM (R34): words `2k` and `2k + 1`. -/
def romPair (s : State) : Nat → Cplx F64 := pointsOf s.tw

/-- The permuter's index for group `t` of an engine of `2^ne` points (R162, R202 (b)): `BR[t]` when the engine has as
many passes as the ROM was built for, `BR[t] >> 2` when it has one fewer. -/
def permIndex (s : State) (ne t : Nat) : Nat :=
  s.br.getD t 0 >>> (2 * (passes s.logN - passes ne))

/-- R84 (3) and (4) for FFT, IFFT and RFFT: a buffer number `>= NBUF` is IllegalCommand, equal numbers are
AliasedBuffers, in this order (R256), both before the first buffer access (R255). -/
def withTwoBuffers (dst src : BufNo) (s : State) (run : State → Result) : Result :=
  if dst.toNat < s.nbuf ∧ src.toNat < s.nbuf then
    if dst = src then .next (raise .aliasedBuffers s) else run s
  else .next (raise .illegalCommand s)

/-- R84 (3) for CSPEC. -/
def withOneBuffer (dst : BufNo) (s : State) (run : State → Result) : Result :=
  if dst.toNat < s.nbuf then run s else .next (raise .illegalCommand s)

/-- An out-of-place command's datapath: read `k` words of the source from word 0 on, store the results to the
destination, complete. Reading a word that nothing has written stops the model (R39, R289). -/
def transform (dst src : BufNo) (k : Nat) (f : List Word → List F64) (s : State) : Result :=
  match readBuf s src 0 k with
  | none => .fault .unwrittenWord
  | some ws => .next (complete (storeResults dst (f ws) s))

end Sys2Proof.Machine
end

