-- ==== Sys2Proof/Machine/Nop.lean ====
section
/-! DEFINITION. The meaning of NOP (R230). -/

namespace Sys2Proof.Machine

/-- `NOP` (R230): no buffer is read or written; the command completes. -/
def execNop (s : State) : Result := .next (complete s)

end Sys2Proof.Machine
end

