-- ==== Sys2Proof/Machine/Butterfly.lean ====
section
/-! DEFINITION. The butterfly engine (R160 to R178) on points: `BASE2`, `BFLY4`, `BASE4`, the base pass, `R4BFLY`, the
combine passes, `Engine`, `SCALE`. An array is a function from point index to point; a pass is the function of the
array before it that its rule defines, since the butterflies of one pass touch disjoint points (R162, R166). The
pseudocode's own word-by-word loops stand in Machine/Sequencer.lean. -/

namespace Sys2Proof

section
variable {α : Type}

/-- `BASE2` (R163): the sum and the difference of the even and the odd point. -/
def base2 (A : Arith α) (e o : Cplx α) : Cplx α × Cplx α := (cadd A e o, csub A e o)

/-- The four outputs of a radix-4 butterfly. -/
structure Quad (α : Type) where
  a : Cplx α
  b : Cplx α
  c : Cplx α
  d : Cplx α
  deriving DecidableEq, Repr

/-- Output `r` of a radix-4 butterfly, bins 0 to 3 (R165). -/
def quadAt (q : Quad α) (r : Nat) : Cplx α :=
  if r = 0 then q.a else if r = 1 then q.b else if r = 2 then q.c else q.d

/-- `BFLY4` (R164). -/
def bfly4 (A : Arith α) (dir : Direction) (a b c d : Cplx α) : Quad α :=
  let t0 := cadd A a c
  let t1 := csub A a c
  let t2 := cadd A b d
  let t3 : Cplx α := ⟨sgn A dir (A.sub b.re d.re), sgn A dir (A.sub b.im d.im)⟩
  { a := cadd A t0 t2
    b := ⟨A.add t1.re t3.im, A.sub t1.im t3.re⟩
    c := csub A t0 t2
    d := ⟨A.sub t1.re t3.im, A.add t1.im t3.re⟩ }

/-- `BasePass` (R162): output point `t*B + r` is output `r` of the base butterfly on the input points
`perm(t) + m*G`, `m = 0 .. B-1`. -/
def basePass (A : Arith α) (perm : Nat → Nat) (ne : Nat) (dir : Direction) (x : Nat → Cplx α) :
    Nat → Cplx α := fun i =>
  let g := groups ne
  let f := perm (i / basePoints ne)
  let r := i % basePoints ne
  if baseBits ne = 1 then
    if r = 0 then (base2 A (x f) (x (f + g))).1 else (base2 A (x f) (x (f + g))).2
  else quadAt (bfly4 A dir (x f) (x (f + g)) (x (f + 2 * g)) (x (f + 3 * g))) r

/-- `R4BFLY` (R167) on the points it reads, with the ROM pairs of indices `k`, `2k`, `3k`. The products are formed
for every `k`, also `k = 0`. -/
def r4bfly (A : Arith α) (rom : Nat → Cplx α) (dir : Direction) (k : Nat) (a b c d : Cplx α) : Quad α :=
  bfly4 A dir a
    (cmul A b (twiddle A dir (rom k)))
    (cmul A c (twiddle A dir (rom (2 * k))))
    (cmul A d (twiddle A dir (rom (3 * k))))

/-- `L` of R166: points per block after combine pass `q`. -/
def blockPoints (ne q : Nat) : Nat := basePoints ne * 4 ^ q

/-- `CombinePass` (R166), pass `q`, with the ROM of size `2^n`: butterfly `j` of a block takes the points `j`,
`j + L/4`, `j + 2L/4`, `j + 3L/4` of the block and the ROM pair of index `j * N / L`. -/
def combinePass (A : Arith α) (rom : Nat → Cplx α) (n ne q : Nat) (dir : Direction) (x : Nat → Cplx α) :
    Nat → Cplx α := fun i =>
  let l := blockPoints ne q
  let qu := l / 4
  let j := i % qu
  let f := i / l * l + j
  quadAt (r4bfly A rom dir (j * (2 ^ n / l)) (x f) (x (f + qu)) (x (f + 2 * qu)) (x (f + 3 * qu)))
    (i % l / qu)

/-- Combine passes `1, …, q` in this order (R168). -/
def combinePasses (A : Arith α) (rom : Nat → Cplx α) (n ne : Nat) (dir : Direction) (x : Nat → Cplx α) :
    Nat → Nat → Cplx α
  | 0 => x
  | q + 1 => combinePass A rom n ne (q + 1) dir (combinePasses A rom n ne dir x q)

/-- `Engine` (R168, R169) of `2^ne` points with the ROMs of size `2^n`; the one-point engine copies its point. -/
def engine (A : Arith α) (perm : Nat → Nat) (rom : Nat → Cplx α) (n ne : Nat) (dir : Direction)
    (x : Nat → Cplx α) : Nat → Cplx α :=
  if ne = 0 then x
  else combinePasses A rom n ne dir (basePass A perm ne dir x) (passes ne)

/-- `SCALE` (R172): every word divided by `N` once. -/
def scale (A : Arith α) (n : Nat) (x : Nat → Cplx α) : Nat → Cplx α := fun k =>
  ⟨A.div (x k).re (A.pow2 n), A.div (x k).im (A.pow2 n)⟩

end

end Sys2Proof
end

