-- ==== Sys2Proof/Machine/Transform.lean ====
section
/-! DEFINITION. The meanings of FFT (R170) and IFFT (R171). -/

namespace Sys2Proof.Machine

/-- The instance's engine of `2^ne` points on binary64 data, with the instance's ROMs (R168, R202). -/
def runEngine (s : State) (ne : Nat) (dir : Direction) (x : Nat → Cplx F64) : Nat → Cplx F64 :=
  engine (f64Arith s.rm) (permIndex s ne) (romPair s) s.logN ne dir x

/-- The `2N` words FFT computes from the `2N` words of its source (R170). -/
def fftWords (s : State) (ws : List Word) : List F64 :=
  wordsOf (runEngine s s.logN .forward (pointsOf ws)) (2 * s.size)

/-- The `2N` words IFFT computes from the `2N` words of its source (R171): the inverse network, then `SCALE`. -/
def ifftWords (s : State) (ws : List Word) : List F64 :=
  wordsOf (scale (f64Arith s.rm) s.logN (runEngine s s.logN .inverse (pointsOf ws))) (2 * s.size)

/-- `FFT DST, SRC` (R170). -/
def execFft (dst src : BufNo) (s : State) : Result :=
  withTwoBuffers dst src s fun s => transform dst src (2 * s.size) (fftWords s) s

/-- `IFFT DST, SRC` (R171). -/
def execIfft (dst src : BufNo) (s : State) : Result :=
  withTwoBuffers dst src s fun s => transform dst src (2 * s.size) (ifftWords s) s

end Sys2Proof.Machine
end

