-- ==== Sys2Proof/Machine/Unpack.lean ====
section
/-! DEFINITION. The real path's unpacker (R203 to R207) and the mirror of CSPEC (R211), on points. -/

namespace Sys2Proof

section
variable {α : Type}

/-- `UNPK0` (R204): bins `0` and `M`. -/
def unpk0 (A : Arith α) (z : Cplx α) : Cplx α × Cplx α :=
  (⟨A.add z.re z.im, A.zero⟩, ⟨A.sub z.re z.im, A.zero⟩)

/-- `UNPKH` (R205): bin `M/2`. -/
def unpkh (A : Arith α) (z : Cplx α) : Cplx α := cconj A z

/-- `UNPKP` (R206): bins `k` and `M - k` from `Z[k] = (a, b)`, `Z[M-k] = (c, d)` and ROM pair `k`. -/
def unpkp (A : Arith α) (w zk zmk : Cplx α) : Cplx α × Cplx α :=
  let er := A.mul A.half (A.add zk.re zmk.re)
  let ei := A.mul A.half (A.sub zk.im zmk.im)
  let odd : Cplx α := ⟨A.mul A.half (A.add zk.im zmk.im), A.mul A.half (A.sub zmk.re zk.re)⟩
  let p := cmul A odd w
  (⟨A.add er p.re, A.add ei p.im⟩, ⟨A.sub er p.re, A.sub p.im ei⟩)

/-- `Unpack` (R203): the `M + 1` bins as a function of the snapshot `Z` of the `M` points. -/
def unpack (A : Arith α) (rom : Nat → Cplx α) (m : Nat) (z : Nat → Cplx α) : Nat → Cplx α := fun k =>
  if k = 0 then (unpk0 A (z 0)).1
  else if k = m then (unpk0 A (z 0)).2
  else if 2 * k = m then unpkh A (z k)
  else if 2 * k < m then (unpkp A (rom k) (z k) (z (m - k))).1
  else (unpkp A (rom (m - k)) (z (m - k)) (z k)).2

end

/-- Words `N+2 .. 2N-1` that CSPEC writes, in order, from the words `2 .. N-1` it reads (R210, R211): word `2(N-k)` is word
`2k`, word `2(N-k)+1` is word `2k+1` with its sign bit inverted. Word `N + 2 + i` belongs to the bin `k` with
`k = N/2 - 1 - i/2`, so it comes from word `2(k-1) + i%2` of those read. -/
def mirrorWords (n : Nat) (ws : List Word) : List Word :=
  (List.range (2 ^ n - 2)).map fun i =>
    let v := ws.getD (2 * (2 ^ n / 2 - 2 - i / 2) + i % 2) 0#64
    if i % 2 = 0 then v else negWord v

end Sys2Proof
end

