-- ==== Sys2Proof/Machine/RealPath.lean ====
section
/-! DEFINITION. The meanings of RFFT (R201) and CSPEC (R210). -/

namespace Sys2Proof.Machine

/-- The `N + 2` words RFFT computes from words `0 .. N-1` of its source (R201, R202, R207): the forward engine of
`N/2` points on the packed samples, then the unpacker. -/
def rfftWords (s : State) (ws : List Word) : List F64 :=
  wordsOf
    (unpack (f64Arith s.rm) (romPair s) (s.size / 2)
      (runEngine s (s.logN - 1) .forward (pointsOf ws)))
    (s.size + 2)

/-- `RFFT DST, SRC` (R201). -/
def execRfft (dst src : BufNo) (s : State) : Result :=
  withTwoBuffers dst src s fun s => transform dst src s.size (rfftWords s) s

/-- `CSPEC DST` (R210): reads words `2 .. N-1` of the buffer and writes its words `N+2 .. 2N-1`. -/
def execCspec (dst : BufNo) (s : State) : Result :=
  withOneBuffer dst s fun s =>
    match readBuf s dst 2 (s.size - 2) with
    | none => .fault .unwrittenWord
    | some ws => .next (complete (writeBuf dst (s.size + 2) (mirrorWords s.logN ws) s))

end Sys2Proof.Machine
end

