-- ==== Sys2Proof/Machine/Dispatch.lean ====
section
/-! DEFINITION. One arm for each command of the opcode table (R85). -/

namespace Sys2Proof.Machine

def exec (i : Instr) (s : State) : Host.Outcome State Fault Refusal :=
  match i with
  | .nop => Sys2Proof.Machine.execNop s
  | .fft dst src => Sys2Proof.Machine.execFft dst src s
  | .ifft dst src => Sys2Proof.Machine.execIfft dst src s
  | .rfft dst src => Sys2Proof.Machine.execRfft dst src s
  | .cspec dst => Sys2Proof.Machine.execCspec dst s

end Sys2Proof.Machine
end

