-- ==== Sys2Proof/Machine/HostPort.lean ====
section
/-! DEFINITION. The host's side (R50 to R58, R231): register and memory accesses, what is admitted and what is
refused (R56), reset. -/

namespace Sys2Proof.Machine

/-- The control register at a byte offset (R28); none at any other offset. -/
def regAt (s : State) (off : Nat) : Option Reg :=
  if off = 0 then some s.id
  else if off = 4 then some s.cfg
  else if off = 8 then some s.cmd
  else if off = 12 then some s.status
  else none

/-- The size of a space in bytes (R50). -/
def spaceSize (s : State) : Space → Nat
  | .data => s.nbuf * (2 * s.size) * 8
  | .twrom => 2 * s.size * 8
  | .brrom => groups s.logN * 8

/-- The 64-bit form of a `BRROM` entry (R55): zero-extended; free when the number has more than 64 bits. -/
def brWord (v : Nat) : Word := if v < 2 ^ 64 then BitVec.ofNat 64 v else Config.wideEntry v

/-- `RegRead(off)` (R51), admitted at any time. -/
def hostRegRead (off bytes : Nat) (s : State) : Result :=
  if bytes ≠ 4 then .refused .accessWidth
  else
    match regAt s off with
    | none => .refused .csrOffset
    | some v => .next (addReply (.reg v) s)

/-- `RegWrite(off, v)` (R51): only a write to `CMD`, while `BUSY = 0`, is admitted. -/
def hostRegWrite (off bytes : Nat) (v : Reg) (s : State) : Result :=
  if bytes ≠ 4 then .refused .accessWidth
  else if off = 8 then
    if s.busy then .refused .busy else .next (issue v s)
  else if off = 0 ∨ off = 4 ∨ off = 12 then .refused .readOnlyRegister
  else .refused .csrOffset

/-- The checks common to `MemRead` and `MemWrite` (R52, R56 (b), R57). -/
def withAddress (space : Space) (addr size : Nat) (s : State) (run : State → Result) : Result :=
  if size ≠ 8 then .refused .accessWidth
  else if addr % 8 ≠ 0 then .refused .misaligned
  else if spaceSize s space ≤ addr then .refused .outsideSpace
  else run s

/-- `MemRead(space, addr, size)` (R52 to R55). -/
def hostMemRead (space : Space) (addr size : Nat) (s : State) : Result :=
  withAddress space addr size s fun s =>
    match space with
    | .data =>
      if s.busy then .refused .busy
      else
        match readWord s.mem addr with
        | none => .fault .unwrittenWord
        | some v => .next (addReply (.word v) s)
    | .twrom =>
      match s.tw[addr / 8]? with
      | none => .refused .outsideSpace
      | some v => .next (addReply (.word v) s)
    | .brrom =>
      match s.br[addr / 8]? with
      | none => .refused .outsideSpace
      | some v => .next (addReply (.word (brWord v)) s)

/-- `MemWrite(space, addr, size, v)` (R52, R53, R56 (c), (d)). -/
def hostMemWrite (space : Space) (addr size : Nat) (v : Word) (s : State) : Result :=
  withAddress space addr size s fun s =>
    match space with
    | .data => if s.busy then .refused .busy else .next { s with mem := writeWord addr v s.mem }
    | .twrom => .refused .readOnlySpace
    | .brrom => .refused .readOnlySpace

/-- One host action (R231). -/
def hostAct (a : HostAction) (s : State) : Result :=
  match a with
  | .regRead off bytes => hostRegRead off bytes s
  | .regWrite off bytes v => hostRegWrite off bytes v s
  | .memRead space addr size => hostMemRead space addr size s
  | .memWrite space addr size v => hostMemWrite space addr size v s
  | .reset => .next (blockReset s)

/-- The host's `stopOnFault` turn (R88): when the last command faulted, every later turn is dropped, also those of the program's
later lines. R88 says that the host sequence stops there and not whether a program's later lines still run: DESIGN CHOICE, log
entry 18. -/
def stopIfFaulted (s : State) : State := if s.errCode = 0 then s else { s with turns := [] }

end Sys2Proof.Machine
end

