-- ==== Sys2Proof/Machine/Fetch.lean ====
section
/-! DEFINITION. What the engine's step takes as its command (R83, R64), and how a command word comes to be the next one
run. There is no program counter and no instruction memory (R26): the command is the word in `CMD`. -/

namespace Sys2Proof.Machine

/-- The word the engine's step takes: `w = CSR.CMD` (R83). -/
def fetchWord (s : State) : Reg := s.cmd

/-- The turn at the head of the list taken off. -/
def popTurn (s : State) : State := { s with turns := s.turns.tail }

/-- A command word in flight whose engine step is the very next step. It stands for the host's `CMD` write (R31). -/
def placeCommand (w : Reg) (s : State) : State := { issue w s with turns := .engine :: s.turns }

/-- The answer of the `STATUS` read that ends an `await` turn. -/
def awaitReply (s : State) : State := addReply (.reg s.status) s

end Sys2Proof.Machine
end

