-- ==== Sys2Proof/Machine/Step.lean ====
section
/-! DEFINITION. The step of the machine: the turn of the host or of the engine (R20, R61). -/

namespace Sys2Proof.Machine

/-- The command in flight, executed whole (R83): a word the decoder refuses is IllegalCommand. -/
def runCommand (s : State) : Host.Outcome State Fault Refusal :=
  match decode (fetchWord s) with
  | .ok i => exec i s
  | .error _ => .next (raise .illegalCommand s)

/-- The engine's turn (R20): its step is enabled exactly when `BUSY = 1`. -/
def engineStep (s : State) : Host.Outcome State Fault Refusal :=
  if s.busy then runCommand s else .next s

/-- One step. With no turn listed the engine takes the step it owes (R232: every command runs to completion), and an
idle block waits (R266). -/
def step (s : State) : Host.Outcome State Fault Refusal :=
  match s.turns with
  | [] => engineStep s
  | .engine :: _ => engineStep (popTurn s)
  | .host a :: _ => hostAct a (popTurn s)
  | .await :: _ => if s.busy then engineStep s else .next (awaitReply (popTurn s))
  | .stopOnFault :: _ => .next (stopIfFaulted (popTurn s))

/-- The state in which the very next step runs the command word `w` (its bits at `nbits` and above zero): what the
host's write to `CMD` brings about (R31), with the engine's turn next. -/
def State.withFetchWord (s : State) (nbits w : Nat) : State :=
  placeCommand (BitVec.ofNat 32 (w % 2 ^ nbits)) s

end Sys2Proof.Machine
end

