-- ==== Sys2Proof/Machine/Script.lean ====
section
/-! DEFINITION. Host software, not hardware (R6 (c)): host sequences for a command line and the pseudo-commands (R87, R88),
`LOAD`, `STORE`, `ZERO` (R236), the marshalling functions (R233 to R235). They build lists of turns; no step
calls them. -/

namespace Sys2Proof.Machine

/-- The host sequence of one command line (R87, R232): wait until idle, write `CMD`, poll until `DONE = 1`. -/
def commandTurns (w : Reg) : List Turn := [.await, .host (.regWrite 8 4 w), .await]

/-- `RFFTC bD, bS` (R88). Its `stopOnFault` turn ends the whole program (log entry 18). -/
def rfftcTurns (dst src : BufNo) : List Turn :=
  commandTurns (encode (.rfft dst src)) ++ [.stopOnFault] ++ commandTurns (encode (.cspec dst))

/-- `IRFFT bD, bS` (R88, R213): a plain IFFT. -/
def irfftTurns (dst src : BufNo) : List Turn := commandTurns (encode (.ifft dst src))

/-- `LOAD b<k>, [v0, v1, ...]` (R236) from word `i` on, on an instance of size `2^n`. -/
def loadTurnsFrom (n k : Nat) : Nat → List Word → List Turn
  | _, [] => []
  | i, v :: vs => .host (.memWrite .data (8 * (k * (2 * 2 ^ n) + i)) 8 v) :: loadTurnsFrom n k (i + 1) vs

/-- `LOAD b<k>, [v0, v1, ...]` (R236). -/
def loadTurns (n k : Nat) (vs : List Word) : List Turn := loadTurnsFrom n k 0 vs

/-- `STORE b<k>` (R236). -/
def storeTurns (n k : Nat) : List Turn :=
  (List.range (2 * 2 ^ n)).map fun i => .host (.memRead .data (8 * (k * (2 * 2 ^ n) + i)) 8)

/-- `createComplexArray()` (R235): `2N` words `+0.0`. -/
def createComplexArray (n : Nat) : List Word := List.replicate (2 * 2 ^ n) 0#64

/-- `ZERO b<k>` (R236). -/
def zeroTurns (n k : Nat) : List Turn := loadTurns n k (createComplexArray n)

/-- `toComplexArray(x)` (R233). -/
def toComplexArray : List Word → List Word
  | [] => []
  | x :: xs => x :: 0#64 :: toComplexArray xs

/-- `fromComplexArray(c)` (R234): the even-indexed words. -/
def fromComplexArray : List Word → List Word
  | [] => []
  | [x] => [x]
  | x :: _ :: xs => x :: fromComplexArray xs

end Sys2Proof.Machine
end

