-- ==== Sys2Proof/Machine/Sequencer.lean ====
section
/-! DEFINITION. The pseudocode of the engine, the unpacker and the mirror as the spec writes it: loops over word offsets
that read and write the destination array in place, one micro-operation after another (R162 to R168, R172, R203 to
R206, R210, R211). No step calls these; that the passes of Machine/Butterfly.lean and Machine/Unpack.lean compute the
same words is a statement of its own (the sequencer refines the engine). Arrays are functions from word offset to word. -/

namespace Sys2Proof

section
variable {α : Type}

/-- `a[i] <- v`. -/
def setWord (a : Nat → α) (i : Nat) (v : α) : Nat → α := fun j => if j = i then v else a j

/-- `a[i], a[i+1] <- z`. -/
def setPoint (a : Nat → α) (i : Nat) (z : Cplx α) : Nat → α := setWord (setWord a i z.re) (i + 1) z.im

/-- The point at a word offset. -/
def pointAt (a : Nat → α) (i : Nat) : Cplx α := ⟨a i, a (i + 1)⟩

/-- `for k in 0 .. m-1: a <- body(k, a)`. -/
def loop (m : Nat) (body : Nat → (Nat → α) → (Nat → α)) (a : Nat → α) : Nat → α :=
  match m with
  | 0 => a
  | k + 1 => body k (loop k body a)

/-- `BASE2(out, outOff, in, off, stepw)` (R163). -/
def seqBase2 (A : Arith α) (out : Nat → α) (outOff : Nat) (inp : Nat → α) (off stepw : Nat) : Nat → α :=
  let e := pointAt inp off
  let o := pointAt inp (off + stepw)
  let out := setWord out outOff (A.add e.re o.re)
  let out := setWord out (outOff + 1) (A.add e.im o.im)
  let out := setWord out (outOff + 2) (A.sub e.re o.re)
  setWord out (outOff + 3) (A.sub e.im o.im)

/-- `BASE4(out, outOff, in, off, stepw, inv)` (R165). -/
def seqBase4 (A : Arith α) (dir : Direction) (out : Nat → α) (outOff : Nat) (inp : Nat → α) (off stepw : Nat) :
    Nat → α :=
  let f := bfly4 A dir (pointAt inp off) (pointAt inp (off + stepw)) (pointAt inp (off + 2 * stepw))
    (pointAt inp (off + 3 * stepw))
  let out := setPoint out outOff f.a
  let out := setPoint out (outOff + 2) f.b
  let out := setPoint out (outOff + 4) f.c
  setPoint out (outOff + 6) f.d

/-- `BasePass(out, in, ne, inv)` (R162), with `perm t` for `rev4(p, t)`. -/
def seqBasePass (A : Arith α) (perm : Nat → Nat) (ne : Nat) (dir : Direction) (inp out : Nat → α) : Nat → α :=
  let stepw := 2 * groups ne
  let lenw := 2 * basePoints ne
  loop (groups ne) (fun t out =>
    if basePoints ne = 2 then seqBase2 A out (t * lenw) inp (2 * perm t) stepw
    else seqBase4 A dir out (t * lenw) inp (2 * perm t) stepw) out

/-- `R4BFLY(out, A, quarter, k, inv)` (R167), `k` a word offset into `TW`. -/
def seqR4bfly (A : Arith α) (tw : Nat → α) (dir : Direction) (out : Nat → α) (a quarter k : Nat) : Nat → α :=
  let b := a + quarter
  let c := b + quarter
  let d := c + quarter
  let mb := cmul A (pointAt out b) (twiddle A dir (pointAt tw k))
  let mc := cmul A (pointAt out c) (twiddle A dir (pointAt tw (2 * k)))
  let md := cmul A (pointAt out d) (twiddle A dir (pointAt tw (3 * k)))
  let f := bfly4 A dir (pointAt out a) mb mc md
  let out := setPoint out a f.a
  let out := setPoint out b f.b
  let out := setPoint out c f.c
  setPoint out d f.d

/-- `CombinePass(out, ne, q, inv)` (R166), the ROM of size `2^n`. -/
def seqCombinePass (A : Arith α) (tw : Nat → α) (n ne q : Nat) (dir : Direction) (out : Nat → α) : Nat → α :=
  let l := blockPoints ne q
  let lenw := 2 * l
  let quarter := lenw / 4
  let tstep := 2 * 2 ^ n / l
  loop (2 * 2 ^ ne / lenw) (fun m out =>
    loop (l / 4) (fun j out => seqR4bfly A tw dir out (m * lenw + 2 * j) quarter (j * tstep)) out) out

/-- `Engine(out, in, ne, inv)` (R168, R169). -/
def seqEngine (A : Arith α) (perm : Nat → Nat) (tw : Nat → α) (n ne : Nat) (dir : Direction) (inp out : Nat → α) :
    Nat → α :=
  if ne = 0 then setWord (setWord out 0 (inp 0)) 1 (inp 1)
  else loop (passes ne) (fun q out => seqCombinePass A tw n ne (q + 1) dir out) (seqBasePass A perm ne dir inp out)

/-- `SCALE(out)` (R172). -/
def seqScale (A : Arith α) (n : Nat) (out : Nat → α) : Nat → α :=
  loop (2 * 2 ^ n) (fun i out => setWord out i (A.div (out i) (A.pow2 n))) out

/-- `Unpack(out)` (R203), `m = N/2`: every read refers to the snapshot `z` of the array at its start. -/
def seqUnpack (A : Arith α) (tw : Nat → α) (m : Nat) (out : Nat → α) : Nat → α :=
  let z := out
  let out := setPoint out 0 (unpk0 A (pointAt z 0)).1
  let out := setPoint out (2 * m) (unpk0 A (pointAt z 0)).2
  let out := if 2 ≤ m then setPoint out (2 * (m / 2)) (unpkh A (pointAt z (2 * (m / 2)))) else out
  loop (m / 2 - 1) (fun i out =>
    let k := i + 1
    let x := unpkp A (pointAt tw (2 * k)) (pointAt z (2 * k)) (pointAt z (2 * (m - k)))
    setPoint (setPoint out (2 * k) x.1) (2 * (m - k)) x.2) out

/-- The loop of `CSPEC` (R210) over `MIRROR(s, k)` (R211), `neg` being the sign-bit inversion of a word. -/
def seqMirror (neg : α → α) (n : Nat) (out : Nat → α) : Nat → α :=
  loop (2 ^ n / 2 - 1) (fun i out =>
    let k := i + 1
    let out' := setWord out (2 * (2 ^ n - k)) (out (2 * k))
    setWord out' (2 * (2 ^ n - k) + 1) (neg (out' (2 * k + 1)))) out

end

/-! ### The sequence of micro-operations (R26, R176, R293) -/

/-- A micro-operation of the sequencer with the offsets it works at. -/
inductive MicroOp where
  /-- The one-point copy (R169). -/
  | copy
  /-- `BASE2` of group `t` (R163). -/
  | base2 (t : Nat)
  /-- `BASE4` of group `t` (R165). -/
  | base4 (t : Nat)
  /-- `R4BFLY` at word offset `a`, distance `quarter`, ROM offset `k` (R167). -/
  | r4bfly (a quarter k : Nat)
  /-- `SCALE` of word `i` (R172). -/
  | scale (i : Nat)
  /-- `UNPK0` (R204). -/
  | unpk0
  /-- `UNPKH` (R205). -/
  | unpkh
  /-- `UNPKP` of bin `k` (R206). -/
  | unpkp (k : Nat)
  /-- `MIRROR` of bin `k` (R211). -/
  | mirror (k : Nat)
  deriving DecidableEq, Repr

/-- The micro-operations of `Engine` on `2^ne` points with the ROM of size `2^n`, in order (R162, R166, R168, R169). They are a
function of the two sizes: no data value enters (R176). -/
def engineOps (n ne : Nat) : List MicroOp :=
  if ne = 0 then [.copy]
  else
    (List.range (groups ne)).map (fun t => if basePoints ne = 2 then .base2 t else .base4 t) ++
    (List.range (passes ne)).flatMap fun q =>
      let l := blockPoints ne (q + 1)
      (List.range (2 * 2 ^ ne / (2 * l))).flatMap fun m =>
        (List.range (l / 4)).map fun j => .r4bfly (m * (2 * l) + 2 * j) (2 * l / 4) (j * (2 * 2 ^ n / l))

/-- The micro-operations of `Unpack` on an instance of size `2^n` (R203). -/
def unpackOps (n : Nat) : List MicroOp :=
  [.unpk0] ++ (if 2 ≤ 2 ^ n / 2 then [.unpkh] else []) ++ (List.range (2 ^ n / 2 / 2 - 1)).map fun i => .unpkp (i + 1)

/-- The micro-operations of a command on an instance of size `2^n`, in order (R170, R171, R201, R203, R210, R230). -/
def microOps (n : Nat) : Instr → List MicroOp
  | .nop => []
  | .fft _ _ => engineOps n n
  | .ifft _ _ => engineOps n n ++ (List.range (2 * 2 ^ n)).map .scale
  | .rfft _ _ => engineOps n (n - 1) ++ unpackOps n
  | .cspec _ => (List.range (2 ^ n / 2 - 1)).map fun i => .mirror (i + 1)

/-- What one micro-operation does to the destination array, in place, on an instance of size `2^n` and in an engine of `2^ne`
points. An unpacker step reads its points before it writes them, so no snapshot is needed (R203). -/
def microOp {α : Type} (A : Arith α) (perm : Nat → Nat) (tw : Nat → α) (n ne : Nat) (dir : Direction) (inp : Nat → α)
    (out : Nat → α) (op : MicroOp) : Nat → α :=
  match op with
  | .copy => setWord (setWord out 0 (inp 0)) 1 (inp 1)
  | .base2 t => seqBase2 A out (t * (2 * basePoints ne)) inp (2 * perm t) (2 * groups ne)
  | .base4 t => seqBase4 A dir out (t * (2 * basePoints ne)) inp (2 * perm t) (2 * groups ne)
  | .r4bfly a quarter k => seqR4bfly A tw dir out a quarter k
  | .scale i => setWord out i (A.div (out i) (A.pow2 n))
  | .unpk0 =>
    let x := unpk0 A (pointAt out 0)
    setPoint (setPoint out 0 x.1) (2 * (2 ^ n / 2)) x.2
  | .unpkh => setPoint out (2 * (2 ^ n / 2 / 2)) (unpkh A (pointAt out (2 * (2 ^ n / 2 / 2))))
  | .unpkp k =>
    let x := unpkp A (pointAt tw (2 * k)) (pointAt out (2 * k)) (pointAt out (2 * (2 ^ n / 2 - k)))
    setPoint (setPoint out (2 * k) x.1) (2 * (2 ^ n / 2 - k)) x.2
  | .mirror k =>
    let out' := setWord out (2 * (2 ^ n - k)) (out (2 * k))
    setWord out' (2 * (2 ^ n - k) + 1) (A.neg (out' (2 * k + 1)))

/-- A sequence of micro-operations, one after another. -/
def runOps {α : Type} (A : Arith α) (perm : Nat → Nat) (tw : Nat → α) (n ne : Nat) (dir : Direction) (inp : Nat → α)
    (ops : List MicroOp) (out : Nat → α) : Nat → α :=
  ops.foldl (microOp A perm tw n ne dir inp) out

/-- Numbers of binary64 operations. -/
structure OpCount where
  /-- Additions and subtractions. -/
  adds : Nat
  muls : Nat
  divs : Nat
  deriving DecidableEq, Repr

/-- The binary64 operations of one micro-operation (R163, R165, R167, R172, R204 to R206, R211). -/
def MicroOp.count : MicroOp → OpCount
  | .copy => ⟨0, 0, 0⟩
  | .base2 _ => ⟨4, 0, 0⟩
  | .base4 _ => ⟨16, 0, 0⟩
  | .r4bfly _ _ _ => ⟨22, 12, 0⟩
  | .scale _ => ⟨0, 0, 1⟩
  | .unpk0 => ⟨2, 0, 0⟩
  | .unpkh => ⟨0, 0, 0⟩
  | .unpkp _ => ⟨10, 8, 0⟩
  | .mirror _ => ⟨0, 0, 0⟩

/-- The binary64 operations of a sequence. -/
def countOps : List MicroOp → OpCount
  | [] => ⟨0, 0, 0⟩
  | op :: ops =>
    ⟨op.count.adds + (countOps ops).adds, op.count.muls + (countOps ops).muls, op.count.divs + (countOps ops).divs⟩

end Sys2Proof
end

