-- ==== Sys2Proof/Safety.lean ====
section
/-! DEFINITION. What claims call a sound state: the invariant of every constructed instance, and the named accuracy
property of the twiddle ROM (R138), and the words in which the exactness laws are stated (R105, R109, R173). -/

namespace Sys2Proof.Machine

/-- The five reachable values of `STATUS` (R32). -/
def statusValues : List Reg := [0x00#32, 0x01#32, 0x02#32, 0x12#32, 0x22#32]

/-- A word of the `DATA` space is either unwritten in every byte or written in every byte. -/
def Memory.wholeWords (m : Memory) : Prop :=
  ∀ a, (readByte m a).isSome = true → (readWord m (a / 8 * 8)).isSome = true

/-- A state of a constructed instance: the constant registers and ROMs hold what construction put there (R21, R29,
R30, R34, R35), `STATUS` is one of its five values (R32), and the buffer file lies in the `DATA` space in
canonical form, written by whole words (R50, R58). -/
structure State.Inv (s : State) : Prop where
  id_const : s.id = 0x46465401#32
  cfg_const : s.cfg = cfgValue s.logN s.nbuf
  logN_pos : 1 ≤ s.logN
  nbuf_two : 2 ≤ s.nbuf
  tw_const : s.tw = twiddleTable s.logN
  br_const : s.br = reversalTable s.logN
  status_value : s.status ∈ statusValues
  mem_wf : Memory.wf s.mem
  mem_range : ∀ c ∈ s.mem, c.1 < spaceSize s .data
  mem_words : Memory.wholeWords s.mem

/-- `TwiddleFaithful(e)` (R138): every ROM word is a finite value within `e` of the cosine or minus the sine it stands
for. A claim that needs accuracy assumes it by name. -/
def TwiddleFaithful (s : State) (e : ℝ) : Prop :=
  ∀ k < s.size, ∃ s1 m1 s2 m2,
    romPair s k = ⟨.fin s1 m1, .fin s2 m2⟩ ∧
    |(F64.signed s1 m1 : ℝ) / 2 ^ 1074 - Real.cos (2 * Real.pi * k / s.size)| ≤ e ∧
    |(F64.signed s2 m2 : ℝ) / 2 ^ 1074 + Real.sin (2 * Real.pi * k / s.size)| ≤ e

end Sys2Proof.Machine

namespace Sys2Proof.Claims

/-- A point of exact real arithmetic as a complex number. -/
def toComplex (z : Cplx ℝ) : ℂ := ⟨z.re, z.im⟩

/-- The ROM of size `2^n` in exact arithmetic: pair `k` is `e^(-2 pi i k / N)` (R105). -/
def ExactRom (n : Nat) (rom : Nat → Cplx ℝ) : Prop :=
  ∀ k, k < 2 ^ n → rom k = ⟨Real.cos (2 * Real.pi * k / 2 ^ n), -Real.sin (2 * Real.pi * k / 2 ^ n)⟩

/-- A permuter that gives the digit reversal for an engine of `2^ne` points (R109). -/
def Reverses (ne : Nat) (perm : Nat → Nat) : Prop := ∀ t, t < groups ne → perm t = rev4 (passes ne) t

end Sys2Proof.Claims
end

