-- ==== Sys2Proof/Certificates/Slice0/Obligations.lean ====
section
/-! DEFINITION. The statements put to the provers, and the words they are written in. -/

namespace Sys2Proof.Claims
open Machine

/-! ### Words of the statements -/

/-- The fields of a command word as numbers (R81). -/
def opcOf (w : Reg) : Nat := w.toNat % 16
def dstOf (w : Reg) : Nat := w.toNat / 16 % 16
def srcOf (w : Reg) : Nat := w.toNat / 256 % 16
def rsvOf (w : Reg) : Nat := w.toNat / 4096

/-- R84 (1) to (3): the word is no legal command of an instance of `nbuf` buffers. -/
abbrev IllegalWord (nbuf : Nat) (w : Reg) : Prop :=
  rsvOf w ≠ 0 ∨ 4 < opcOf w ∨
  (opcOf w = 0 ∧ (dstOf w ≠ 0 ∨ srcOf w ≠ 0)) ∨
  (opcOf w = 4 ∧ (srcOf w ≠ 0 ∨ nbuf ≤ dstOf w)) ∨
  (1 ≤ opcOf w ∧ opcOf w ≤ 3 ∧ (nbuf ≤ dstOf w ∨ nbuf ≤ srcOf w))

/-- R84 (4): FFT, IFFT or RFFT with equal buffer numbers. -/
abbrev AliasedWord (w : Reg) : Prop := 1 ≤ opcOf w ∧ opcOf w ≤ 3 ∧ dstOf w = srcOf w

/-- `STATUS` at the end of a command (R83): the three fields written, every other bit kept (zero in every sound state, R32; log
entry 13). -/
def StatusEnds (s t : State) (code : BitVec 4) : Prop :=
  t.busy = false ∧ t.done = true ∧ t.errCode = code ∧
  ∀ i, i = 2 ∨ i = 3 ∨ 8 ≤ i → t.status.getLsbD i = s.status.getLsbD i

/-- Every register, ROM and host field other than `STATUS` and the buffers is unchanged. -/
def RegistersKept (s t : State) : Prop :=
  t.id = s.id ∧ t.cfg = s.cfg ∧ t.cmd = s.cmd ∧ t.tw = s.tw ∧ t.br = s.br ∧ t.rm = s.rm ∧
  t.turns = s.turns ∧ t.replies = s.replies

/-- Every byte of the buffers outside `len` bytes from `lo` on reads as before. -/
def BytesKept (s t : State) (lo len : Nat) : Prop :=
  ∀ a, ¬(lo ≤ a ∧ a < lo + len) → readByte t.mem a = readByte s.mem a

/-- Words `i, …, i + k - 1` of a buffer have been written since reset (R39). -/
def Written (s : State) (b : BufNo) (i k : Nat) : Prop :=
  ∀ j, i ≤ j → j < i + k → (bufWord s b j).isSome = true

/-- The words of a buffer are the patterns of a datum each, whatever the NaN draws (R135). -/
def Holds (t : State) (b : BufNo) (i : Nat) (v : F64) : Prop := ∃ draw, bufWord t b i = some (v.toWord draw)

/-- Two legal, different buffers of the instance. -/
abbrev TwoBuffers (s : State) (d r : BufNo) : Prop := d.toNat < s.nbuf ∧ r.toNat < s.nbuf ∧ d ≠ r

/-- The turn list of `s` gives the engine its turn, and `s'` is the state at which the engine then works: `s` itself when no turn
is listed or the host awaits, `s` with the turn taken off when the turn is the engine's. The turn list is the model's own
(log entry 6). -/
def EngineHasTurn (s s' : State) : Prop :=
  (s' = s ∧ (s.turns = [] ∨ ∃ l, s.turns = .await :: l)) ∨ ∃ l, s.turns = .engine :: l ∧ s' = { s with turns := l }

/-- Which words a command reads (R25), on an instance of `size` points: all of the source for FFT and IFFT, words `0 .. N-1` of
it for RFFT, words `2 .. N-1` of the one buffer for CSPEC, none for NOP. -/
def ReadsWord (size : Nat) (i : Instr) (b : BufNo) (j : Nat) : Prop :=
  match i with
  | .nop => False
  | .fft _ r => b = r ∧ j < 2 * size
  | .ifft _ r => b = r ∧ j < 2 * size
  | .rfft _ r => b = r ∧ j < size
  | .cspec d => b = d ∧ 2 ≤ j ∧ j < size

/-- The sign bit of a datum that is no NaN; none for a NaN, whose sign is not defined (R135). -/
def signBit : F64 → Option Bool
  | .nan => none
  | .inf s => some s
  | .fin s _ => some s

/-- A magnitude in units of `2^-1074` that is a 53-bit significand times a power of two. -/
def Representable (m : Nat) : Prop := ∃ q e, q < 2 ^ 53 ∧ m = q * 2 ^ e

/-- The rational value of a finite datum. -/
def val (neg : Bool) (m : Nat) : ℚ := F64.signed neg m / 2 ^ 1074

/-- `r` is the exact value `e` rounded once to nearest (R132): when finite, it is representable and no representable
value is nearer; it is an infinity, of the sign of `e`, exactly from half a unit above the largest finite value on. -/
def CorrectlyRounded (e : ℚ) (r : F64) : Prop :=
  (∀ s m, r = .fin s m → Representable m ∧ m < F64.overflow ∧
    ∀ s' m', Representable m' → |val s m - e| ≤ |val s' m' - e|) ∧
  (∀ s, r = .inf s → (s = true ↔ e < 0)) ∧
  ((∃ s, r = .inf s) ↔ (2 : ℚ) ^ 1024 - 2 ^ 970 ≤ |e|) ∧
  r ≠ .nan

end Sys2Proof.Claims

open Sys2Proof Sys2Proof.Machine Sys2Proof.Claims

/-! ### Encoding -/

/-- R81, R85: the decoder reads exactly the encoder's words, in both directions. -/
def Obligations.DecodeInvertsEncode : Prop :=
  ∀ (w : Reg) (i : Instr), decode w = .ok i ↔ encode i = w

/-- R81: `word = OPC | (DST << 4) | (SRC << 8)` on numbers, for every command, and a word with a nonzero `RSV` is none. -/
def Obligations.EncodedFieldsOfCommands : Prop :=
  (∀ d r : BufNo,
    (encode .nop).toNat = 0 ∧
    (encode (.fft d r)).toNat = 1 + 16 * d.toNat + 256 * r.toNat ∧
    (encode (.ifft d r)).toNat = 2 + 16 * d.toNat + 256 * r.toNat ∧
    (encode (.rfft d r)).toNat = 3 + 16 * d.toNat + 256 * r.toNat ∧
    (encode (.cspec d)).toNat = 4 + 16 * d.toNat) ∧
  ∀ w : Reg, rsvOf w ≠ 0 → ∀ i, decode w ≠ .ok i

/-- R86 with R84 (1) to (3), the range check apart: which words are no command, and the name of each refusal. -/
def Obligations.RejectedWords : Prop :=
  ∀ w : Reg,
    (decode w = .error .reservedBits ↔ rsvOf w ≠ 0) ∧
    (decode w = .error .opcode ↔ rsvOf w = 0 ∧ 4 < opcOf w) ∧
    (decode w = .error .operandField ↔ rsvOf w = 0 ∧
      ((opcOf w = 0 ∧ (dstOf w ≠ 0 ∨ srcOf w ≠ 0)) ∨ (opcOf w = 4 ∧ srcOf w ≠ 0)))

/-- R89: the encoding examples. -/
def Obligations.EncodingExamples : Prop :=
  decode 0x00000000#32 = .ok .nop ∧
  decode 0x00000011#32 = .ok (.fft 1 0) ∧
  decode 0x00000122#32 = .ok (.ifft 2 1) ∧
  decode 0x00000033#32 = .ok (.rfft 3 0) ∧
  decode 0x00000034#32 = .ok (.cspec 3) ∧
  decode 0x00000111#32 = .ok (.fft 1 1) ∧
  decode 0x00000005#32 = .error .opcode ∧
  decode 0x00001011#32 = .error .reservedBits

/-! ### Steps, legality, faults -/

/-- R83: with a command in flight whose word decodes, the engine's turn is that command's meaning, whatever turn list
gives the engine its turn; the word is `CMD`. R20: with `BUSY = 0` the engine has no step, so that nothing but the turn list
changes, and an awaiting host gets `STATUS`. R231: a host's turn is the host's action, with that turn taken off. The turn list is
the model's own (log entry 6), and so is what a `stopOnFault` turn drops (log entry 18). -/
def Obligations.EngineTurnRunsDecodedCommand : Prop :=
  (∀ (s : State) (i : Instr), s.busy = true → decode s.cmd = .ok i →
    (s.turns = [] → step s = exec i s) ∧
    (∀ l, s.turns = .engine :: l → step s = exec i { s with turns := l }) ∧
    (∀ l, s.turns = .await :: l → step s = exec i s)) ∧
  (∀ s : State, s.busy = false →
    (s.turns = [] → step s = .next s) ∧
    (∀ l, s.turns = .engine :: l → step s = .next { s with turns := l }) ∧
    (∀ l, s.turns = .await :: l → step s = .next { s with turns := l, replies := .reg s.status :: s.replies })) ∧
  (∀ (s : State) (a : HostAction) (l : List Turn), s.turns = .host a :: l → step s = hostAct a { s with turns := l }) ∧
  ∀ (s : State) (l : List Turn), s.turns = .stopOnFault :: l →
    step s = .next { s with turns := if s.errCode = 0 then l else [] }

/-- The host's two questions rest on this: the step after `withFetchWord` is the meaning of the word's command, in the
state that the host's `CMD` write leaves (R31). -/
def Obligations.PlacedCommandRunsNext : Prop :=
  ∀ (s : State) (i : Instr) (w : Nat), decode (BitVec.ofNat 32 (w % 2 ^ 32)) = .ok i →
    step (s.withFetchWord 32 w) = exec i (issue (BitVec.ofNat 32 (w % 2 ^ 32)) s)

/-- R84, R253, R254: an illegal word in flight ends with code 2 and changes nothing but `STATUS`, whatever turn list gives the
engine its turn. -/
def Obligations.IllegalWordsFault : Prop :=
  ∀ s s' : State, s.busy = true → EngineHasTurn s s' → IllegalWord s.nbuf s.cmd →
    ∃ t, step s = .next t ∧ t = { s' with status := t.status } ∧ StatusEnds s t 2

/-- R84 (4), R252, R254, R256: a legal word with equal buffer numbers ends with code 1 and changes nothing but
`STATUS`; no other word ends so, and every check of (1) to (3) comes first. -/
def Obligations.AliasedWordsFault : Prop :=
  ∀ s s' : State, s.busy = true → EngineHasTurn s s' →
    (¬IllegalWord s.nbuf s.cmd → AliasedWord s.cmd →
      ∃ t, step s = .next t ∧ t = { s' with status := t.status } ∧ StatusEnds s t 1) ∧
    ∀ t, step s = .next t → t.errCode = 1 → AliasedWord s.cmd ∧ ¬IllegalWord s.nbuf s.cmd

/-- R84: a word that passes all four checks is a command that completes with code 0 when every word it reads (R25) has been
written, and on which the model stops when one of them has not (R39, R289; log entry 2). -/
def Obligations.LegalWordsComplete : Prop :=
  ∀ s s' : State, s.busy = true → EngineHasTurn s s' → ¬IllegalWord s.nbuf s.cmd → ¬AliasedWord s.cmd →
    ∃ i, decode s.cmd = .ok i ∧
      (∀ b j, ReadsWord s.size i b j → b.toNat < s.nbuf ∧ j < 2 * s.size) ∧
      ((∀ b j, ReadsWord s.size i b j → (bufWord s b j).isSome = true) →
        ∃ t, step s = .next t ∧ StatusEnds s t 0) ∧
      ((∃ b j, ReadsWord s.size i b j ∧ bufWord s b j = none) → step s = .fault .unwrittenWord)

/-- R254 on commands: exactly the commands that fail a check end with a nonzero code, and then only `STATUS` differs. -/
def Obligations.FaultingCommandsChangeOnlyStatus : Prop :=
  ∀ (i : Instr) (s : State), (i.wf s.nbuf = false ∨ i.aliased = true) →
    ∃ t, exec i s = .next t ∧ t = { s with status := t.status } ∧
      StatusEnds s t (if i.wf s.nbuf = false then 2 else 1)

/-- R258, R230: the next `CMD` write clears the code of a fault, and a NOP brings `STATUS` to `0x02` with every buffer
unchanged. -/
def Obligations.NopClearsFaultCode : Prop :=
  ∀ s : State, s.Inv → s.busy = false → s.turns = [.host (.regWrite 8 4 0#32), .await] →
    ∃ s1 s2, step s = .next s1 ∧ s1.status = 0x01#32 ∧ step s1 = .next s2 ∧ s2.status = 0x02#32 ∧
      s2.mem = s.mem ∧ s2.cmd = 0#32

/-! ### Completion and results -/

/-- R230: NOP completes and touches nothing but `STATUS`. -/
def Obligations.NopCompletes : Prop :=
  ∀ s : State, ∃ t, exec .nop s = .next t ∧ t = { s with status := t.status } ∧ StatusEnds s t 0

/-- R170: FFT completes when its buffers are legal and different and its source is written, and its destination then
holds the forward engine's points, all `2N` words. -/
def Obligations.FftCompletes : Prop :=
  ∀ (s : State) (d r : BufNo), TwoBuffers s d r → Written s r 0 (2 * s.size) →
    ∃ ws t, readBuf s r 0 (2 * s.size) = some ws ∧ (∀ i, i < 2 * s.size → bufWord s r i = ws[i]?) ∧
      exec (.fft d r) s = .next t ∧ RegistersKept s t ∧ StatusEnds s t 0 ∧
      ∀ i, i < 2 * s.size → Holds t d i
        (wordOf (engine (f64Arith s.rm) (permIndex s s.logN) (romPair s) s.logN s.logN .forward (pointsOf ws)) i)

/-- R171, R172: IFFT completes under the same conditions, and its destination then holds the inverse engine's points with
every word divided by `N` once. -/
def Obligations.IfftCompletes : Prop :=
  ∀ (s : State) (d r : BufNo), TwoBuffers s d r → Written s r 0 (2 * s.size) →
    ∃ ws t, readBuf s r 0 (2 * s.size) = some ws ∧ (∀ i, i < 2 * s.size → bufWord s r i = ws[i]?) ∧
      exec (.ifft d r) s = .next t ∧ RegistersKept s t ∧ StatusEnds s t 0 ∧
      ∀ i, i < 2 * s.size → Holds t d i
        (F64.div s.rm
          (wordOf (engine (f64Arith s.rm) (permIndex s s.logN) (romPair s) s.logN s.logN .inverse (pointsOf ws)) i)
          (F64.ofNat s.size))

/-- R201, R207: RFFT reads words `0 .. N-1` of its source only; its destination then holds bins `0 .. N/2`, the imaginary
words of bins 0 and `N/2` are `+0.0` exactly, and words `N+2 .. 2N-1` are what they were. -/
def Obligations.RfftCompletes : Prop :=
  ∀ (s : State) (d r : BufNo), 1 ≤ s.logN → TwoBuffers s d r → Written s r 0 s.size →
    ∃ ws t, readBuf s r 0 s.size = some ws ∧ (∀ i, i < s.size → bufWord s r i = ws[i]?) ∧
      exec (.rfft d r) s = .next t ∧ RegistersKept s t ∧ StatusEnds s t 0 ∧
      (∀ i, i < s.size + 2 → Holds t d i
        (wordOf (unpack (f64Arith s.rm) (romPair s) (s.size / 2)
          (engine (f64Arith s.rm) (permIndex s (s.logN - 1)) (romPair s) s.logN (s.logN - 1) .forward
            (pointsOf ws))) i)) ∧
      bufWord t d 1 = some 0#64 ∧ bufWord t d (s.size + 1) = some 0#64 ∧
      ∀ i, s.size + 2 ≤ i → i < 2 * s.size → bufWord t d i = bufWord s d i

/-- R210, R211: CSPEC completes when its buffer is legal and words `2 .. N-1` are written; bin `N-k` is then the conjugate
of bin `k`, bit for bit, for `k = 1 .. N/2-1`, and words `0 .. N+1` are what they were. -/
def Obligations.CspecCompletes : Prop :=
  ∀ (s : State) (d : BufNo), 1 ≤ s.logN → d.toNat < s.nbuf → Written s d 2 (s.size - 2) →
    ∃ t, exec (.cspec d) s = .next t ∧ RegistersKept s t ∧ StatusEnds s t 0 ∧
      (∀ k, 1 ≤ k → k < s.size / 2 → ∃ re im, bufWord s d (2 * k) = some re ∧ bufWord s d (2 * k + 1) = some im ∧
        bufWord t d (2 * (s.size - k)) = some re ∧
        bufWord t d (2 * (s.size - k) + 1) = some (im ^^^ 0x8000000000000000#64)) ∧
      ∀ i, i < s.size + 2 → bufWord t d i = bufWord s d i

/-- R39, R289: a command that reads a word nothing has written since reset stops the model, for every command and every
word its rule says it reads (R25). -/
def Obligations.UnwrittenOperandStops : Prop :=
  ∀ (s : State) (d r : BufNo) (i : Nat), TwoBuffers s d r →
    (bufWord s r i = none → i < 2 * s.size →
      exec (.fft d r) s = .fault .unwrittenWord ∧ exec (.ifft d r) s = .fault .unwrittenWord) ∧
    (bufWord s r i = none → i < s.size → exec (.rfft d r) s = .fault .unwrittenWord) ∧
    (bufWord s d i = none → 2 ≤ i → i < s.size → exec (.cspec d) s = .fault .unwrittenWord)

/-- R255, R131: whether a command completes, and with which code, does not depend on the data: two states of one instance
with the same written words have the same outcome. -/
def Obligations.OutcomeIgnoresData : Prop :=
  ∀ (i : Instr) (s s' : State), s'.cfg = s.cfg → s'.status = s.status →
    (∀ b j, (bufWord s b j).isSome = (bufWord s' b j).isSome) →
    (exec i s = .fault .unwrittenWord ∧ exec i s' = .fault .unwrittenWord) ∨
    (∃ t t', exec i s = .next t ∧ exec i s' = .next t' ∧ t.status = t'.status)

/-- R163, R170, R171, R201, R204, R210 at the smallest size, `N = 2`: one BASE2; the inverse halves each word; the real path is
UNPK0 of the one point; CSPEC touches no word. -/
def Obligations.TwoPointCommands : Prop :=
  ∀ (s : State) (d r : BufNo) (w0 w1 w2 w3 : Word), s.Inv → s.logN = 1 → TwoBuffers s d r →
    bufWord s r 0 = some w0 → bufWord s r 1 = some w1 → bufWord s r 2 = some w2 → bufWord s r 3 = some w3 →
    (∃ t, exec (.fft d r) s = .next t ∧
      Holds t d 0 (F64.add s.rm (.ofWord w0) (.ofWord w2)) ∧ Holds t d 1 (F64.add s.rm (.ofWord w1) (.ofWord w3)) ∧
      Holds t d 2 (F64.sub s.rm (.ofWord w0) (.ofWord w2)) ∧ Holds t d 3 (F64.sub s.rm (.ofWord w1) (.ofWord w3))) ∧
    (∃ t, exec (.ifft d r) s = .next t ∧
      Holds t d 0 (F64.div s.rm (F64.add s.rm (.ofWord w0) (.ofWord w2)) (.ofNat 2)) ∧
      Holds t d 1 (F64.div s.rm (F64.add s.rm (.ofWord w1) (.ofWord w3)) (.ofNat 2)) ∧
      Holds t d 2 (F64.div s.rm (F64.sub s.rm (.ofWord w0) (.ofWord w2)) (.ofNat 2)) ∧
      Holds t d 3 (F64.div s.rm (F64.sub s.rm (.ofWord w1) (.ofWord w3)) (.ofNat 2))) ∧
    (∃ t, exec (.rfft d r) s = .next t ∧
      Holds t d 0 (F64.add s.rm (.ofWord w0) (.ofWord w1)) ∧ bufWord t d 1 = some 0#64 ∧
      Holds t d 2 (F64.sub s.rm (.ofWord w0) (.ofWord w1)) ∧ bufWord t d 3 = some 0#64) ∧
    (∃ t, exec (.cspec d) s = .next t ∧ t = { s with status := t.status })

/-- R164, R165: FFT of four points is one BASE4: bins 0 to 3 from `T0 = A + C`, `T1 = A - C`, `T2 = B + D`, `T3 = B - D`, the words
of bin 1 being `T1r + T3i` and `T1i - T3r` (90_conflicts.md C3). -/
def Obligations.FourPointForward : Prop :=
  ∀ (s : State) (d r : BufNo) (ws : List Word), s.Inv → s.logN = 2 → TwoBuffers s d r → readBuf s r 0 8 = some ws →
    let x := fun i => F64.ofWord (ws.getD i 0#64)
    let add := F64.add s.rm
    let sub := F64.sub s.rm
    ∃ t, exec (.fft d r) s = .next t ∧
      Holds t d 0 (add (add (x 0) (x 4)) (add (x 2) (x 6))) ∧
      Holds t d 1 (add (add (x 1) (x 5)) (add (x 3) (x 7))) ∧
      Holds t d 2 (add (sub (x 0) (x 4)) (sub (x 3) (x 7))) ∧
      Holds t d 3 (sub (sub (x 1) (x 5)) (sub (x 2) (x 6))) ∧
      Holds t d 4 (sub (add (x 0) (x 4)) (add (x 2) (x 6))) ∧
      Holds t d 5 (sub (add (x 1) (x 5)) (add (x 3) (x 7))) ∧
      Holds t d 6 (sub (sub (x 0) (x 4)) (sub (x 3) (x 7))) ∧
      Holds t d 7 (add (sub (x 1) (x 5)) (sub (x 2) (x 6)))

/-- R212 (a): after RFFT and then CSPEC on the same buffer, bin `N-k` is bit for bit the conjugate of bin `k`, and bins 0 and
`N/2` have imaginary part `+0.0`. -/
def Obligations.CompletedSpectrumIsSymmetric : Prop :=
  ∀ (s t u : State) (d r : BufNo), 1 ≤ s.logN → d ≠ r → d.toNat < s.nbuf → r.toNat < s.nbuf →
    exec (.rfft d r) s = .next t → exec (.cspec d) t = .next u →
    bufWord u d 1 = some 0#64 ∧ bufWord u d (s.size + 1) = some 0#64 ∧
    (∀ i, i < 2 * s.size → (bufWord u d i).isSome = true) ∧
    ∀ k, 1 ≤ k → k < s.size / 2 →
      bufWord u d (2 * (s.size - k)) = bufWord u d (2 * k) ∧
      bufWord u d (2 * (s.size - k) + 1) = (bufWord u d (2 * k + 1)).map (· ^^^ 0x8000000000000000#64)

/-- R145, R135: what a command leaves is a function of `n`, `RM`, the ROMs and the buffers alone, but for NaN patterns: in two
states that agree in `CFG`, the mode, the ROMs and the buffers the same command has the same outcome, and every word is
the same or is a NaN both times. The number of NaN draws (log entry 5) is among the things that may differ. -/
def Obligations.ResultsIndependentOfDraws : Prop :=
  ∀ (i : Instr) (s s' : State), s'.cfg = s.cfg → s'.rm = s.rm → s'.tw = s.tw → s'.br = s.br → s'.mem = s.mem →
    (exec i s = .fault .unwrittenWord ∧ exec i s' = .fault .unwrittenWord) ∨
    ∃ t t', exec i s = .next t ∧ exec i s' = .next t' ∧
      t'.busy = t.busy ∧ t'.done = t.done ∧ t'.errCode = t.errCode ∧
      ∀ b j, j < 2 * s.size → bufWord t' b j = bufWord t b j ∨
        ∃ w w', bufWord t b j = some w ∧ bufWord t' b j = some w' ∧ F64.ofWord w = .nan ∧ F64.ofWord w' = .nan

/-! ### Frames -/

/-- R25, R254: what FFT and IFFT leave alone: every register and ROM, and every byte outside the `2N` words of the
destination; every byte when the command faults. -/
def Obligations.TransformFrame : Prop :=
  ∀ (i : Instr) (d r : BufNo) (s t : State), i = .fft d r ∨ i = .ifft d r → exec i s = .next t →
    RegistersKept s t ∧ (∃ c, StatusEnds s t c) ∧
    (∀ a, a = wordAddr s d.toNat 0 → BytesKept s t a (8 * (2 * s.size))) ∧
    (¬TwoBuffers s d r → ∀ a, readByte t.mem a = readByte s.mem a)

/-- R25, R201, R207: what RFFT leaves alone: every register and ROM, and every byte outside words `0 .. N+1` of the
destination; every byte when the command faults. -/
def Obligations.RealTransformFrame : Prop :=
  ∀ (d r : BufNo) (s t : State), exec (.rfft d r) s = .next t →
    RegistersKept s t ∧ (∃ c, StatusEnds s t c) ∧
    (∀ a, a = wordAddr s d.toNat 0 → BytesKept s t a (8 * (s.size + 2))) ∧
    (¬TwoBuffers s d r → ∀ a, readByte t.mem a = readByte s.mem a)

/-- R25, R210: what CSPEC leaves alone: every register and ROM, and every byte outside words `N+2 .. 2N-1` of its buffer;
every byte when the command faults, and when `N = 2`. -/
def Obligations.CompletionFrame : Prop :=
  ∀ (d : BufNo) (s t : State), exec (.cspec d) s = .next t →
    RegistersKept s t ∧ (∃ c, StatusEnds s t c) ∧
    (∀ a, a = wordAddr s d.toNat (s.size + 2) → BytesKept s t a (8 * (s.size - 2))) ∧
    (¬d.toNat < s.nbuf ∨ s.size = 2 → ∀ a, readByte t.mem a = readByte s.mem a)

/-- R25: no command changes a buffer it does not store to; in particular none changes its source. -/
def Obligations.OtherBuffersUnchanged : Prop :=
  ∀ (s t : State) (d r b : BufNo) (j : Nat), 1 ≤ s.logN → b ≠ d → j < 2 * s.size →
    (exec (.fft d r) s = .next t ∨ exec (.ifft d r) s = .next t ∨ exec (.rfft d r) s = .next t ∨
      exec (.cspec d) s = .next t) →
    bufWord t b j = bufWord s b j

/-! ### The host's side -/

/-- R31, R51: a `CMD` write while idle stores the word, sets `BUSY`, clears `DONE` and `ERRCODE`, and does nothing else; any
word may be written, and is what `CMD` then reads; while busy the write has no step; after reset `CMD` is zero. -/
def Obligations.CommandWriteIssues : Prop :=
  ∀ (s : State) (w : Reg),
    (s.busy = false →
      ∃ t, hostAct (.regWrite 8 4 w) s = .next t ∧ t = { s with cmd := w, status := t.status } ∧
        t.busy = true ∧ t.done = false ∧ t.errCode = 0 ∧
        (∀ i, i = 2 ∨ i = 3 ∨ 8 ≤ i → t.status.getLsbD i = s.status.getLsbD i) ∧
        hostAct (.regRead 8 4) t = .next { t with replies := .reg w :: t.replies }) ∧
    (s.busy = true → ∃ e, hostAct (.regWrite 8 4 w) s = .refused e) ∧
    ∃ t, hostAct .reset s = .next t ∧ t.cmd = 0#32

/-- R51, R28 to R32: `RegRead` at the four offsets returns `ID`, `CFG`, `CMD`, `STATUS`, at any time, and changes nothing. -/
def Obligations.RegisterReads : Prop :=
  ∀ s : State,
    hostAct (.regRead 0 4) s = .next { s with replies := .reg s.id :: s.replies } ∧
    hostAct (.regRead 4 4) s = .next { s with replies := .reg s.cfg :: s.replies } ∧
    hostAct (.regRead 8 4) s = .next { s with replies := .reg s.cmd :: s.replies } ∧
    hostAct (.regRead 12 4) s = .next { s with replies := .reg s.status :: s.replies }

/-- R53, R39: while idle, a word written to `DATA` address `8(b*2N + i)` is word `i` of buffer `b`, every other word of the
buffer file and every register is what it was, and a read there returns the word and changes nothing, or stops the model
when nothing has written the word (R39; log entry 2); while busy neither has a step (R56). -/
def Obligations.DataSpaceIsBufferFile : Prop :=
  ∀ (s : State) (b : BufNo) (i : Nat) (v : Word), b.toNat < s.nbuf → i < 2 * s.size →
    ∀ a, a = 8 * (b.toNat * (2 * s.size) + i) →
    (s.busy = false →
      (∃ t, hostAct (.memWrite .data a 8 v) s = .next t ∧ t = { s with mem := t.mem } ∧ bufWord t b i = some v ∧
        (∀ c j, j < 2 * s.size → c ≠ b ∨ j ≠ i → bufWord t c j = bufWord s c j) ∧ BytesKept s t a 8) ∧
      (∀ u, bufWord s b i = some u →
        hostAct (.memRead .data a 8) s = .next { s with replies := .word u :: s.replies }) ∧
      (bufWord s b i = none → hostAct (.memRead .data a 8) s = .fault .unwrittenWord)) ∧
    (s.busy = true → hostAct (.memWrite .data a 8 v) s = .refused .busy ∧
      hostAct (.memRead .data a 8) s = .refused .busy)

/-- R59's order, in the memory the model holds the buffers in: the byte at `addr + j` of a stored word holds bits
`[8j+7 : 8j]`. That the buffers are held as bytes, in this order, is the model's choice (log entry 11): R59 fixes the order
only where a platform serialises a word, and inside the block it cannot be observed. -/
def Obligations.StoredWordsAreLittleEndian : Prop :=
  ∀ (m : Memory) (a : Nat) (v : Word) (j : Nat), j < 8 →
    ∃ b : BitVec 8, readByte (writeWord a v m) (a + j) = some b ∧ b.toNat = v.toNat / 256 ^ j % 256

/-- R54, R55, R105, R108: the ROM spaces read the twiddle table and the reversal table at any time; an entry of `BR` that
needs more than 64 bits is not covered (log entry 9). -/
def Obligations.RomReads : Prop :=
  ∀ s : State, s.Inv →
    (∀ o, o < 2 * s.size → ∃ v, (twiddleTable s.logN)[o]? = some v ∧
      hostAct (.memRead .twrom (8 * o) 8) s = .next { s with replies := .word v :: s.replies }) ∧
    (∀ t, t < groups s.logN → rev4 (passes s.logN) t < 2 ^ 64 →
      hostAct (.memRead .brrom (8 * t) 8) s =
        .next { s with replies := .word (BitVec.ofNat 64 (rev4 (passes s.logN) t)) :: s.replies })

/-- R56: the accesses that are not admitted have no step. -/
def Obligations.AccessesNotAdmitted : Prop :=
  ∀ (s : State) (space : Space) (off addr size : Nat) (v : Reg) (w : Word),
    (off ≠ 0 ∧ off ≠ 4 ∧ off ≠ 8 ∧ off ≠ 12 ∨ size ≠ 4 →
      (∃ e, hostAct (.regRead off size) s = .refused e) ∧ ∃ e, hostAct (.regWrite off size v) s = .refused e) ∧
    (off = 0 ∨ off = 4 ∨ off = 12 → ∃ e, hostAct (.regWrite off size v) s = .refused e) ∧
    (addr % 8 ≠ 0 ∨ size ≠ 8 ∨ spaceSize s space ≤ addr →
      (∃ e, hostAct (.memRead space addr size) s = .refused e) ∧
      ∃ e, hostAct (.memWrite space addr size w) s = .refused e) ∧
    (space ≠ .data → ∃ e, hostAct (.memWrite space addr size w) s = .refused e) ∧
    (s.busy = true →
      (∃ e, hostAct (.memRead .data addr size) s = .refused e) ∧
      (∃ e, hostAct (.memWrite .data addr size w) s = .refused e) ∧
      ∃ e, hostAct (.regWrite 8 size v) s = .refused e)

/-- R280, R281, R38: reset, also with a command in flight, returns a sound instance to the state it has right after
construction: `CMD` and `STATUS` zero, every buffer byte unspecified, every constant as it was. What is left of the host's
own turns and replies (log entry 6), and the model's count of NaN draws (log entry 5), are no state of the block, and that reset
keeps them is the model's choice. -/
def Obligations.ResetClears : Prop :=
  (∀ s : State, ∃ t, hostAct .reset s = .next t ∧ t.cmd = 0#32 ∧ t.status = 0#32 ∧ (∀ a, readByte t.mem a = none) ∧
    t.id = s.id ∧ t.cfg = s.cfg ∧ t.tw = s.tw ∧ t.br = s.br ∧ t.rm = s.rm) ∧
  ∀ s : State, s.Inv → hostAct .reset s = .next
    { State.ofContext (contextOf s.logN) s.nbuf s.rm with draws := s.draws, turns := s.turns, replies := s.replies }

/-- R38, R29, R30: the registers of an instance of `n` and `NBUF` after reset, every buffer word unwritten. -/
def Obligations.RegistersAfterReset : Prop :=
  ∀ (n nb : Nat) (rm : RoundingMode), 1 ≤ n → n ≤ 255 → 2 ≤ nb → nb ≤ 16 →
    ∃ s, s = State.ofContext (contextOf n) nb rm ∧
      s.id.toNat = 0x46465401 ∧ s.cfg.toNat = n + 256 * (nb - 1) ∧ s.cmd.toNat = 0 ∧ s.status.toNat = 0 ∧
      s.logN = n ∧ s.nbuf = nb ∧ s.tw = twiddleTable n ∧ s.br = reversalTable n ∧
      ∀ b i, bufWord s b i = none

/-! ### Invariants -/

/-- Every step of host or engine keeps the invariant of a constructed instance: constant registers and ROMs, `STATUS` one
of its five values, the buffer file canonical, inside its space and written by whole words. -/
def Obligations.EveryStepKeepsInstanceSound : Prop :=
  ∀ s t : State, s.Inv → step s = .next t → t.Inv

/-- Every constructed instance is sound right after reset, for every `n`, `NBUF` and rounding mode; so is `State.reset`. -/
def Obligations.ConstructedInstancesAreSound : Prop :=
  (∀ (n nb : Nat) (rm : RoundingMode), 1 ≤ n → n ≤ 255 → 2 ≤ nb → nb ≤ 16 →
    (State.ofContext (contextOf n) nb rm).Inv) ∧ State.reset.Inv

/-- R21: `TW`, `BR`, `ID`, `CFG` (and the rounding mode) never change, whatever the state and the turn. -/
def Obligations.ConstantsNeverChange : Prop :=
  ∀ s t : State, step s = .next t → t.id = s.id ∧ t.cfg = s.cfg ∧ t.tw = s.tw ∧ t.br = s.br ∧ t.rm = s.rm

/-- R31, R32: `CMD` changes only by the host's `CMD` write and by reset. -/
def Obligations.OnlyHostChangesCommand : Prop :=
  ∀ s t : State, step s = .next t → t.cmd ≠ s.cmd →
    (∃ w l, s.turns = .host (.regWrite 8 4 w) :: l ∧ s.busy = false ∧ t.cmd = w) ∨
    (∃ l, s.turns = .host .reset :: l ∧ t.cmd = 0#32)

/-! ### Construction -/

/-- R103, R104, R7: construction fails with InvalidSize exactly for the sizes that are no power of two above 1; a power of two
`2^n` yields the context of `n` for `n <= 255`, and is outside the spec above (R7; log entry 15). -/
def Obligations.ConstructionValidatesSize : Prop :=
  ∀ size : Int,
    (construct size = .error .invalidSize ↔ ¬∃ n : Nat, 1 ≤ n ∧ size = 2 ^ n) ∧
    ∀ n : Nat, 1 ≤ n → size = 2 ^ n →
      (n ≤ 255 → construct size = .ok (contextOf n)) ∧
      (255 < n → construct size = .error .outsideSpec)

/-- R107: the shape numbers: `b`, `B = 2^b`, `p = (ne - b) / 2` exactly, `G = 4^p = 2^ne / B`, `w = 2p = ne - b`. -/
def Obligations.ShapeNumbers : Prop :=
  ∀ ne : Nat, 1 ≤ ne →
    (ne % 2 = 0 → baseBits ne = 2) ∧ (ne % 2 = 1 → baseBits ne = 1) ∧ basePoints ne = 2 ^ baseBits ne ∧
    passes ne = (ne - baseBits ne) / 2 ∧ 2 * passes ne = ne - baseBits ne ∧ baseBits ne ≤ ne ∧
    groups ne = 4 ^ passes ne ∧ groups ne = 2 ^ ne / basePoints ne ∧ basePoints ne * groups ne = 2 ^ ne ∧
    groups ne = 2 ^ (2 * passes ne)

/-- R109: `rev4` mirrors the base-4 digits: digit `d` of `t` is digit `p-1-d` of the result; the corner cases and the worked
example. -/
def Obligations.Rev4MirrorsDigits : Prop :=
  (∀ p t d : Nat, t < 4 ^ p → rev4 p t < 4 ^ p ∧ (d < p → rev4 p t / 4 ^ (p - 1 - d) % 4 = t / 4 ^ d % 4)) ∧
  rev4 0 0 = 0 ∧ (∀ t, t < 4 → rev4 1 t = t) ∧ rev4 2 6 = 9

/-- R110 (a), (b): `rev4(p, .)` is its own inverse on `0 .. 4^p - 1`, and dropping the lowest digit gives the reversal of one
digit fewer. -/
def Obligations.Rev4Laws : Prop :=
  (∀ p t : Nat, t < 4 ^ p → rev4 p (rev4 p t) = t) ∧
  ∀ p t : Nat, 1 ≤ p → t < 4 ^ (p - 1) → rev4 (p - 1) t = rev4 p t >>> 2

/-- R202 (b): the instance's one reversal ROM serves the full-size engine and the half-size engine. -/
def Obligations.PermuterServesBothEngines : Prop :=
  ∀ s : State, s.Inv → Reverses s.logN (permIndex s s.logN) ∧
    (2 ≤ s.logN → Reverses (s.logN - 1) (permIndex s (s.logN - 1)))

/-- R105, R106 (a), (d): the twiddle table has `2N` words and begins with `+1.0` and `-0.0`, and entry pair `2k` of the table of
size `N` is, bit for bit, entry pair `k` of the table of size `N/2`. -/
def Obligations.TwiddleTableLaws : Prop :=
  ∀ n : Nat, (twiddleTable n).length = 2 * 2 ^ n ∧
    (twiddleTable n)[0]? = some 0x3FF0000000000000#64 ∧ (twiddleTable n)[1]? = some 0x8000000000000000#64 ∧
    (1 ≤ n → n ≤ 255 → ∀ k, k < 2 ^ (n - 1) →
      (twiddleTable n)[4 * k]? = (twiddleTable (n - 1))[2 * k]? ∧
      (twiddleTable n)[4 * k + 1]? = (twiddleTable (n - 1))[2 * k + 1]?)

/-! ### Numerics -/

/-- R130, R131: the pattern of a datum read from a word is that word, unless the word is a NaN; finite data is
representable. -/
def Obligations.PatternsRoundTrip : Prop :=
  ∀ (w : Word) (draw : BitVec 52), F64.ofWord w ≠ .nan →
    (F64.ofWord w).toWord draw = w ∧
    ∀ s m, F64.ofWord w = .fin s m → Representable m ∧ m < F64.overflow

/-- R135: a NaN is stored as a quiet NaN, and every quiet NaN is the pattern of some draw. -/
def Obligations.StoredNansAreQuiet : Prop :=
  (∀ draw, F64.ofWord (F64.toWord draw .nan) = .nan ∧ (F64.toWord draw .nan).getLsbD 51 = true) ∧
  ∀ w : Word, F64.ofWord w = .nan → w.getLsbD 51 = true → ∃ draw, F64.toWord draw .nan = w

/-- R133: `neg` inverts bit 63 of the pattern and changes no other bit, NaN or not, and is the sign change of the datum. -/
def Obligations.NegFlipsSignBit : Prop :=
  ∀ w : Word, (∀ i, i < 63 → (negWord w).getLsbD i = w.getLsbD i) ∧ (negWord w).getLsbD 63 = !w.getLsbD 63 ∧
    F64.ofWord (negWord w) = F64.neg (F64.ofWord w)

/-- R132: under roundTiesToEven each operation on finite operands is the exact result rounded once to nearest. -/
def Obligations.OperationsAreCorrectlyRounded : Prop :=
  ∀ (s1 s2 : Bool) (m1 m2 : Nat),
    CorrectlyRounded (val s1 m1 + val s2 m2) (F64.add .rne (.fin s1 m1) (.fin s2 m2)) ∧
    CorrectlyRounded (val s1 m1 - val s2 m2) (F64.sub .rne (.fin s1 m1) (.fin s2 m2)) ∧
    CorrectlyRounded (val s1 m1 * val s2 m2) (F64.mul .rne (.fin s1 m1) (.fin s2 m2)) ∧
    (m2 ≠ 0 → CorrectlyRounded (val s1 m1 / val s2 m2) (F64.div .rne (.fin s1 m1) (.fin s2 m2)))

/-- R132, ties: when two representable magnitudes are equally near, the one taken has an even significand. -/
def Obligations.TiesGoToEven : Prop :=
  ∀ (neg : Bool) (a d m : Nat), 0 < d → Representable m → m ≠ F64.roundMag .rne neg a d →
    |(m * d : Int) - a| = |(F64.roundMag .rne neg a d * d : Int) - a| →
    F64.roundMag .rne neg a d / 2 ^ ((a / d).log2 - 52) % 2 = 0

/-- R134, R10: signed zeros, infinities, invalid operations, under roundTiesToEven where the mode matters; the sign of every
product and quotient that is no NaN, also one that underflows to zero or overflows, is the exclusive-or of the signs. -/
def Obligations.SignedZerosAndInfinities : Prop :=
  (∀ s m, F64.sub .rne (.fin s m) (.fin s m) = .fin false 0) ∧
  F64.add .rne (.fin false 0) (.fin true 0) = .fin false 0 ∧
  F64.add .rne (.fin true 0) (.fin true 0) = .fin true 0 ∧
  F64.sub .rne (.fin true 0) (.fin false 0) = .fin true 0 ∧
  (∀ rm s1 s2 m, F64.add rm (.inf s1) (.fin s2 m) = .inf s1 ∧ F64.mul rm (.fin s1 0) (.fin s2 m) = .fin (s1 != s2) 0) ∧
  (∀ rm x y a b, signBit x = some a → signBit y = some b →
    (F64.mul rm x y ≠ .nan → signBit (F64.mul rm x y) = some (a != b)) ∧
    (F64.div rm x y ≠ .nan → signBit (F64.div rm x y) = some (a != b))) ∧
  (∀ rm s1 s2 m, F64.add rm (.fin s1 m) (.inf s2) = .inf s2 ∧ F64.add rm (.inf s1) (.inf s1) = .inf s1 ∧
    F64.mul rm (.inf s1) (.inf s2) = .inf (s1 != s2) ∧ F64.div rm (.fin s1 m) (.inf s2) = .fin (s1 != s2) 0) ∧
  (∀ rm s1 s2 m, m ≠ 0 → F64.mul rm (.fin s1 m) (.inf s2) = .inf (s1 != s2)) ∧
  (∀ rm s1 s2 m, m ≠ 0 → F64.mul rm (.inf s1) (.fin s2 m) = .inf (s1 != s2) ∧
    F64.div rm (.fin s1 0) (.fin s2 m) = .fin (s1 != s2) 0 ∧ F64.div rm (.inf s1) (.fin s2 m) = .inf (s1 != s2)) ∧
  (∀ rm s s', F64.sub rm (.inf s) (.inf s) = .nan ∧ F64.mul rm (.fin s 0) (.inf s') = .nan ∧
    F64.mul rm (.inf s) (.fin s' 0) = .nan ∧ F64.div rm (.inf s) (.inf s') = .nan ∧
    F64.div rm (.fin s 0) (.fin s' 0) = .nan) ∧
  ∀ rm x, F64.add rm .nan x = .nan ∧ F64.add rm x .nan = .nan ∧ F64.sub rm .nan x = .nan ∧ F64.sub rm x .nan = .nan ∧
    F64.mul rm .nan x = .nan ∧ F64.mul rm x .nan = .nan ∧ F64.div rm .nan x = .nan ∧ F64.div rm x .nan = .nan

/-- R144: dividing by `N = 2^n` is multiplying by `1/N`, for every datum and mode; it is exact when no bit is lost to
underflow; zeros and infinities keep their sign. -/
def Obligations.ScalingByPowerOfTwo : Prop :=
  ∀ (rm : RoundingMode) (n : Nat), 1 ≤ n → n ≤ 255 →
    (∀ x, F64.div rm x (.ofNat (2 ^ n)) = F64.mul rm x (.fin false (2 ^ (1074 - n)))) ∧
    (∀ s m, Representable m → m * 2 ^ n < F64.overflow →
      F64.div rm (.fin s (m * 2 ^ n)) (.ofNat (2 ^ n)) = .fin s m) ∧
    ∀ s, F64.div rm (.fin s 0) (.ofNat (2 ^ n)) = .fin s 0 ∧ F64.div rm (.inf s) (.ofNat (2 ^ n)) = .inf s

/-! ### The network -/

/-- R162, R166, R167, R168, R176: the pseudocode's in-place loops over words compute, for every arithmetic, permuter and ROM, the
points the passes define, and touch no word of the destination beyond `2 * 2^ne`. -/
def Obligations.SequencerRefinesEngine : Prop :=
  ∀ (α : Type) (A : Arith α) (perm : Nat → Nat) (tw inp out : Nat → α) (n ne : Nat) (dir : Direction) (i : Nat),
    ne ≤ n →
    seqEngine A perm tw n ne dir inp out i =
      if i < 2 * 2 ^ ne then wordOf (engine A perm (pointOf tw) n ne dir (pointOf inp)) i else out i

/-- R203 to R206, R172: the unpacker's and the scaler's loops compute the words the model's definitions give, and touch no
other word. -/
def Obligations.SequencerRefinesUnpackAndScale : Prop :=
  ∀ (α : Type) (A : Arith α) (tw out : Nat → α) (n i : Nat),
    seqUnpack A tw (2 ^ n) out i =
      (if i < 2 * 2 ^ n + 2 then wordOf (unpack A (pointOf tw) (2 ^ n) (pointOf out)) i else out i) ∧
    seqScale A n out i = if i < 2 * 2 ^ n then wordOf (scale A n (pointOf out)) i else out i

/-- R210, R211: the MIRROR loop writes exactly the words CSPEC stores. -/
def Obligations.SequencerRefinesMirror : Prop :=
  ∀ (out : Nat → Word) (n i : Nat), 1 ≤ n →
    seqMirror negWord n out i =
      if 2 ^ n + 2 ≤ i ∧ i < 2 * 2 ^ n then
        (mirrorWords n ((List.range (2 ^ n - 2)).map fun j => out (j + 2))).getD (i - (2 ^ n + 2)) 0#64
      else out i

/-- R176, R293: the micro-operations of a command are a list that its opcode and the sizes fix, the same for all operands. Run in
order, in place, they are the pseudocode of the command: the engine's loops, then SCALE for IFFT or the unpacker for RFFT, or
the MIRROR loop (R168 to R172, R201, R203, R210). The numbers of micro-operations and of binary64 operations are those R293
derives. -/
def Obligations.MicroOperationsOfCommands : Prop :=
  (∀ (n : Nat) (d r d' r' : BufNo), microOps n (.fft d r) = microOps n (.fft d' r') ∧
    microOps n (.ifft d r) = microOps n (.ifft d' r') ∧ microOps n (.rfft d r) = microOps n (.rfft d' r') ∧
    microOps n (.cspec d) = microOps n (.cspec d') ∧ microOps n .nop = []) ∧
  (∀ (α : Type) (A : Arith α) (perm : Nat → Nat) (tw inp out : Nat → α) (n : Nat) (d r : BufNo), 1 ≤ n →
    runOps A perm tw n n .forward inp (microOps n (.fft d r)) out = seqEngine A perm tw n n .forward inp out ∧
    runOps A perm tw n n .inverse inp (microOps n (.ifft d r)) out =
      seqScale A n (seqEngine A perm tw n n .inverse inp out) ∧
    runOps A perm tw n (n - 1) .forward inp (microOps n (.rfft d r)) out =
      seqUnpack A tw (2 ^ n / 2) (seqEngine A perm tw n (n - 1) .forward inp out) ∧
    (∀ ne dir, runOps A perm tw n ne dir inp (microOps n (.cspec d)) out = seqMirror A.neg n out) ∧
    ∀ ne dir, runOps A perm tw n ne dir inp (engineOps n ne) out = seqEngine A perm tw n ne dir inp out) ∧
  (∀ n ne : Nat, 1 ≤ ne → ne ≤ n →
    (engineOps n ne).length = groups ne + passes ne * (2 ^ ne / 4) ∧
    countOps (engineOps n ne) =
      ⟨groups ne * (if ne % 2 = 1 then 4 else 16) + passes ne * (2 ^ ne / 4) * 22, passes ne * (2 ^ ne / 4) * 12, 0⟩) ∧
  ∀ (n : Nat) (d r : BufNo), 1 ≤ n →
    engineOps n 0 = [.copy] ∧ microOps n (.fft d r) = engineOps n n ∧
    (microOps n (.ifft d r)).length = (engineOps n n).length + 2 * 2 ^ n ∧
    countOps (microOps n (.ifft d r)) =
      ⟨(countOps (engineOps n n)).adds, (countOps (engineOps n n)).muls, 2 * 2 ^ n⟩ ∧
    (microOps n (.rfft d r)).length =
      (engineOps n (n - 1)).length + 1 + (if 4 ≤ 2 ^ n then 1 else 0) + (2 ^ n / 4 - 1) ∧
    (microOps n (.rfft d r)).count .unpk0 = 1 ∧ (microOps n (.rfft d r)).count .unpkh = (if 4 ≤ 2 ^ n then 1 else 0) ∧
    countOps (microOps n (.rfft d r)) =
      ⟨(countOps (engineOps n (n - 1))).adds + 2 + (2 ^ n / 4 - 1) * 10,
        (countOps (engineOps n (n - 1))).muls + (2 ^ n / 4 - 1) * 8, 0⟩ ∧
    (microOps n (.cspec d)).length = 2 ^ n / 2 - 1 ∧ countOps (microOps n (.cspec d)) = ⟨0, 0, 0⟩

/-- R175: no pass reads or writes out of range. Of the micro-operations of an engine: the groups are below `G`; the last offset
of a combine butterfly is in the destination and its last ROM offset in the ROM; and, whatever offsets it uses, each
micro-operation's result is fixed by the `2 * 2^ne` words of source and destination and the `2N` words of the ROM, and it
writes no other word. The engine's points are fixed by the `2^ne` points it reads, the `N` ROM pairs and the `G` entries of the
permuter. -/
def Obligations.IndicesStayInRange : Prop :=
  ∀ n ne : Nat, ne ≤ n →
    (∀ t, MicroOp.base2 t ∈ engineOps n ne ∨ MicroOp.base4 t ∈ engineOps n ne → t < groups ne) ∧
    (∀ a quarter k, MicroOp.r4bfly a quarter k ∈ engineOps n ne →
      a + 3 * quarter + 1 < 2 * 2 ^ ne ∧ 3 * k + 1 < 2 * 2 ^ n) ∧
    (∀ (α : Type) (A : Arith α) (perm : Nat → Nat) (tw tw' inp inp' out out' : Nat → α) (dir : Direction) (op : MicroOp),
      op ∈ engineOps n ne → (∀ t, t < groups ne → perm t < groups ne) → (∀ i, i < 2 * 2 ^ n → tw' i = tw i) →
      (∀ i, i < 2 * 2 ^ ne → inp' i = inp i ∧ out' i = out i) →
      (∀ i, i < 2 * 2 ^ ne →
        microOp A perm tw' n ne dir inp' out' op i = microOp A perm tw n ne dir inp out op i) ∧
      ∀ i, 2 * 2 ^ ne ≤ i → microOp A perm tw n ne dir inp out op i = out i) ∧
    ∀ (α : Type) (A : Arith α) (perm perm' : Nat → Nat) (rom rom' x x' : Nat → Cplx α) (dir : Direction),
      (∀ t, t < groups ne → perm t < groups ne ∧ perm' t = perm t) → (∀ k, k < 2 ^ n → rom' k = rom k) →
      (∀ m, m < 2 ^ ne → x' m = x m) →
      ∀ i, i < 2 ^ ne → engine A perm' rom' n ne dir x' i = engine A perm rom n ne dir x i

/-- R173: in exact arithmetic with an exact ROM of size `2^n`, the engine of `2^ne <= 2^n` points computes the unnormalised
DFT forward and the unnormalised inverse DFT backward (the sums of R160). -/
def Obligations.EngineComputesDft : Prop :=
  ∀ (n ne : Nat) (perm : Nat → Nat) (rom x : Nat → Cplx ℝ), ne ≤ n → ExactRom n rom → Reverses ne perm →
    ∀ k, k < 2 ^ ne →
      toComplex (engine (exactArith ℝ) perm rom n ne .forward x k) =
        ∑ m ∈ Finset.range (2 ^ ne), toComplex (x m) *
          Complex.exp (-(2 * Real.pi * Complex.I * m * k / 2 ^ ne)) ∧
      toComplex (engine (exactArith ℝ) perm rom n ne .inverse x k) =
        ∑ m ∈ Finset.range (2 ^ ne), toComplex (x m) *
          Complex.exp (2 * Real.pi * Complex.I * m * k / 2 ^ ne)

/-- R173: in exact arithmetic, the inverse network and the scaling after the forward network return the original points. -/
def Obligations.InverseUndoesForward : Prop :=
  ∀ (n : Nat) (perm : Nat → Nat) (rom x : Nat → Cplx ℝ), ExactRom n rom → Reverses n perm →
    ∀ k, k < 2 ^ n →
      scale (exactArith ℝ) n (engine (exactArith ℝ) perm rom n n .inverse
        (engine (exactArith ℝ) perm rom n n .forward x)) k = x k

/-- R208: in exact arithmetic, the half-size engine on the packed samples followed by the unpacker computes bins `0 .. N/2` of
the `N`-point DFT of the real signal. -/
def Obligations.RealPathComputesDft : Prop :=
  ∀ (n : Nat) (perm : Nat → Nat) (rom : Nat → Cplx ℝ) (x : Nat → ℝ), 1 ≤ n → ExactRom n rom → Reverses (n - 1) perm →
    ∀ k, k ≤ 2 ^ n / 2 →
      toComplex (unpack (exactArith ℝ) rom (2 ^ n / 2)
        (engine (exactArith ℝ) perm rom n (n - 1) .forward (pointOf x)) k) =
        ∑ m ∈ Finset.range (2 ^ n), (x m : ℂ) * Complex.exp (-(2 * Real.pi * Complex.I * m * k / 2 ^ n))

/-! ### Host software -/

/-- R233, R234: `toComplexArray` interleaves with `+0.0`, `fromComplexArray` takes the even-indexed words, and the round trip
is the identity. -/
def Obligations.MarshallingRoundTrip : Prop :=
  (∀ x : List Word, fromComplexArray (toComplexArray x) = x ∧ (toComplexArray x).length = 2 * x.length ∧
    ∀ m, m < x.length → (toComplexArray x)[2 * m]? = x[m]? ∧ (toComplexArray x)[2 * m + 1]? = some 0#64) ∧
  ∀ (z : List Word) (l : Nat), z.length = 2 * l → (fromComplexArray z).length = l ∧
    ∀ m, m < l → (fromComplexArray z)[m]? = z[2 * m]?
end

