-- ==== Sys2Proof/Laws/Encoding.lean ====
section
/-! SUPPORT. The encoder's word as a number and its fields read back (R81). -/

namespace Sys2Proof

/-- R81 on numbers: the three fields do not overlap. -/
theorem encodeFields_toNat (opc : Nat) (h : opc < 16) (d s : BufNo) :
    (encodeFields opc d s).toNat = opc + 16 * d.toNat + 256 * s.toNat := by
  have hd := d.isLt
  have hs := s.isLt
  simp only [encodeFields, BitVec.toNat_or, BitVec.toNat_ofNat, BitVec.toNat_shiftLeft, BitVec.toNat_setWidth,
    BitVec.truncate_eq_setWidth, Nat.shiftLeft_eq]
  have e1 : opc % 2 ^ 32 = opc := Nat.mod_eq_of_lt (by omega)
  have e2 : d.toNat % 2 ^ 32 * 2 ^ 4 % 2 ^ 32 = d.toNat <<< 4 := by rw [Nat.shiftLeft_eq]; omega
  have e3 : s.toNat % 2 ^ 32 * 2 ^ 8 % 2 ^ 32 = s.toNat <<< 8 := by rw [Nat.shiftLeft_eq]; omega
  rw [e1, e2, e3, Nat.or_comm opc, ← Nat.shiftLeft_add_eq_or_of_lt (by omega : opc < 2 ^ 4),
    Nat.or_comm, ← Nat.shiftLeft_add_eq_or_of_lt (by rw [Nat.shiftLeft_eq]; omega), Nat.shiftLeft_eq, Nat.shiftLeft_eq]
  omega

/-- The four fields of an encoded word, read back (R81). -/
theorem encodeFields_fields (opc : Nat) (h : opc < 16) (d s : BufNo) :
    rsvField (encodeFields opc d s) = 0 ∧ (opcField (encodeFields opc d s)).toNat = opc ∧
      dstField (encodeFields opc d s) = d ∧ srcField (encodeFields opc d s) = s := by
  have hd := d.isLt
  have hs := s.isLt
  have e := encodeFields_toNat opc h d s
  refine ⟨BitVec.eq_of_toNat_eq ?_, ?_, BitVec.eq_of_toNat_eq ?_, BitVec.eq_of_toNat_eq ?_⟩ <;>
    simp [rsvField, opcField, dstField, srcField, BitVec.extractLsb'_toNat, e, Nat.shiftRight_eq_div_pow] <;> omega

end Sys2Proof
end

