-- ==== Sys2Proof/Laws/State.lean ====
section
/-! SUPPORT. One lemma for each field and each update of the state, and the sizes an update leaves alone. -/

namespace Sys2Proof.Machine

@[simp] theorem endCommand_id (c : BitVec 4) (s : State) : (endCommand c s).id = s.id := rfl
@[simp] theorem endCommand_cfg (c : BitVec 4) (s : State) : (endCommand c s).cfg = s.cfg := rfl
@[simp] theorem endCommand_cmd (c : BitVec 4) (s : State) : (endCommand c s).cmd = s.cmd := rfl
@[simp] theorem endCommand_status (c : BitVec 4) (s : State) : (endCommand c s).status = putStatus s.status false true c := rfl
@[simp] theorem endCommand_tw (c : BitVec 4) (s : State) : (endCommand c s).tw = s.tw := rfl
@[simp] theorem endCommand_br (c : BitVec 4) (s : State) : (endCommand c s).br = s.br := rfl
@[simp] theorem endCommand_mem (c : BitVec 4) (s : State) : (endCommand c s).mem = s.mem := rfl
@[simp] theorem endCommand_rm (c : BitVec 4) (s : State) : (endCommand c s).rm = s.rm := rfl
@[simp] theorem endCommand_draws (c : BitVec 4) (s : State) : (endCommand c s).draws = s.draws := rfl
@[simp] theorem endCommand_turns (c : BitVec 4) (s : State) : (endCommand c s).turns = s.turns := rfl
@[simp] theorem endCommand_replies (c : BitVec 4) (s : State) : (endCommand c s).replies = s.replies := rfl
@[simp] theorem endCommand_logN (c : BitVec 4) (s : State) : (endCommand c s).logN = s.logN := rfl
@[simp] theorem endCommand_size (c : BitVec 4) (s : State) : (endCommand c s).size = s.size := rfl
@[simp] theorem endCommand_nbuf (c : BitVec 4) (s : State) : (endCommand c s).nbuf = s.nbuf := rfl
@[simp] theorem endCommand_wordAddr (c : BitVec 4) (s : State) (b i : Nat) : wordAddr (endCommand c s) b i = wordAddr s b i := rfl

@[simp] theorem complete_id (s : State) : (complete s).id = s.id := rfl
@[simp] theorem complete_cfg (s : State) : (complete s).cfg = s.cfg := rfl
@[simp] theorem complete_cmd (s : State) : (complete s).cmd = s.cmd := rfl
@[simp] theorem complete_status (s : State) : (complete s).status = putStatus s.status false true 0 := rfl
@[simp] theorem complete_tw (s : State) : (complete s).tw = s.tw := rfl
@[simp] theorem complete_br (s : State) : (complete s).br = s.br := rfl
@[simp] theorem complete_mem (s : State) : (complete s).mem = s.mem := rfl
@[simp] theorem complete_rm (s : State) : (complete s).rm = s.rm := rfl
@[simp] theorem complete_draws (s : State) : (complete s).draws = s.draws := rfl
@[simp] theorem complete_turns (s : State) : (complete s).turns = s.turns := rfl
@[simp] theorem complete_replies (s : State) : (complete s).replies = s.replies := rfl
@[simp] theorem complete_logN (s : State) : (complete s).logN = s.logN := rfl
@[simp] theorem complete_size (s : State) : (complete s).size = s.size := rfl
@[simp] theorem complete_nbuf (s : State) : (complete s).nbuf = s.nbuf := rfl
@[simp] theorem complete_wordAddr (s : State) (b i : Nat) : wordAddr (complete s) b i = wordAddr s b i := rfl

@[simp] theorem raise_id (f : CommandFault) (s : State) : (raise f s).id = s.id := rfl
@[simp] theorem raise_cfg (f : CommandFault) (s : State) : (raise f s).cfg = s.cfg := rfl
@[simp] theorem raise_cmd (f : CommandFault) (s : State) : (raise f s).cmd = s.cmd := rfl
@[simp] theorem raise_status (f : CommandFault) (s : State) : (raise f s).status = putStatus s.status false true (faultCode f) := rfl
@[simp] theorem raise_tw (f : CommandFault) (s : State) : (raise f s).tw = s.tw := rfl
@[simp] theorem raise_br (f : CommandFault) (s : State) : (raise f s).br = s.br := rfl
@[simp] theorem raise_mem (f : CommandFault) (s : State) : (raise f s).mem = s.mem := rfl
@[simp] theorem raise_rm (f : CommandFault) (s : State) : (raise f s).rm = s.rm := rfl
@[simp] theorem raise_draws (f : CommandFault) (s : State) : (raise f s).draws = s.draws := rfl
@[simp] theorem raise_turns (f : CommandFault) (s : State) : (raise f s).turns = s.turns := rfl
@[simp] theorem raise_replies (f : CommandFault) (s : State) : (raise f s).replies = s.replies := rfl
@[simp] theorem raise_logN (f : CommandFault) (s : State) : (raise f s).logN = s.logN := rfl
@[simp] theorem raise_size (f : CommandFault) (s : State) : (raise f s).size = s.size := rfl
@[simp] theorem raise_nbuf (f : CommandFault) (s : State) : (raise f s).nbuf = s.nbuf := rfl
@[simp] theorem raise_wordAddr (f : CommandFault) (s : State) (b i : Nat) : wordAddr (raise f s) b i = wordAddr s b i := rfl

@[simp] theorem issue_id (w : Reg) (s : State) : (issue w s).id = s.id := rfl
@[simp] theorem issue_cfg (w : Reg) (s : State) : (issue w s).cfg = s.cfg := rfl
@[simp] theorem issue_cmd (w : Reg) (s : State) : (issue w s).cmd = w := rfl
@[simp] theorem issue_status (w : Reg) (s : State) : (issue w s).status = putStatus s.status true false 0 := rfl
@[simp] theorem issue_tw (w : Reg) (s : State) : (issue w s).tw = s.tw := rfl
@[simp] theorem issue_br (w : Reg) (s : State) : (issue w s).br = s.br := rfl
@[simp] theorem issue_mem (w : Reg) (s : State) : (issue w s).mem = s.mem := rfl
@[simp] theorem issue_rm (w : Reg) (s : State) : (issue w s).rm = s.rm := rfl
@[simp] theorem issue_draws (w : Reg) (s : State) : (issue w s).draws = s.draws := rfl
@[simp] theorem issue_turns (w : Reg) (s : State) : (issue w s).turns = s.turns := rfl
@[simp] theorem issue_replies (w : Reg) (s : State) : (issue w s).replies = s.replies := rfl
@[simp] theorem issue_logN (w : Reg) (s : State) : (issue w s).logN = s.logN := rfl
@[simp] theorem issue_size (w : Reg) (s : State) : (issue w s).size = s.size := rfl
@[simp] theorem issue_nbuf (w : Reg) (s : State) : (issue w s).nbuf = s.nbuf := rfl
@[simp] theorem issue_wordAddr (w : Reg) (s : State) (b i : Nat) : wordAddr (issue w s) b i = wordAddr s b i := rfl

@[simp] theorem blockReset_id (s : State) : (blockReset s).id = s.id := rfl
@[simp] theorem blockReset_cfg (s : State) : (blockReset s).cfg = s.cfg := rfl
@[simp] theorem blockReset_cmd (s : State) : (blockReset s).cmd = 0#32 := rfl
@[simp] theorem blockReset_status (s : State) : (blockReset s).status = 0#32 := rfl
@[simp] theorem blockReset_tw (s : State) : (blockReset s).tw = s.tw := rfl
@[simp] theorem blockReset_br (s : State) : (blockReset s).br = s.br := rfl
@[simp] theorem blockReset_mem (s : State) : (blockReset s).mem = [] := rfl
@[simp] theorem blockReset_rm (s : State) : (blockReset s).rm = s.rm := rfl
@[simp] theorem blockReset_draws (s : State) : (blockReset s).draws = s.draws := rfl
@[simp] theorem blockReset_turns (s : State) : (blockReset s).turns = s.turns := rfl
@[simp] theorem blockReset_replies (s : State) : (blockReset s).replies = s.replies := rfl
@[simp] theorem blockReset_logN (s : State) : (blockReset s).logN = s.logN := rfl
@[simp] theorem blockReset_size (s : State) : (blockReset s).size = s.size := rfl
@[simp] theorem blockReset_nbuf (s : State) : (blockReset s).nbuf = s.nbuf := rfl
@[simp] theorem blockReset_wordAddr (s : State) (b i : Nat) : wordAddr (blockReset s) b i = wordAddr s b i := rfl

@[simp] theorem addReply_id (r : Reply) (s : State) : (addReply r s).id = s.id := rfl
@[simp] theorem addReply_cfg (r : Reply) (s : State) : (addReply r s).cfg = s.cfg := rfl
@[simp] theorem addReply_cmd (r : Reply) (s : State) : (addReply r s).cmd = s.cmd := rfl
@[simp] theorem addReply_status (r : Reply) (s : State) : (addReply r s).status = s.status := rfl
@[simp] theorem addReply_tw (r : Reply) (s : State) : (addReply r s).tw = s.tw := rfl
@[simp] theorem addReply_br (r : Reply) (s : State) : (addReply r s).br = s.br := rfl
@[simp] theorem addReply_mem (r : Reply) (s : State) : (addReply r s).mem = s.mem := rfl
@[simp] theorem addReply_rm (r : Reply) (s : State) : (addReply r s).rm = s.rm := rfl
@[simp] theorem addReply_draws (r : Reply) (s : State) : (addReply r s).draws = s.draws := rfl
@[simp] theorem addReply_turns (r : Reply) (s : State) : (addReply r s).turns = s.turns := rfl
@[simp] theorem addReply_replies (r : Reply) (s : State) : (addReply r s).replies = r :: s.replies := rfl
@[simp] theorem addReply_logN (r : Reply) (s : State) : (addReply r s).logN = s.logN := rfl
@[simp] theorem addReply_size (r : Reply) (s : State) : (addReply r s).size = s.size := rfl
@[simp] theorem addReply_nbuf (r : Reply) (s : State) : (addReply r s).nbuf = s.nbuf := rfl
@[simp] theorem addReply_wordAddr (r : Reply) (s : State) (b i : Nat) : wordAddr (addReply r s) b i = wordAddr s b i := rfl

@[simp] theorem writeBuf_id (b : BufNo) (i : Nat) (ws : List Word) (s : State) : (writeBuf b i ws s).id = s.id := rfl
@[simp] theorem writeBuf_cfg (b : BufNo) (i : Nat) (ws : List Word) (s : State) : (writeBuf b i ws s).cfg = s.cfg := rfl
@[simp] theorem writeBuf_cmd (b : BufNo) (i : Nat) (ws : List Word) (s : State) : (writeBuf b i ws s).cmd = s.cmd := rfl
@[simp] theorem writeBuf_status (b : BufNo) (i : Nat) (ws : List Word) (s : State) : (writeBuf b i ws s).status = s.status := rfl
@[simp] theorem writeBuf_tw (b : BufNo) (i : Nat) (ws : List Word) (s : State) : (writeBuf b i ws s).tw = s.tw := rfl
@[simp] theorem writeBuf_br (b : BufNo) (i : Nat) (ws : List Word) (s : State) : (writeBuf b i ws s).br = s.br := rfl
@[simp] theorem writeBuf_mem (b : BufNo) (i : Nat) (ws : List Word) (s : State) : (writeBuf b i ws s).mem = writeWords (wordAddr s b.toNat i) ws s.mem := rfl
@[simp] theorem writeBuf_rm (b : BufNo) (i : Nat) (ws : List Word) (s : State) : (writeBuf b i ws s).rm = s.rm := rfl
@[simp] theorem writeBuf_draws (b : BufNo) (i : Nat) (ws : List Word) (s : State) : (writeBuf b i ws s).draws = s.draws := rfl
@[simp] theorem writeBuf_turns (b : BufNo) (i : Nat) (ws : List Word) (s : State) : (writeBuf b i ws s).turns = s.turns := rfl
@[simp] theorem writeBuf_replies (b : BufNo) (i : Nat) (ws : List Word) (s : State) : (writeBuf b i ws s).replies = s.replies := rfl
@[simp] theorem writeBuf_logN (b : BufNo) (i : Nat) (ws : List Word) (s : State) : (writeBuf b i ws s).logN = s.logN := rfl
@[simp] theorem writeBuf_size (b : BufNo) (i : Nat) (ws : List Word) (s : State) : (writeBuf b i ws s).size = s.size := rfl
@[simp] theorem writeBuf_nbuf (b : BufNo) (i : Nat) (ws : List Word) (s : State) : (writeBuf b i ws s).nbuf = s.nbuf := rfl
@[simp] theorem writeBuf_wordAddr (b : BufNo) (i : Nat) (ws : List Word) (s : State) (b' i' : Nat) : wordAddr (writeBuf b i ws s) b' i' = wordAddr s b' i' := rfl

@[simp] theorem storeResults_id (b : BufNo) (vs : List F64) (s : State) : (storeResults b vs s).id = s.id := rfl
@[simp] theorem storeResults_cfg (b : BufNo) (vs : List F64) (s : State) : (storeResults b vs s).cfg = s.cfg := rfl
@[simp] theorem storeResults_cmd (b : BufNo) (vs : List F64) (s : State) : (storeResults b vs s).cmd = s.cmd := rfl
@[simp] theorem storeResults_status (b : BufNo) (vs : List F64) (s : State) : (storeResults b vs s).status = s.status := rfl
@[simp] theorem storeResults_tw (b : BufNo) (vs : List F64) (s : State) : (storeResults b vs s).tw = s.tw := rfl
@[simp] theorem storeResults_br (b : BufNo) (vs : List F64) (s : State) : (storeResults b vs s).br = s.br := rfl
@[simp] theorem storeResults_mem (b : BufNo) (vs : List F64) (s : State) : (storeResults b vs s).mem = writeWords (wordAddr s b.toNat 0) (patterns s.draws vs) s.mem := rfl
@[simp] theorem storeResults_rm (b : BufNo) (vs : List F64) (s : State) : (storeResults b vs s).rm = s.rm := rfl
@[simp] theorem storeResults_draws (b : BufNo) (vs : List F64) (s : State) : (storeResults b vs s).draws = s.draws + vs.length := rfl
@[simp] theorem storeResults_turns (b : BufNo) (vs : List F64) (s : State) : (storeResults b vs s).turns = s.turns := rfl
@[simp] theorem storeResults_replies (b : BufNo) (vs : List F64) (s : State) : (storeResults b vs s).replies = s.replies := rfl
@[simp] theorem storeResults_logN (b : BufNo) (vs : List F64) (s : State) : (storeResults b vs s).logN = s.logN := rfl
@[simp] theorem storeResults_size (b : BufNo) (vs : List F64) (s : State) : (storeResults b vs s).size = s.size := rfl
@[simp] theorem storeResults_nbuf (b : BufNo) (vs : List F64) (s : State) : (storeResults b vs s).nbuf = s.nbuf := rfl
@[simp] theorem storeResults_wordAddr (b : BufNo) (vs : List F64) (s : State) (b' i' : Nat) : wordAddr (storeResults b vs s) b' i' = wordAddr s b' i' := rfl

@[simp] theorem popTurn_id (s : State) : (popTurn s).id = s.id := rfl
@[simp] theorem popTurn_cfg (s : State) : (popTurn s).cfg = s.cfg := rfl
@[simp] theorem popTurn_cmd (s : State) : (popTurn s).cmd = s.cmd := rfl
@[simp] theorem popTurn_status (s : State) : (popTurn s).status = s.status := rfl
@[simp] theorem popTurn_tw (s : State) : (popTurn s).tw = s.tw := rfl
@[simp] theorem popTurn_br (s : State) : (popTurn s).br = s.br := rfl
@[simp] theorem popTurn_mem (s : State) : (popTurn s).mem = s.mem := rfl
@[simp] theorem popTurn_rm (s : State) : (popTurn s).rm = s.rm := rfl
@[simp] theorem popTurn_draws (s : State) : (popTurn s).draws = s.draws := rfl
@[simp] theorem popTurn_turns (s : State) : (popTurn s).turns = s.turns.tail := rfl
@[simp] theorem popTurn_replies (s : State) : (popTurn s).replies = s.replies := rfl
@[simp] theorem popTurn_logN (s : State) : (popTurn s).logN = s.logN := rfl
@[simp] theorem popTurn_size (s : State) : (popTurn s).size = s.size := rfl
@[simp] theorem popTurn_nbuf (s : State) : (popTurn s).nbuf = s.nbuf := rfl
@[simp] theorem popTurn_wordAddr (s : State) (b i : Nat) : wordAddr (popTurn s) b i = wordAddr s b i := rfl

@[simp] theorem placeCommand_id (w : Reg) (s : State) : (placeCommand w s).id = s.id := rfl
@[simp] theorem placeCommand_cfg (w : Reg) (s : State) : (placeCommand w s).cfg = s.cfg := rfl
@[simp] theorem placeCommand_cmd (w : Reg) (s : State) : (placeCommand w s).cmd = w := rfl
@[simp] theorem placeCommand_status (w : Reg) (s : State) : (placeCommand w s).status = putStatus s.status true false 0 := rfl
@[simp] theorem placeCommand_tw (w : Reg) (s : State) : (placeCommand w s).tw = s.tw := rfl
@[simp] theorem placeCommand_br (w : Reg) (s : State) : (placeCommand w s).br = s.br := rfl
@[simp] theorem placeCommand_mem (w : Reg) (s : State) : (placeCommand w s).mem = s.mem := rfl
@[simp] theorem placeCommand_rm (w : Reg) (s : State) : (placeCommand w s).rm = s.rm := rfl
@[simp] theorem placeCommand_draws (w : Reg) (s : State) : (placeCommand w s).draws = s.draws := rfl
@[simp] theorem placeCommand_turns (w : Reg) (s : State) : (placeCommand w s).turns = .engine :: s.turns := rfl
@[simp] theorem placeCommand_replies (w : Reg) (s : State) : (placeCommand w s).replies = s.replies := rfl
@[simp] theorem placeCommand_logN (w : Reg) (s : State) : (placeCommand w s).logN = s.logN := rfl
@[simp] theorem placeCommand_size (w : Reg) (s : State) : (placeCommand w s).size = s.size := rfl
@[simp] theorem placeCommand_nbuf (w : Reg) (s : State) : (placeCommand w s).nbuf = s.nbuf := rfl
@[simp] theorem placeCommand_wordAddr (w : Reg) (s : State) (b i : Nat) : wordAddr (placeCommand w s) b i = wordAddr s b i := rfl

@[simp] theorem awaitReply_id (s : State) : (awaitReply s).id = s.id := rfl
@[simp] theorem awaitReply_cfg (s : State) : (awaitReply s).cfg = s.cfg := rfl
@[simp] theorem awaitReply_cmd (s : State) : (awaitReply s).cmd = s.cmd := rfl
@[simp] theorem awaitReply_status (s : State) : (awaitReply s).status = s.status := rfl
@[simp] theorem awaitReply_tw (s : State) : (awaitReply s).tw = s.tw := rfl
@[simp] theorem awaitReply_br (s : State) : (awaitReply s).br = s.br := rfl
@[simp] theorem awaitReply_mem (s : State) : (awaitReply s).mem = s.mem := rfl
@[simp] theorem awaitReply_rm (s : State) : (awaitReply s).rm = s.rm := rfl
@[simp] theorem awaitReply_draws (s : State) : (awaitReply s).draws = s.draws := rfl
@[simp] theorem awaitReply_turns (s : State) : (awaitReply s).turns = s.turns := rfl
@[simp] theorem awaitReply_replies (s : State) : (awaitReply s).replies = .reg s.status :: s.replies := rfl
@[simp] theorem awaitReply_logN (s : State) : (awaitReply s).logN = s.logN := rfl
@[simp] theorem awaitReply_size (s : State) : (awaitReply s).size = s.size := rfl
@[simp] theorem awaitReply_nbuf (s : State) : (awaitReply s).nbuf = s.nbuf := rfl
@[simp] theorem awaitReply_wordAddr (s : State) (b i : Nat) : wordAddr (awaitReply s) b i = wordAddr s b i := rfl

@[simp] theorem ofContext_mem (c : Context) (nb : Nat) (rm : RoundingMode) : (State.ofContext c nb rm).mem = [] := rfl
@[simp] theorem ofContext_id (c : Context) (nb : Nat) (rm : RoundingMode) : (State.ofContext c nb rm).id = 0x46465401#32 := rfl
@[simp] theorem ofContext_cfg (c : Context) (nb : Nat) (rm : RoundingMode) : (State.ofContext c nb rm).cfg = cfgValue c.logN nb := rfl
@[simp] theorem ofContext_cmd (c : Context) (nb : Nat) (rm : RoundingMode) : (State.ofContext c nb rm).cmd = 0#32 := rfl
@[simp] theorem ofContext_status (c : Context) (nb : Nat) (rm : RoundingMode) : (State.ofContext c nb rm).status = 0#32 := rfl
@[simp] theorem ofContext_tw (c : Context) (nb : Nat) (rm : RoundingMode) : (State.ofContext c nb rm).tw = c.tw := rfl
@[simp] theorem ofContext_br (c : Context) (nb : Nat) (rm : RoundingMode) : (State.ofContext c nb rm).br = c.br := rfl
@[simp] theorem ofContext_rm (c : Context) (nb : Nat) (rm : RoundingMode) : (State.ofContext c nb rm).rm = rm := rfl
@[simp] theorem ofContext_draws (c : Context) (nb : Nat) (rm : RoundingMode) : (State.ofContext c nb rm).draws = 0 := rfl
@[simp] theorem ofContext_turns (c : Context) (nb : Nat) (rm : RoundingMode) : (State.ofContext c nb rm).turns = [] := rfl
@[simp] theorem ofContext_replies (c : Context) (nb : Nat) (rm : RoundingMode) : (State.ofContext c nb rm).replies = [] := rfl

/-- `stopIfFaulted` touches the turns only. -/
theorem stopIfFaulted_eq (s : State) : ∃ l, stopIfFaulted s = { s with turns := l } := by
  unfold stopIfFaulted
  split
  · exact ⟨s.turns, rfl⟩
  · exact ⟨[], rfl⟩

end Sys2Proof.Machine
end

