-- ==== Sys2Proof/Laws/Flags.lean ====
section
/-! SUPPORT. The fields of `STATUS` after an update. -/

namespace Sys2Proof.Machine

/-- A bit of an updated `STATUS`. -/
theorem getLsbD_putStatus (st : Reg) (b d : Bool) (e : BitVec 4) (i : Nat) :
    (putStatus st b d e).getLsbD i =
      if i = 0 then b else if i = 1 then d else if i < 4 then st.getLsbD i
      else if i < 8 then e.getLsbD (i - 4) else st.getLsbD i := by
  unfold putStatus
  simp only [BitVec.getLsbD_append, BitVec.getLsbD_ofBool, BitVec.getLsbD_extractLsb']
  rcases i with _ | _ | _ | _ | i
  · simp
  · simp
  · simp
  · simp
  · by_cases h : i < 4
    · simp only [show ¬(i + 4 = 0) by omega, show ¬(i + 4 = 1) by omega, show ¬(i + 4 < 4) by omega,
        show i + 4 < 8 by omega, if_true, if_false]
      rw [if_neg (by omega), if_neg (by omega), if_neg (by omega), if_pos (by omega)]
      congr 1
    · simp only [show ¬(i + 4 = 0) by omega, show ¬(i + 4 = 1) by omega, show ¬(i + 4 < 4) by omega,
        show ¬(i + 4 < 8) by omega, if_false]
      rw [if_neg (by omega), if_neg (by omega), if_neg (by omega), if_neg (by omega)]
      by_cases h32 : i + 4 < 32
      · simp only [show i + 4 - 1 - 1 - 2 - 4 < 24 by omega, decide_true, Bool.true_and]
        congr 1; omega
      · simp only [show ¬(i + 4 - 1 - 1 - 2 - 4 < 24) by omega, decide_false, Bool.false_and]
        exact (BitVec.getLsbD_of_ge st _ (by omega)).symm

@[simp] theorem busyBit_putStatus (st : Reg) (b d : Bool) (e : BitVec 4) : busyBit (putStatus st b d e) = b := by
  rw [busyBit, getLsbD_putStatus]; rfl

@[simp] theorem doneBit_putStatus (st : Reg) (b d : Bool) (e : BitVec 4) : doneBit (putStatus st b d e) = d := by
  rw [doneBit, getLsbD_putStatus]; rfl

@[simp] theorem errField_putStatus (st : Reg) (b d : Bool) (e : BitVec 4) : errField (putStatus st b d e) = e := by
  ext i hi
  simp only [errField, BitVec.getElem_extractLsb', getLsbD_putStatus]
  rw [if_neg (by omega), if_neg (by omega), if_neg (by omega), if_pos (by omega)]
  rw [BitVec.getLsbD_eq_getElem (by omega)]
  congr 1; omega

@[simp] theorem endCommand_busy (c : BitVec 4) (s : State) : (endCommand c s).busy = false := busyBit_putStatus ..
@[simp] theorem endCommand_done (c : BitVec 4) (s : State) : (endCommand c s).done = true := doneBit_putStatus ..
@[simp] theorem endCommand_errCode (c : BitVec 4) (s : State) : (endCommand c s).errCode = c := errField_putStatus ..
@[simp] theorem complete_busy (s : State) : (complete s).busy = false := endCommand_busy ..
@[simp] theorem complete_done (s : State) : (complete s).done = true := endCommand_done ..
@[simp] theorem complete_errCode (s : State) : (complete s).errCode = 0 := endCommand_errCode ..
@[simp] theorem raise_busy (f : CommandFault) (s : State) : (raise f s).busy = false := endCommand_busy ..
@[simp] theorem raise_done (f : CommandFault) (s : State) : (raise f s).done = true := endCommand_done ..
@[simp] theorem raise_errCode (f : CommandFault) (s : State) : (raise f s).errCode = faultCode f := endCommand_errCode ..
@[simp] theorem issue_busy (w : Reg) (s : State) : (issue w s).busy = true := busyBit_putStatus ..
@[simp] theorem issue_done (w : Reg) (s : State) : (issue w s).done = false := doneBit_putStatus ..
@[simp] theorem issue_errCode (w : Reg) (s : State) : (issue w s).errCode = 0 := errField_putStatus ..

/-- The end of a command, from a reachable `STATUS`, gives a reachable `STATUS` (R32). -/
theorem putStatus_end_mem {st : Reg} (h : st ∈ statusValues) (f : Option CommandFault) :
    putStatus st false true (f.elim 0 faultCode) ∈ statusValues := by
  simp only [statusValues, List.mem_cons, List.not_mem_nil, or_false] at h
  rcases h with rfl | rfl | rfl | rfl | rfl <;> rcases f with _ | _ | _ <;> decide

/-- An issue, from a reachable `STATUS`, gives `0x01` (R31, R32). -/
theorem putStatus_issue {st : Reg} (h : st ∈ statusValues) : putStatus st true false 0 = 0x01#32 := by
  simp only [statusValues, List.mem_cons, List.not_mem_nil, or_false] at h
  rcases h with rfl | rfl | rfl | rfl | rfl <;> decide

end Sys2Proof.Machine
end

