-- ==== Sys2Proof/Laws/Memory.lean ====
section
/-! SUPPORT. Reads and writes of the buffer file: a read after a write gives the value written, a write leaves every
other place alone, and every memory operation keeps the canonical form. -/

namespace Sys2Proof.Machine

theorem readByte_writeByte (a : Nat) (v : BitVec 8) (m : Memory) (b : Nat) :
    readByte (writeByte a v m) b = if b = a then some v else readByte m b := by
  induction m with
  | nil => simp [writeByte, readByte]
  | cons c m ih =>
    obtain ⟨k, w⟩ := c
    simp only [writeByte]
    split
    · simp [readByte]
    · split
      · subst k; simp only [readByte]; split <;> simp_all
      · simp only [readByte, ih]
        split
        · have : b ≠ a := by omega
          simp [this]
        · rfl

theorem mem_writeByte {a : Nat} {v : BitVec 8} {m : Memory} {c : Host.Cell} (h : c ∈ writeByte a v m) :
    c = (a, v) ∨ c ∈ m := by
  induction m with
  | nil => simpa [writeByte] using h
  | cons d m ih =>
    obtain ⟨k, w⟩ := d
    simp only [writeByte] at h
    split at h
    · simpa using h
    · split at h
      · simp only [List.mem_cons] at h ⊢; tauto
      · simp only [List.mem_cons] at h ⊢
        rcases h with h | h
        · tauto
        · rcases ih h with h | h <;> tauto

theorem writeByte_wf (a : Nat) (v : BitVec 8) {m : Memory} (h : Memory.wf m) : Memory.wf (writeByte a v m) := by
  induction m with
  | nil => simp [writeByte, Memory.wf]
  | cons c m ih =>
    obtain ⟨k, w⟩ := c
    simp only [Memory.wf, List.pairwise_cons] at h ih
    simp only [writeByte]
    split
    · simp only [Memory.wf, List.pairwise_cons]
      refine ⟨?_, h⟩
      intro c hc
      rcases List.mem_cons.1 hc with rfl | hc
      · assumption
      · have := h.1 c hc; omega
    · split
      · simp only [Memory.wf, List.pairwise_cons]
        exact ⟨fun c hc => by have := h.1 c hc; omega, h.2⟩
      · simp only [Memory.wf, List.pairwise_cons]
        refine ⟨fun c hc => ?_, ih h.2⟩
        rcases mem_writeByte hc with rfl | hc
        · omega
        · exact h.1 c hc

/-- What memory holds after the low `j` bytes of a word are written. -/
theorem readByte_writeBytes (a : Nat) (v : Word) (j : Nat) (m : Memory) (b : Nat) :
    readByte (writeBytes a v j m) b = if a ≤ b ∧ b < a + j then some (byteOf v (b - a)) else readByte m b := by
  induction j generalizing m with
  | zero => simp only [writeBytes]; split <;> [omega; rfl]
  | succ j ih =>
    simp only [writeBytes, ih, readByte_writeByte]
    by_cases h : b = a + j
    · subst h; simp
    · by_cases h2 : a ≤ b ∧ b < a + j
      · have : a ≤ b ∧ b < a + (j + 1) := by omega
        simp [h2, this]
      · have : ¬(a ≤ b ∧ b < a + (j + 1)) := by omega
        simp [h2, this, h]

theorem readByte_writeWord (a : Nat) (v : Word) (m : Memory) (b : Nat) :
    readByte (writeWord a v m) b = if a ≤ b ∧ b < a + 8 then some (byteOf v (b - a)) else readByte m b :=
  readByte_writeBytes a v 8 m b

/-- The bytes of a word, put together again, are the word. -/
theorem bytes_of_word (v : Word) :
    (byteOf v 7 ++ byteOf v 6 ++ byteOf v 5 ++ byteOf v 4 ++ byteOf v 3 ++ byteOf v 2 ++ byteOf v 1 ++ byteOf v 0 : Word) = v := by
  ext i hi
  simp only [BitVec.getElem_append, byteOf, BitVec.getElem_extractLsb']
  split
  · rw [BitVec.getLsbD_eq_getElem (by omega)]; congr 1; omega
  split
  · rw [BitVec.getLsbD_eq_getElem (by omega)]; congr 1; omega
  split
  · rw [BitVec.getLsbD_eq_getElem (by omega)]; congr 1; omega
  split
  · rw [BitVec.getLsbD_eq_getElem (by omega)]; congr 1; omega
  split
  · rw [BitVec.getLsbD_eq_getElem (by omega)]; congr 1; omega
  split
  · rw [BitVec.getLsbD_eq_getElem (by omega)]; congr 1; omega
  split
  · rw [BitVec.getLsbD_eq_getElem (by omega)]; congr 1; omega
  · rw [BitVec.getLsbD_eq_getElem (by omega)]; congr 1; omega

/-- A word reads as one word exactly when all its bytes are written. -/
theorem readWord_congr {m m' : Memory} {a : Nat} (h : ∀ b, a ≤ b → b < a + 8 → readByte m b = readByte m' b) :
    readWord m a = readWord m' a := by
  unfold readWord
  rw [h a (by omega) (by omega), h (a + 1) (by omega) (by omega), h (a + 2) (by omega) (by omega),
    h (a + 3) (by omega) (by omega), h (a + 4) (by omega) (by omega), h (a + 5) (by omega) (by omega),
    h (a + 6) (by omega) (by omega), h (a + 7) (by omega) (by omega)]

theorem readWord_writeWord_same (a : Nat) (v : Word) (m : Memory) : readWord (writeWord a v m) a = some v := by
  have e : ∀ j, j < 8 → readByte (writeWord a v m) (a + j) = some (byteOf v j) := by
    intro j hj
    rw [readByte_writeWord, if_pos (by omega)]
    congr 2; omega
  unfold readWord
  rw [show readByte (writeWord a v m) a = some (byteOf v 0) from e 0 (by omega), e 1 (by omega), e 2 (by omega),
    e 3 (by omega), e 4 (by omega), e 5 (by omega), e 6 (by omega), e 7 (by omega)]
  exact congrArg some (bytes_of_word v)

theorem readWord_writeWord_other {a b : Nat} (v : Word) (m : Memory) (h : b + 8 ≤ a ∨ a + 8 ≤ b) :
    readWord (writeWord a v m) b = readWord m b := by
  apply readWord_congr
  intro c h1 h2
  rw [readByte_writeWord, if_neg (by omega)]

theorem readByte_writeWords_outside (ws : List Word) (a : Nat) (m : Memory) {b : Nat}
    (h : b < a ∨ a + 8 * ws.length ≤ b) : readByte (writeWords a ws m) b = readByte m b := by
  induction ws generalizing a m with
  | nil => rfl
  | cons w ws ih =>
    simp only [List.length_cons] at h
    rw [writeWords, ih _ _ (by omega), readByte_writeWord, if_neg (by omega)]

theorem readWord_writeWords_outside (ws : List Word) (a : Nat) (m : Memory) {b : Nat}
    (h : b + 8 ≤ a ∨ a + 8 * ws.length ≤ b) : readWord (writeWords a ws m) b = readWord m b := by
  apply readWord_congr
  intro c h1 h2
  exact readByte_writeWords_outside _ _ _ (by omega)

theorem readWord_writeWords (ws : List Word) (a : Nat) (m : Memory) {i : Nat} (h : i < ws.length) :
    readWord (writeWords a ws m) (a + 8 * i) = some ws[i] := by
  induction ws generalizing a m i with
  | nil => simp at h
  | cons w ws ih =>
    rw [writeWords]
    cases i with
    | zero =>
      rw [Nat.mul_zero, readWord_writeWords_outside _ _ _ (by omega), Nat.add_zero, readWord_writeWord_same]
      rfl
    | succ i =>
      have := ih (a + 8) (writeWord a w m) (i := i) (by simpa using h)
      rw [show a + 8 * (i + 1) = a + 8 + 8 * i by omega, this]
      rfl

/-- Reading `k` consecutive words succeeds exactly with the list of the words read one by one. -/
theorem readWords_eq_some {m : Memory} {a k : Nat} {ws : List Word} :
    readWords m a k = some ws ↔ ws.length = k ∧ ∀ i, i < k → readWord m (a + 8 * i) = ws[i]? := by
  induction k generalizing a ws with
  | zero => cases ws <;> simp [readWords]
  | succ k ih =>
    constructor
    · intro h
      rw [readWords] at h
      split at h
      · rename_i w ws' hw hws
        cases h
        obtain ⟨hl, hi⟩ := ih.1 hws
        refine ⟨by simp [hl], ?_⟩
        intro i hik
        cases i with
        | zero => simpa using hw
        | succ i =>
          have := hi i (by omega)
          rw [show a + 8 * (i + 1) = a + 8 + 8 * i by omega, this]
          rfl
      · cases h
    · rintro ⟨hl, hi⟩
      cases ws with
      | nil => simp at hl
      | cons w ws =>
        have h0 := hi 0 (by omega)
        have h1 : readWords m (a + 8) k = some ws := ih.2 ⟨by simpa using hl, fun i hik => by
          have := hi (i + 1) (by omega)
          rw [show a + 8 * (i + 1) = a + 8 + 8 * i by omega] at this
          simpa using this⟩
        rw [readWords, h1, show readWord m a = some w by simpa using h0]

/-- Reading `k` consecutive words fails exactly when one of them has not been written. -/
theorem readWords_eq_none {m : Memory} {a k : Nat} :
    readWords m a k = none ↔ ∃ i, i < k ∧ readWord m (a + 8 * i) = none := by
  induction k generalizing a with
  | zero => simp [readWords]
  | succ k ih =>
    rw [readWords]
    constructor
    · intro h
      split at h
      · cases h
      · rename_i hn
        by_cases h0 : readWord m a = none
        · exact ⟨0, by omega, by simpa using h0⟩
        · obtain ⟨w, hw⟩ := Option.ne_none_iff_exists'.1 h0
          have : readWords m (a + 8) k = none := by
            cases hr : readWords m (a + 8) k with
            | none => rfl
            | some ws => exact absurd hr (hn w ws hw)
          obtain ⟨i, hi, hr⟩ := ih.1 this
          exact ⟨i + 1, by omega, by rw [show a + 8 * (i + 1) = a + 8 + 8 * i by omega]; exact hr⟩
    · rintro ⟨i, hi, hr⟩
      cases i with
      | zero => rw [show readWord m a = none by simpa using hr]
      | succ i =>
        have : readWords m (a + 8) k = none :=
          ih.2 ⟨i, by omega, by rw [show a + 8 + 8 * i = a + 8 * (i + 1) by omega]; exact hr⟩
        rw [this]
        cases readWord m a <;> rfl

theorem writeBytes_wf (a : Nat) (v : Word) (j : Nat) {m : Memory} (h : Memory.wf m) :
    Memory.wf (writeBytes a v j m) := by
  induction j generalizing m with
  | zero => exact h
  | succ j ih => exact ih (writeByte_wf _ _ h)

theorem writeWord_wf (a : Nat) (v : Word) {m : Memory} (h : Memory.wf m) : Memory.wf (writeWord a v m) :=
  writeBytes_wf a v 8 h

theorem writeWords_wf (a : Nat) (ws : List Word) {m : Memory} (h : Memory.wf m) : Memory.wf (writeWords a ws m) := by
  induction ws generalizing a m with
  | nil => exact h
  | cons w ws ih => exact ih _ (writeWord_wf a w h)

/-- A listed cell is one that memory reads as written. -/
theorem readByte_of_mem {m : Memory} {c : Host.Cell} (h : c ∈ m) : (readByte m c.1).isSome = true := by
  induction m with
  | nil => simp at h
  | cons d m ih =>
    obtain ⟨k, w⟩ := d
    rw [readByte]
    split
    · rfl
    · rcases List.mem_cons.1 h with rfl | h
      · contradiction
      · exact ih h

theorem mem_writeBytes {a : Nat} {v : Word} {j : Nat} {m : Memory} {c : Host.Cell} (h : c ∈ writeBytes a v j m) :
    (a ≤ c.1 ∧ c.1 < a + j) ∨ c ∈ m := by
  induction j generalizing m with
  | zero => exact .inr h
  | succ j ih =>
    rcases ih h with h | h
    · left; omega
    · rcases mem_writeByte h with rfl | h
      · left; simp only; omega
      · exact .inr h

theorem mem_writeWords {a : Nat} {ws : List Word} {m : Memory} {c : Host.Cell} (h : c ∈ writeWords a ws m) :
    (a ≤ c.1 ∧ c.1 < a + 8 * ws.length) ∨ c ∈ m := by
  induction ws generalizing a m with
  | nil => exact .inr h
  | cons w ws ih =>
    rw [List.length_cons]
    rcases ih h with h | h
    · left; omega
    · rcases mem_writeBytes h with h | h
      · left; omega
      · exact .inr h

/-- A word is written exactly when its eight bytes are. -/
theorem readWord_isSome {m : Memory} {a : Nat} :
    (readWord m a).isSome = true ↔ ∀ j, j < 8 → (readByte m (a + j)).isSome = true := by
  constructor
  · intro h
    unfold readWord at h
    split at h
    · rename_i h0 h1 h2 h3 h4 h5 h6 h7
      intro j hj
      interval_cases j <;> simp_all
    · simp at h
  · intro h
    have e : ∀ j, j < 8 → ∃ b, readByte m (a + j) = some b := fun j hj => Option.isSome_iff_exists.1 (h j hj)
    obtain ⟨b0, h0⟩ := e 0 (by omega)
    obtain ⟨b1, h1⟩ := e 1 (by omega)
    obtain ⟨b2, h2⟩ := e 2 (by omega)
    obtain ⟨b3, h3⟩ := e 3 (by omega)
    obtain ⟨b4, h4⟩ := e 4 (by omega)
    obtain ⟨b5, h5⟩ := e 5 (by omega)
    obtain ⟨b6, h6⟩ := e 6 (by omega)
    obtain ⟨b7, h7⟩ := e 7 (by omega)
    rw [Nat.add_zero] at h0
    unfold readWord
    rw [h0, h1, h2, h3, h4, h5, h6, h7]
    rfl

theorem writeWord_wholeWords {a : Nat} (ha : a % 8 = 0) (v : Word) {m : Memory} (h : Memory.wholeWords m) :
    Memory.wholeWords (writeWord a v m) := by
  intro b hb
  by_cases hab : b / 8 * 8 = a
  · rw [hab, readWord_writeWord_same]; rfl
  · rw [readByte_writeWord, if_neg (by omega)] at hb
    rw [readWord_writeWord_other v m (by omega)]
    exact h b hb

theorem writeWords_wholeWords {a : Nat} (ha : a % 8 = 0) (ws : List Word) {m : Memory} (h : Memory.wholeWords m) :
    Memory.wholeWords (writeWords a ws m) := by
  induction ws generalizing a m with
  | nil => exact h
  | cons w ws ih => exact ih (by omega) (writeWord_wholeWords ha w h)

end Sys2Proof.Machine
end

