-- ==== Sys2Proof/Laws/Exec.lean ====
section
/-! SUPPORT. What a command, a host action and a step can do, said once: the inversion lemmas that later proofs cite
instead of unfolding the machine. -/

namespace Sys2Proof.Machine

@[simp] theorem patterns_length (k : Nat) (vs : List F64) : (patterns k vs).length = vs.length := by
  induction vs generalizing k with
  | nil => rfl
  | cons v vs ih => simp [patterns, ih]

/-- The pattern stored for result `i`. -/
theorem patterns_getElem (k : Nat) (vs : List F64) (i : Nat) (h : i < vs.length) :
    (patterns k vs)[i]'(by simpa using h) = vs[i].toWord (Config.nanDraw (k + i)) := by
  induction vs generalizing k i with
  | nil => simp at h
  | cons v vs ih =>
    cases i with
    | zero => rfl
    | succ i =>
      simp only [patterns, List.getElem_cons_succ]
      rw [ih (k + 1) i (by simpa using h)]
      congr 2; omega

@[simp] theorem wordsOf_length (x : Nat → Cplx F64) (k : Nat) : (wordsOf x k).length = k := by simp [wordsOf]

@[simp] theorem wordsOf_getElem (x : Nat → Cplx F64) (k i : Nat) (h : i < (wordsOf x k).length) :
    (wordsOf x k)[i] = wordOf x i := by simp [wordsOf]

@[simp] theorem mirrorWords_length (n : Nat) (ws : List Word) : (mirrorWords n ws).length = 2 ^ n - 2 := by
  simp [mirrorWords]

@[simp] theorem fftWords_length (s : State) (ws : List Word) : (fftWords s ws).length = 2 * s.size := by
  simp [fftWords]

@[simp] theorem ifftWords_length (s : State) (ws : List Word) : (ifftWords s ws).length = 2 * s.size := by
  simp [ifftWords]

@[simp] theorem rfftWords_length (s : State) (ws : List Word) : (rfftWords s ws).length = s.size + 2 := by
  simp [rfftWords]

/-- Reading a stretch of a buffer, word by word. -/
theorem readBuf_eq_some {s : State} {b : BufNo} {i k : Nat} {ws : List Word} :
    readBuf s b i k = some ws ↔ ws.length = k ∧ ∀ j, j < k → bufWord s b (i + j) = ws[j]? := by
  unfold readBuf bufWord
  rw [readWords_eq_some]
  refine and_congr_right fun _ => forall_congr' fun j => imp_congr_right fun _ => ?_
  rw [show wordAddr s b.toNat i + 8 * j = wordAddr s b.toNat (i + j) by unfold wordAddr; ring]

theorem readBuf_eq_none {s : State} {b : BufNo} {i k : Nat} :
    readBuf s b i k = none ↔ ∃ j, j < k ∧ bufWord s b (i + j) = none := by
  unfold readBuf bufWord
  rw [readWords_eq_none]
  refine exists_congr fun j => and_congr_right fun _ => ?_
  rw [show wordAddr s b.toNat i + 8 * j = wordAddr s b.toNat (i + j) by unfold wordAddr; ring]

/-- A stretch whose words have all been written is read. -/
theorem readBuf_of_written {s : State} {b : BufNo} {i k : Nat}
    (h : ∀ j, j < k → (bufWord s b (i + j)).isSome = true) : ∃ ws, readBuf s b i k = some ws := by
  cases hr : readBuf s b i k with
  | some ws => exact ⟨ws, rfl⟩
  | none =>
    obtain ⟨j, hj, hn⟩ := readBuf_eq_none.1 hr
    have := h j hj
    simp [hn] at this

/-- Words of two different buffers of an instance, or two different words of one, do not overlap (R24). -/
theorem wordAddr_disjoint (s : State) {b c i j : Nat} (hi : i < 2 * s.size) (hj : j < 2 * s.size)
    (h : b ≠ c ∨ i ≠ j) : wordAddr s b i + 8 ≤ wordAddr s c j ∨ wordAddr s c j + 8 ≤ wordAddr s b i := by
  unfold wordAddr
  rcases Nat.lt_trichotomy b c with hbc | hbc | hbc
  · left
    have : (b + 1) * (2 * s.size) ≤ c * (2 * s.size) := Nat.mul_le_mul_right _ hbc
    rw [Nat.add_mul] at this; omega
  · subst hbc
    rcases h with h | h
    · exact absurd rfl h
    · omega
  · right
    have : (c + 1) * (2 * s.size) ≤ b * (2 * s.size) := Nat.mul_le_mul_right _ hbc
    rw [Nat.add_mul] at this; omega

/-- A word just stored reads as stored. -/
theorem bufWord_writeBuf {b : BufNo} {i : Nat} {ws : List Word} (s : State) {j : Nat} (h : j < ws.length) :
    bufWord (writeBuf b i ws s) b (i + j) = some ws[j] := by
  unfold bufWord
  rw [writeBuf_mem, writeBuf_wordAddr, show wordAddr s b.toNat (i + j) = wordAddr s b.toNat i + 8 * j by unfold wordAddr; ring]
  exact readWord_writeWords ws _ _ h

/-- A word outside the stretch stored reads as before. -/
theorem bufWord_writeBuf_other {b c : BufNo} {i : Nat} {ws : List Word} (s : State) {j : Nat}
    (hb : i + ws.length ≤ 2 * s.size) (hj : j < 2 * s.size) (h : c ≠ b ∨ j < i ∨ i + ws.length ≤ j) :
    bufWord (writeBuf b i ws s) c j = bufWord s c j := by
  unfold bufWord
  rw [writeBuf_mem, writeBuf_wordAddr]
  by_cases hl : ws.length = 0
  · rw [List.length_eq_zero_iff.1 hl]; rfl
  apply readWord_writeWords_outside
  by_cases hcb : c = b
  · subst hcb
    unfold wordAddr
    rcases h with h | h
    · exact absurd rfl h
    · omega
  · have hn : c.toNat ≠ b.toNat := fun he => hcb (BitVec.eq_of_toNat_eq he)
    unfold wordAddr
    rcases Nat.lt_or_gt_of_ne hn with hbc | hbc
    · have : (c.toNat + 1) * (2 * s.size) ≤ b.toNat * (2 * s.size) := Nat.mul_le_mul_right _ hbc
      rw [Nat.add_mul] at this; omega
    · have : (b.toNat + 1) * (2 * s.size) ≤ c.toNat * (2 * s.size) := Nat.mul_le_mul_right _ hbc
      rw [Nat.add_mul] at this; omega

theorem storeResults_mem_eq (b : BufNo) (vs : List F64) (s : State) :
    (storeResults b vs s).mem = (writeBuf b 0 (patterns s.draws vs) s).mem := rfl

/-- The word stored for result `j`. -/
theorem bufWord_storeResults {b : BufNo} {vs : List F64} (s : State) {j : Nat} (h : j < vs.length) :
    bufWord (storeResults b vs s) b j = some (vs[j].toWord (Config.nanDraw (s.draws + j))) := by
  have := bufWord_writeBuf (b := b) (i := 0) (ws := patterns s.draws vs) s (j := j) (by simpa using h)
  rw [Nat.zero_add, patterns_getElem _ _ _ h] at this
  exact this

theorem bufWord_storeResults_other {b c : BufNo} {vs : List F64} (s : State) {j : Nat}
    (hb : vs.length ≤ 2 * s.size) (hj : j < 2 * s.size) (h : c ≠ b ∨ vs.length ≤ j) :
    bufWord (storeResults b vs s) c j = bufWord s c j :=
  bufWord_writeBuf_other (ws := patterns s.draws vs) (i := 0) s (by simpa using hb) hj
    (by rcases h with h | h; exacts [.inl h, .inr (.inr (by simpa using h))])

/-- What `withTwoBuffers` does: the two faults in the order of R256, or the command itself. -/
theorem withTwoBuffers_cases (dst src : BufNo) (s : State) (run : State → Result) :
    (¬(dst.toNat < s.nbuf ∧ src.toNat < s.nbuf) ∧
      withTwoBuffers dst src s run = .next (raise .illegalCommand s)) ∨
    ((dst.toNat < s.nbuf ∧ src.toNat < s.nbuf) ∧ dst = src ∧
      withTwoBuffers dst src s run = .next (raise .aliasedBuffers s)) ∨
    ((dst.toNat < s.nbuf ∧ src.toNat < s.nbuf) ∧ dst ≠ src ∧ withTwoBuffers dst src s run = run s) := by
  unfold withTwoBuffers
  by_cases h1 : dst.toNat < s.nbuf ∧ src.toNat < s.nbuf
  · by_cases h2 : dst = src
    · exact .inr (.inl ⟨h1, h2, by rw [if_pos h1, if_pos h2]⟩)
    · exact .inr (.inr ⟨h1, h2, by rw [if_pos h1, if_neg h2]⟩)
  · exact .inl ⟨h1, if_neg h1⟩

theorem withTwoBuffers_run {dst src : BufNo} {s : State} (run : State → Result) (h1 : dst.toNat < s.nbuf)
    (h2 : src.toNat < s.nbuf) (h : dst ≠ src) : withTwoBuffers dst src s run = run s := by
  rw [withTwoBuffers, if_pos ⟨h1, h2⟩, if_neg h]

theorem transform_of_read {dst src : BufNo} {k : Nat} {f : List Word → List F64} {s : State} {ws : List Word}
    (h : readBuf s src 0 k = some ws) : transform dst src k f s = .next (complete (storeResults dst (f ws) s)) := by
  rw [transform, h]

/-- The two outcomes of an out-of-place datapath. -/
theorem transform_cases (dst src : BufNo) (k : Nat) (f : List Word → List F64) (s : State) :
    (readBuf s src 0 k = none ∧ transform dst src k f s = .fault .unwrittenWord) ∨
    (∃ ws, readBuf s src 0 k = some ws ∧ transform dst src k f s = .next (complete (storeResults dst (f ws) s))) := by
  cases h : readBuf s src 0 k with
  | none => exact .inl ⟨rfl, by rw [transform, h]⟩
  | some ws => exact .inr ⟨ws, rfl, transform_of_read h⟩

/-- A shared inversion of FFT, IFFT and RFFT. -/
theorem outOfPlace_next {dst src : BufNo} {k : Nat} {f : List Word → List F64} {s t : State}
    (h : withTwoBuffers dst src s (fun s' => transform dst src k f s') = .next t) :
    (∃ e, t = raise e s) ∨
    (dst.toNat < s.nbuf ∧ src.toNat < s.nbuf ∧ dst ≠ src ∧
      ∃ ws, readBuf s src 0 k = some ws ∧ t = complete (storeResults dst (f ws) s)) := by
  rcases withTwoBuffers_cases dst src s (fun s' => transform dst src k f s') with ⟨-, e⟩ | ⟨-, -, e⟩ | ⟨h1, h2, e⟩
  · rw [e] at h; cases h; exact .inl ⟨_, rfl⟩
  · rw [e] at h; cases h; exact .inl ⟨_, rfl⟩
  · rw [e] at h
    rcases transform_cases dst src k f s with ⟨-, e'⟩ | ⟨ws, hw, e'⟩
    · rw [e'] at h; cases h
    · rw [e'] at h; cases h
      exact .inr ⟨h1.1, h1.2, h2, ws, hw, rfl⟩

theorem execFft_eq (dst src : BufNo) (s : State) :
    exec (.fft dst src) s = withTwoBuffers dst src s (fun s' => transform dst src (2 * s.size) (fftWords s) s') := by
  simp only [exec, execFft, withTwoBuffers]

theorem execIfft_eq (dst src : BufNo) (s : State) :
    exec (.ifft dst src) s = withTwoBuffers dst src s (fun s' => transform dst src (2 * s.size) (ifftWords s) s') := by
  simp only [exec, execIfft, withTwoBuffers]

theorem execRfft_eq (dst src : BufNo) (s : State) :
    exec (.rfft dst src) s = withTwoBuffers dst src s (fun s' => transform dst src s.size (rfftWords s) s') := by
  simp only [exec, execRfft, withTwoBuffers]

theorem execNop_eq (s : State) : exec .nop s = .next (complete s) := rfl

/-- The three outcomes of CSPEC. -/
theorem execCspec_cases (dst : BufNo) (s : State) :
    (¬dst.toNat < s.nbuf ∧ exec (.cspec dst) s = .next (raise .illegalCommand s)) ∨
    (dst.toNat < s.nbuf ∧ readBuf s dst 2 (s.size - 2) = none ∧ exec (.cspec dst) s = .fault .unwrittenWord) ∨
    (dst.toNat < s.nbuf ∧ ∃ ws, readBuf s dst 2 (s.size - 2) = some ws ∧
      exec (.cspec dst) s = .next (complete (writeBuf dst (s.size + 2) (mirrorWords s.logN ws) s))) := by
  simp only [exec, execCspec, withOneBuffer]
  by_cases h : dst.toNat < s.nbuf
  · cases hr : readBuf s dst 2 (s.size - 2) with
    | none => exact .inr (.inl ⟨h, rfl, by rw [if_pos h]⟩)
    | some ws => exact .inr (.inr ⟨h, ws, rfl, by rw [if_pos h]⟩)
  · exact .inl ⟨h, if_neg h⟩

/-- Everything a command can do when it ends: raise a fault, complete with no store, store results from word 0 of a
buffer, or store the mirror words. -/
theorem exec_next {i : Instr} {s t : State} (h : exec i s = .next t) :
    (∃ e, t = raise e s) ∨ t = complete s ∨
    (∃ d vs, d.toNat < s.nbuf ∧ (vs.length = 2 * s.size ∨ vs.length = s.size + 2) ∧
      t = complete (storeResults d vs s)) ∨
    (∃ d ws, d.toNat < s.nbuf ∧ ws.length = s.size - 2 ∧ t = complete (writeBuf d (s.size + 2) ws s)) := by
  cases i with
  | nop => rw [execNop_eq] at h; cases h; exact .inr (.inl rfl)
  | fft d r =>
    rw [execFft_eq] at h
    rcases outOfPlace_next h with e | ⟨h1, -, -, ws, -, rfl⟩
    · exact .inl e
    · exact .inr (.inr (.inl ⟨d, _, h1, .inl (fftWords_length s ws), rfl⟩))
  | ifft d r =>
    rw [execIfft_eq] at h
    rcases outOfPlace_next h with e | ⟨h1, -, -, ws, -, rfl⟩
    · exact .inl e
    · exact .inr (.inr (.inl ⟨d, _, h1, .inl (ifftWords_length s ws), rfl⟩))
  | rfft d r =>
    rw [execRfft_eq] at h
    rcases outOfPlace_next h with e | ⟨h1, -, -, ws, -, rfl⟩
    · exact .inl e
    · exact .inr (.inr (.inl ⟨d, _, h1, .inr (rfftWords_length s ws), rfl⟩))
  | cspec d =>
    rcases execCspec_cases d s with ⟨-, e⟩ | ⟨-, -, e⟩ | ⟨h1, ws, -, e⟩
    · rw [e] at h; cases h; exact .inl ⟨_, rfl⟩
    · rw [e] at h; cases h
    · rw [e] at h; cases h
      exact .inr (.inr (.inr ⟨d, _, h1, by simp [State.size], rfl⟩))

/-- A command never refuses, and its only model fault is a read of an unwritten word. -/
theorem exec_outcome (i : Instr) (s : State) : (∃ t, exec i s = .next t) ∨ exec i s = .fault .unwrittenWord := by
  have two : ∀ (dst src : BufNo) (k : Nat) (f : List Word → List F64),
      (∃ t, withTwoBuffers dst src s (fun s' => transform dst src k f s') = .next t) ∨
      withTwoBuffers dst src s (fun s' => transform dst src k f s') = .fault .unwrittenWord := by
    intro dst src k f
    rcases withTwoBuffers_cases dst src s (fun s' => transform dst src k f s') with ⟨-, e⟩ | ⟨-, -, e⟩ | ⟨-, -, e⟩
    · exact .inl ⟨_, e⟩
    · exact .inl ⟨_, e⟩
    · rw [e]
      rcases transform_cases dst src k f s with ⟨-, e⟩ | ⟨ws, -, e⟩
      · exact .inr e
      · exact .inl ⟨_, e⟩
  cases i with
  | nop => exact .inl ⟨_, rfl⟩
  | fft d r => rw [execFft_eq]; exact two ..
  | ifft d r => rw [execIfft_eq]; exact two ..
  | rfft d r => rw [execRfft_eq]; exact two ..
  | cspec d =>
    rcases execCspec_cases d s with ⟨-, e⟩ | ⟨-, -, e⟩ | ⟨-, ws, -, e⟩
    · exact .inl ⟨_, e⟩
    · exact .inr e
    · exact .inl ⟨_, e⟩

/-- Everything a host action can do when it is admitted. -/
theorem hostAct_next {a : HostAction} {s t : State} (h : hostAct a s = .next t) :
    (∃ r, t = addReply r s) ∨ (s.busy = false ∧ ∃ w, t = issue w s) ∨
    (s.busy = false ∧ ∃ addr v, addr % 8 = 0 ∧ addr < spaceSize s .data ∧ t = { s with mem := writeWord addr v s.mem }) ∨
    t = blockReset s := by
  cases a with
  | regRead off bytes =>
    simp only [hostAct, hostRegRead] at h
    split at h
    · cases h
    · split at h
      · cases h
      · cases h; exact .inl ⟨_, rfl⟩
  | regWrite off bytes v =>
    simp only [hostAct, hostRegWrite] at h
    split at h
    · cases h
    · split at h
      · split at h
        · cases h
        · rename_i hb; cases h; exact .inr (.inl ⟨by simpa using hb, v, rfl⟩)
      · split at h <;> cases h
  | memRead space addr size =>
    simp only [hostAct, hostMemRead, withAddress] at h
    split at h
    · cases h
    · split at h
      · cases h
      · split at h
        · cases h
        · cases space <;> simp only at h
          · split at h
            · cases h
            · split at h <;> cases h
              exact .inl ⟨_, rfl⟩
          · split at h <;> cases h
            exact .inl ⟨_, rfl⟩
          · split at h <;> cases h
            exact .inl ⟨_, rfl⟩
  | memWrite space addr size v =>
    simp only [hostAct, hostMemWrite, withAddress] at h
    split at h
    · cases h
    · split at h
      · cases h
      · split at h
        · cases h
        · rename_i h1 h2
          cases space <;> simp only at h
          · split at h
            · cases h
            · rename_i hb
              cases h
              exact .inr (.inr (.inl ⟨by simpa using hb, addr, v, by omega, by omega, rfl⟩))
          · cases h
          · cases h
  | reset => simp only [hostAct] at h; cases h; exact .inr (.inr (.inr rfl))

/-- Everything the command in flight can do when it ends. -/
theorem runCommand_next {s t : State} (h : runCommand s = .next t) :
    (∃ i, decode s.cmd = .ok i ∧ exec i s = .next t) ∨ ((∃ e, decode s.cmd = .error e) ∧ t = raise .illegalCommand s) := by
  unfold runCommand fetchWord at h
  cases hd : decode s.cmd with
  | ok i => rw [hd] at h; exact .inl ⟨i, rfl, h⟩
  | error e => rw [hd] at h; cases h; exact .inr ⟨⟨e, rfl⟩, rfl⟩

/-- Everything a step can do: the engine runs the command in flight, a host action is performed, the host's answer is
recorded, or nothing but the list of turns changes. In each case `l` is the list of turns left. -/
theorem step_next {s t : State} (h : step s = .next t) :
    ∃ l, (s.busy = true ∧ runCommand { s with turns := l } = .next t) ∨
      (∃ a, hostAct a { s with turns := l } = .next t) ∨
      (t = awaitReply { s with turns := l }) ∨ t = { s with turns := l } := by
  have eng : ∀ u : State, engineStep u = .next t → (u.busy = true ∧ runCommand u = .next t) ∨ t = u := by
    intro u hu
    unfold engineStep at hu
    split at hu
    · rename_i hb; exact .inl ⟨hb, hu⟩
    · cases hu; exact .inr rfl
  unfold step at h
  split at h
  · refine ⟨s.turns, ?_⟩
    rcases eng s h with h | h
    · exact .inl h
    · exact .inr (.inr (.inr h))
  · refine ⟨s.turns.tail, ?_⟩
    rcases eng _ h with h | h
    · exact .inl h
    · exact .inr (.inr (.inr h))
  · exact ⟨s.turns.tail, .inr (.inl ⟨_, h⟩)⟩
  · split at h
    · refine ⟨s.turns, ?_⟩
      rcases eng s h with h | h
      · exact .inl h
      · exact .inr (.inr (.inr h))
    · cases h; exact ⟨s.turns.tail, .inr (.inr (.inl rfl))⟩
  · cases h
    obtain ⟨l, hl⟩ := stopIfFaulted_eq (popTurn s)
    exact ⟨l, .inr (.inr (.inr hl))⟩

end Sys2Proof.Machine
end

