-- ==== Sys2Proof/Laws/Float.lean ====
section
/-! SUPPORT. The rounding of a magnitude: the significand it truncates, the two values it chooses between, exactness, and
independence of a common factor. -/

namespace Sys2Proof.F64

/-- The exponent of the unit in the last place of `a / d`, in units of `2^-1074`. -/
def ulpExp (a d : Nat) : Nat := (a / d).log2 - 52

theorem roundMag_eq (rm : RoundingMode) (neg : Bool) (a d : Nat) :
    roundMag rm neg a d =
      (if roundsUp rm neg (a / (d * 2 ^ ulpExp a d)) (a % (d * 2 ^ ulpExp a d)) (d * 2 ^ ulpExp a d) then
        a / (d * 2 ^ ulpExp a d) + 1 else a / (d * 2 ^ ulpExp a d)) * 2 ^ ulpExp a d := rfl

/-- The truncated significand has at most 53 bits. -/
theorem significand_lt (a d : Nat) : a / (d * 2 ^ ulpExp a d) < 2 ^ 53 := by
  rw [← Nat.div_div_eq_div_mul, Nat.div_lt_iff_lt_mul (Nat.pow_pos (by omega))]
  have h : a / d < 2 ^ ((a / d).log2 + 1) := Nat.lt_log2_self
  refine Nat.lt_of_lt_of_le h ?_
  rw [← Nat.pow_add]
  apply Nat.pow_le_pow_right (by omega)
  unfold ulpExp; omega

/-- Above the subnormal range the truncated significand has 53 bits exactly. -/
theorem le_significand {a d : Nat} (h : 0 < ulpExp a d) : 2 ^ 52 ≤ a / (d * 2 ^ ulpExp a d) := by
  have h0 : a / d ≠ 0 := by
    intro h0; simp [ulpExp, h0] at h
  rw [← Nat.div_div_eq_div_mul, Nat.le_div_iff_mul_le (Nat.pow_pos (by omega)), ← Nat.pow_add]
  refine Nat.le_trans ?_ (Nat.log2_self_le h0)
  apply Nat.pow_le_pow_right (by omega)
  unfold ulpExp at h ⊢; omega

/-- A rounded magnitude is the truncated significand or the next one, times the unit. -/
theorem roundMag_cases (rm : RoundingMode) (neg : Bool) (a d : Nat) :
    roundMag rm neg a d = a / (d * 2 ^ ulpExp a d) * 2 ^ ulpExp a d ∨
    roundMag rm neg a d = (a / (d * 2 ^ ulpExp a d) + 1) * 2 ^ ulpExp a d := by
  rw [roundMag_eq]; split <;> simp

/-- An exact quotient in whole units is not rounded up. -/
theorem roundsUp_exact (rm : RoundingMode) (neg : Bool) (q : Nat) {u : Nat} (hu : 0 < u) :
    roundsUp rm neg q 0 u = false := by
  cases rm <;> simp [roundsUp] <;> omega

/-- Rounding does not depend on a common factor of numerator and denominator. -/
theorem roundMag_mul_right (rm : RoundingMode) (neg : Bool) (a d : Nat) {c : Nat} (hc : 0 < c) :
    roundMag rm neg (a * c) (d * c) = roundMag rm neg a d := by
  have e : ulpExp (a * c) (d * c) = ulpExp a d := by unfold ulpExp; rw [Nat.mul_div_mul_right _ _ hc]
  rw [roundMag_eq, roundMag_eq, e, show d * c * 2 ^ ulpExp a d = d * 2 ^ ulpExp a d * c by ring,
    Nat.mul_div_mul_right _ _ hc, Nat.mul_mod_mul_right]
  have s : ∀ q r u, roundsUp rm neg q (r * c) (u * c) = roundsUp rm neg q r u := by
    intro q r u
    cases rm
    · have h1 : u * c < 2 * (r * c) ↔ u < 2 * r := by
        rw [show 2 * (r * c) = 2 * r * c by ring]; exact Nat.mul_lt_mul_right hc
      have h2 : 2 * (r * c) = u * c ↔ 2 * r = u := by
        rw [show 2 * (r * c) = 2 * r * c by ring]; exact Nat.mul_right_cancel_iff hc
      simp only [roundsUp, h1, h2]
    · have h1 : u * c ≤ 2 * (r * c) ↔ u ≤ 2 * r := by
        rw [show 2 * (r * c) = 2 * r * c by ring]; exact Nat.mul_le_mul_right_iff hc
      simp only [roundsUp, h1]
    · have h1 : r * c ≠ 0 ↔ r ≠ 0 := by simp [Nat.pos_iff_ne_zero.1 hc]
      simp only [roundsUp, h1]
    · have h1 : r * c ≠ 0 ↔ r ≠ 0 := by simp [Nat.pos_iff_ne_zero.1 hc]
      simp only [roundsUp, h1]
    · rfl
  rw [s]

/-- The unit of a representable magnitude divides it. -/
theorem ulp_dvd {q e : Nat} (hq : q < 2 ^ 53) : 2 ^ ((q * 2 ^ e).log2 - 52) ∣ q * 2 ^ e := by
  by_cases h0 : q = 0
  · simp [h0]
  · have hne : q * 2 ^ e ≠ 0 := Nat.mul_ne_zero h0 (Nat.pow_pos (by omega)).ne'
    have hl : (q * 2 ^ e).log2 < 53 + e := (Nat.log2_lt hne).2 (by
      rw [Nat.pow_add]; exact Nat.mul_lt_mul_of_pos_right hq (Nat.pow_pos (by omega)))
    exact Dvd.dvd.mul_left (Nat.pow_dvd_pow 2 (by omega)) q

/-- A representable magnitude is rounded to itself, in every mode. -/
theorem roundMag_exact (rm : RoundingMode) (neg : Bool) {q e d : Nat} (hq : q < 2 ^ 53) (hd : 0 < d) :
    roundMag rm neg (q * 2 ^ e * d) d = q * 2 ^ e := by
  have h := roundMag_mul_right rm neg (q * 2 ^ e) 1 hd
  rw [Nat.one_mul] at h
  rw [h, roundMag_eq]
  have hu : 1 * 2 ^ ulpExp (q * 2 ^ e) 1 ∣ q * 2 ^ e := by
    rw [Nat.one_mul, ulpExp, Nat.div_one]; exact ulp_dvd hq
  rw [Nat.mod_eq_zero_of_dvd hu, roundsUp_exact rm neg _ (by simp), if_neg (by simp), Nat.one_mul,
    Nat.div_mul_cancel (by simpa using hu)]

/-- How far the two candidates of a rounding are from the exact magnitude. -/
theorem trunc_le (a d : Nat) : a / (d * 2 ^ ulpExp a d) * 2 ^ ulpExp a d * d ≤ a := by
  rw [Nat.mul_assoc, Nat.mul_comm (2 ^ _) d]
  exact Nat.div_mul_le_self a _

theorem lt_trunc_succ {a d : Nat} (hd : 0 < d) : a < (a / (d * 2 ^ ulpExp a d) + 1) * 2 ^ ulpExp a d * d := by
  rw [Nat.mul_assoc, Nat.mul_comm (2 ^ _) d]
  have h := Nat.lt_succ_iff.2 (Nat.le_refl (a / (d * 2 ^ ulpExp a d)))
  exact (Nat.div_lt_iff_lt_mul (Nat.mul_pos hd (Nat.pow_pos (by omega)))).1 h

/-- No representable magnitude lies strictly between the two candidates of a rounding. -/
theorem no_representable_between (a d : Nat) {q e : Nat} (hq : q < 2 ^ 53) :
    q * 2 ^ e ≤ a / (d * 2 ^ ulpExp a d) * 2 ^ ulpExp a d ∨
    (a / (d * 2 ^ ulpExp a d) + 1) * 2 ^ ulpExp a d ≤ q * 2 ^ e := by
  by_contra hcon
  rw [not_or, Nat.not_le, Nat.not_le] at hcon
  obtain ⟨h1, h2⟩ := hcon
  have hle : ulpExp a d ≤ e := by
    by_contra hlt
    have hs := le_significand (a := a) (d := d) (by omega)
    have : q * 2 ^ e < 2 ^ 53 * 2 ^ e := Nat.mul_lt_mul_of_pos_right hq (Nat.pow_pos (by omega))
    have : (2 : Nat) ^ 53 * 2 ^ e ≤ 2 ^ 52 * 2 ^ ulpExp a d := by
      rw [← Nat.pow_add, ← Nat.pow_add]; exact Nat.pow_le_pow_right (by omega) (by omega)
    have : 2 ^ 52 * 2 ^ ulpExp a d ≤ a / (d * 2 ^ ulpExp a d) * 2 ^ ulpExp a d := Nat.mul_le_mul_right _ hs
    omega
  obtain ⟨k, rfl⟩ := Nat.exists_eq_add_of_le hle
  rw [Nat.pow_add, show q * (2 ^ ulpExp a d * 2 ^ k) = q * 2 ^ k * 2 ^ ulpExp a d by ring] at h1 h2
  have h1' := Nat.lt_of_mul_lt_mul_right h1
  have h2' := Nat.lt_of_mul_lt_mul_right h2
  omega

/-- Under roundTiesToEven no representable magnitude is nearer to `a / d` than the rounded one. -/
theorem roundMag_rne_nearest (neg : Bool) {a d : Nat} (hd : 0 < d) {q e : Nat} (hq : q < 2 ^ 53) :
    |(roundMag .rne neg a d * d : Int) - a| ≤ |((q * 2 ^ e : Nat) * d : Int) - a| := by
  have hu : 0 < d * 2 ^ ulpExp a d := Nat.mul_pos hd (Nat.pow_pos (by omega))
  have hdiv := Nat.div_add_mod a (d * 2 ^ ulpExp a d)
  have hmod := Nat.mod_lt a hu
  have hbet := no_representable_between a d hq (e := e)
  rw [roundMag_eq]
  generalize hQ : a / (d * 2 ^ ulpExp a d) = Q at *
  generalize hR : a % (d * 2 ^ ulpExp a d) = R at *
  generalize ulpExp a d = t at *
  generalize hm : q * 2 ^ e = m at *
  have e1 : Q * 2 ^ t * d = d * 2 ^ t * Q := by ring
  have e2 : (Q + 1) * 2 ^ t * d = d * 2 ^ t * Q + d * 2 ^ t := by ring
  have hM : m * d ≤ Q * 2 ^ t * d ∨ (Q + 1) * 2 ^ t * d ≤ m * d := by
    rcases hbet with h | h
    · exact .inl (Nat.mul_le_mul_right d h)
    · exact .inr (Nat.mul_le_mul_right d h)
  rw [e1, e2] at hM
  have goal : ∀ r : Nat, (r * d = d * 2 ^ t * Q ∧ 2 * R ≤ d * 2 ^ t) ∨ (r * d = d * 2 ^ t * Q + d * 2 ^ t ∧ d * 2 ^ t ≤ 2 * R) →
      |((r : Int) * d) - a| ≤ |((m : Int) * d) - a| := by
    intro r hr
    rw [← Nat.cast_mul, ← Nat.cast_mul]
    generalize d * 2 ^ t * Q = L at *
    generalize d * 2 ^ t = u at *
    generalize r * d = rd at *
    generalize m * d = md at *
    rw [abs_le]
    rcases abs_cases ((md : Int) - a) with ⟨h, h'⟩ | ⟨h, h'⟩ <;> rw [h] <;> constructor <;> omega
  by_cases hup : roundsUp .rne neg Q R (d * 2 ^ t) = true
  · rw [if_pos hup]
    apply goal _ (.inr ⟨e2, ?_⟩)
    simp only [roundsUp, Bool.or_eq_true, Bool.and_eq_true, decide_eq_true_eq] at hup
    omega
  · rw [if_neg hup]
    apply goal _ (.inl ⟨e1, ?_⟩)
    simp only [roundsUp, Bool.or_eq_true, Bool.and_eq_true, decide_eq_true_eq] at hup
    omega

/-- A rounded magnitude is a 53-bit significand times a power of two. -/
theorem roundMag_form (rm : RoundingMode) (neg : Bool) (a d : Nat) :
    ∃ q e, q < 2 ^ 53 ∧ roundMag rm neg a d = q * 2 ^ e := by
  have hlt := significand_lt a d
  rcases roundMag_cases rm neg a d with h | h
  · exact ⟨_, _, hlt, h⟩
  · by_cases hc : a / (d * 2 ^ ulpExp a d) + 1 = 2 ^ 53
    · refine ⟨2 ^ 52, ulpExp a d + 1, by omega, ?_⟩
      rw [h, hc, Nat.pow_succ]; ring
    · exact ⟨_, _, by omega, h⟩

/-- The two outcomes of rounding; both carry the sign that was given (R134). -/
theorem round_cases (rm : RoundingMode) (neg : Bool) (a d : Nat) :
    round rm neg a d = .inf neg ∨ ∃ m, round rm neg a d = .fin neg m := by
  unfold round finish
  by_cases h : roundMag rm neg a d < overflow
  · exact .inr ⟨_, if_pos h⟩
  · rw [if_neg h]
    cases rm <;> cases neg <;> simp

end Sys2Proof.F64
end

