-- ==== Sys2Proof/Laws/Inv.lean ====
section
/-! SUPPORT. Each update of the state keeps the invariant of a constructed instance. -/

namespace Sys2Proof.Machine

theorem Inv_of_status {s : State} (h : s.Inv) {st : Reg} (hst : st ∈ statusValues) (w : Reg) :
    ({ s with cmd := w, status := st } : State).Inv := by
  obtain ⟨h1, h2, h3, h4, h5, h6, -, h8, h9, h10⟩ := h
  exact ⟨h1, h2, h3, h4, h5, h6, hst, h8, h9, h10⟩

theorem Inv_of_mem {s : State} (h : s.Inv) {m : Memory} (k : Nat) (hw : Memory.wf m)
    (hr : ∀ c ∈ m, c.1 < spaceSize s .data) (hh : Memory.wholeWords m) :
    ({ s with mem := m, draws := k } : State).Inv := by
  obtain ⟨h1, h2, h3, h4, h5, h6, h7, -, -, -⟩ := h
  exact ⟨h1, h2, h3, h4, h5, h6, h7, hw, hr, hh⟩

theorem Inv_of_host {s : State} (h : s.Inv) (l : List Turn) (r : List Reply) :
    ({ s with turns := l, replies := r } : State).Inv := by
  obtain ⟨h1, h2, h3, h4, h5, h6, h7, h8, h9, h10⟩ := h
  exact ⟨h1, h2, h3, h4, h5, h6, h7, h8, h9, h10⟩

theorem Inv_of_turns {s : State} (h : s.Inv) (l : List Turn) : ({ s with turns := l } : State).Inv :=
  Inv_of_host h l s.replies

theorem Inv_complete {s : State} (h : s.Inv) : (complete s).Inv :=
  Inv_of_status h (putStatus_end_mem h.status_value none) s.cmd

theorem Inv_raise {s : State} (h : s.Inv) (f : CommandFault) : (raise f s).Inv :=
  Inv_of_status h (putStatus_end_mem h.status_value (some f)) s.cmd

theorem Inv_issue {s : State} (h : s.Inv) (w : Reg) : (issue w s).Inv :=
  Inv_of_status h (by rw [putStatus_issue h.status_value]; decide) w

theorem Inv_blockReset {s : State} (h : s.Inv) : (blockReset s).Inv := by
  obtain ⟨h1, h2, h3, h4, h5, h6, -, -, -, -⟩ := h
  refine ⟨h1, h2, h3, h4, h5, h6, by simp [statusValues], List.Pairwise.nil, ?_, ?_⟩
  · intro c hc; simp at hc
  · intro a ha; simp [readByte] at ha

theorem Inv_addReply {s : State} (h : s.Inv) (r : Reply) : (addReply r s).Inv := Inv_of_host h s.turns (r :: s.replies)

theorem Inv_writeWord {s : State} (h : s.Inv) {a : Nat} (v : Word) (ha : a % 8 = 0) (hl : a < spaceSize s .data) :
    ({ s with mem := writeWord a v s.mem } : State).Inv := by
  refine Inv_of_mem h s.draws (writeWord_wf a v h.mem_wf) ?_ (writeWord_wholeWords ha v h.mem_words)
  intro c hc
  rcases mem_writeBytes hc with hc | hc
  · have : spaceSize s .data % 8 = 0 := by simp [spaceSize]
    omega
  · exact h.mem_range c hc

/-- A stretch of words of an existing buffer lies in the `DATA` space. -/
theorem wordAddr_end_le {s : State} {b : BufNo} (hb : b.toNat < s.nbuf) {i k : Nat} (hk : i + k ≤ 2 * s.size) :
    wordAddr s b.toNat i + 8 * k ≤ spaceSize s .data := by
  have : (b.toNat + 1) * (2 * s.size) ≤ s.nbuf * (2 * s.size) := Nat.mul_le_mul_right _ hb
  rw [Nat.add_mul] at this
  unfold wordAddr spaceSize
  simp only
  omega

theorem Inv_writeBuf {s : State} (h : s.Inv) {b : BufNo} {i : Nat} {ws : List Word} (hb : b.toNat < s.nbuf)
    (hk : i + ws.length ≤ 2 * s.size) (k : Nat) :
    ({ writeBuf b i ws s with draws := k } : State).Inv := by
  refine Inv_of_mem h k (writeWords_wf _ ws h.mem_wf) ?_ (writeWords_wholeWords (by simp [wordAddr]) ws h.mem_words)
  intro c hc
  rcases mem_writeWords hc with hc | hc
  · have := wordAddr_end_le hb hk; omega
  · exact h.mem_range c hc

theorem Inv_storeResults {s : State} (h : s.Inv) {b : BufNo} {vs : List F64} (hb : b.toNat < s.nbuf)
    (hk : vs.length ≤ 2 * s.size) : (storeResults b vs s).Inv :=
  Inv_writeBuf h hb (by simpa using hk) _

/-- An instance has at least two points. -/
theorem Inv_two_le_size {s : State} (h : s.Inv) : 2 ≤ s.size := by
  have := Nat.pow_le_pow_right (show 0 < 2 by omega) h.logN_pos
  simpa [State.size] using this

end Sys2Proof.Machine
end

