-- ==== Sys2Proof/Laws/Shape.lean ====
section
/-! SUPPORT. The shape numbers and the digit reversal: the forms that proofs about the network use. -/

namespace Sys2Proof

theorem baseBits_add_passes {ne : Nat} (h : 1 ≤ ne) : baseBits ne + 2 * passes ne = ne := by
  unfold passes baseBits; split <;> omega

theorem baseBits_cases (ne : Nat) : baseBits ne = 1 ∨ baseBits ne = 2 := by
  unfold baseBits; split <;> simp

theorem basePoints_pos (ne : Nat) : 0 < basePoints ne := Nat.pow_pos (by omega)

theorem groups_pos (ne : Nat) : 0 < groups ne := Nat.pow_pos (by omega)

theorem blockPoints_pos (ne q : Nat) : 0 < blockPoints ne q := Nat.mul_pos (basePoints_pos ne) (Nat.pow_pos (by omega))

theorem blockPoints_eq_pow (ne q : Nat) : blockPoints ne q = 2 ^ (baseBits ne + 2 * q) := by
  unfold blockPoints basePoints
  rw [show (4 : Nat) = 2 ^ 2 from rfl, ← Nat.pow_mul, ← Nat.pow_add]

/-- After the last pass there is one block of all points. -/
theorem blockPoints_passes {ne : Nat} (h : 1 ≤ ne) : blockPoints ne (passes ne) = 2 ^ ne := by
  rw [blockPoints_eq_pow, baseBits_add_passes h]

@[simp] theorem blockPoints_zero (ne : Nat) : blockPoints ne 0 = basePoints ne := by simp [blockPoints]

theorem blockPoints_succ (ne q : Nat) : blockPoints ne (q + 1) = 4 * blockPoints ne q := by
  unfold blockPoints; rw [Nat.pow_succ]; ring

theorem basePoints_mul_groups {ne : Nat} (h : 1 ≤ ne) : basePoints ne * groups ne = 2 ^ ne :=
  blockPoints_passes h

/-- A pass within the engine has blocks that divide the array. -/
theorem blockPoints_dvd {ne q : Nat} (h : 1 ≤ ne) (hq : q ≤ passes ne) : blockPoints ne q ∣ 2 ^ ne := by
  rw [blockPoints_eq_pow]
  apply Nat.pow_dvd_pow
  have := baseBits_add_passes h
  omega

/-- The loop of `rev4` as a sum of base-4 digits at the mirrored positions. -/
theorem rev4Loop_eq_sum (p t d : Nat) (h : d ≤ p) :
    rev4Loop p t d = ∑ e ∈ Finset.range d, t / 4 ^ e % 4 * 4 ^ (p - 1 - e) := by
  have pow4 : ∀ e, (2 : Nat) ^ (2 * e) = 4 ^ e := fun e => by rw [Nat.pow_mul]
  have dvd : ∀ d, d ≤ p → 4 ^ (p - d) ∣ ∑ e ∈ Finset.range d, t / 4 ^ e % 4 * 4 ^ (p - 1 - e) := by
    intro d hd
    apply Finset.dvd_sum
    intro e he
    rw [Finset.mem_range] at he
    exact Dvd.dvd.mul_left (Nat.pow_dvd_pow 4 (by omega)) _
  induction d with
  | zero => rfl
  | succ d ih =>
    rw [rev4Loop, ih (by omega), Finset.sum_range_succ]
    obtain ⟨c, hc⟩ := dvd d (by omega)
    have hg : (t >>> (2 * d)) &&& 3 = t / 4 ^ d % 4 := by
      rw [Nat.shiftRight_eq_div_pow, pow4]
      exact Nat.and_two_pow_sub_one_eq_mod _ 2
    rw [hg, Nat.shiftLeft_eq, pow4, hc, ← pow4 (p - d)]
    rw [← Nat.two_pow_add_eq_or_of_lt]
    rw [pow4, show p - d = (p - 1 - d) + 1 by omega, Nat.pow_succ, Nat.mul_comm]
    exact Nat.mul_lt_mul_of_pos_left (Nat.mod_lt _ (by omega)) (Nat.pow_pos (by omega))

theorem rev4_eq_sum (p t : Nat) : rev4 p t = ∑ e ∈ Finset.range p, t / 4 ^ e % 4 * 4 ^ (p - 1 - e) :=
  rev4Loop_eq_sum p t p le_rfl

@[simp] theorem rev4_zero (t : Nat) : rev4 0 t = 0 := rfl

/-- The lowest digit goes to the top, the rest is reversed below it (the step of R174). -/
theorem rev4_succ (p t : Nat) : rev4 (p + 1) t = t % 4 * 4 ^ p + rev4 p (t / 4) := by
  rw [rev4_eq_sum, rev4_eq_sum, Finset.sum_range_succ']
  rw [Nat.add_comm]
  congr 1
  · simp
  · apply Finset.sum_congr rfl
    intro e he
    rw [Nat.pow_succ, Nat.mul_comm (4 ^ e) 4, ← Nat.div_div_eq_div_mul]
    congr 2
    omega

theorem rev4_lt (p t : Nat) : rev4 p t < 4 ^ p := by
  induction p generalizing t with
  | zero => simp
  | succ p ih =>
    rw [rev4_succ, Nat.pow_succ]
    have := ih (t / 4)
    have : t % 4 < 4 := Nat.mod_lt _ (by omega)
    nlinarith

/-- `rev4(p, 4u + r)` of R174: block `4u + r` takes the points congruent to `rev4 u + r * S`. -/
theorem rev4_block (p u r : Nat) (hr : r < 4) : rev4 (p + 1) (4 * u + r) = rev4 p u + r * 4 ^ p := by
  rw [rev4_succ, show (4 * u + r) % 4 = r by omega, show (4 * u + r) / 4 = u by omega, Nat.add_comm]

/-- The other way round: the highest digit goes to the bottom. -/
theorem rev4_add_high (p g t : Nat) (ht : t < 4 ^ p) (hg : g < 4) :
    rev4 (p + 1) (g * 4 ^ p + t) = 4 * rev4 p t + g := by
  induction p generalizing t with
  | zero =>
    have : t = 0 := by simpa using ht
    subst this
    simp [rev4_succ, Nat.mod_eq_of_lt hg]
  | succ p ih =>
    rw [rev4_succ (p + 1), rev4_succ p t]
    have e1 : (g * 4 ^ (p + 1) + t) % 4 = t % 4 := by
      rw [Nat.pow_succ, show g * (4 ^ p * 4) + t = t + 4 * (g * 4 ^ p) by ring, Nat.add_mul_mod_self_left]
    have e2 : (g * 4 ^ (p + 1) + t) / 4 = g * 4 ^ p + t / 4 := by
      rw [Nat.pow_succ, show g * (4 ^ p * 4) + t = t + 4 * (g * 4 ^ p) by ring, Nat.add_mul_div_left _ _ (by omega),
        Nat.add_comm]
    rw [e1, e2, ih (t / 4) (by rw [Nat.pow_succ] at ht; omega), Nat.pow_succ]
    ring

end Sys2Proof
end

