-- ==== Sys2Proof/Laws/Network.lean ====
section
/-! SUPPORT. The passes point by point, and the butterflies in exact arithmetic as complex numbers. -/

namespace Sys2Proof

section
variable {α : Type}

/-- Point `u*L + r*(L/4) + j` after a combine pass: output `r` of butterfly `j` of block `u` (R166, R167). -/
theorem combinePass_at (A : Arith α) (rom : Nat → Cplx α) (n ne q : Nat) (dir : Direction) (x : Nat → Cplx α)
    {l qu u r j : Nat} (hl : blockPoints ne q = l) (hq : l = 4 * qu) (hr : r < 4) (hj : j < qu) :
    combinePass A rom n ne q dir x (u * l + r * qu + j) =
      quadAt (r4bfly A rom dir (j * (2 ^ n / l)) (x (u * l + j)) (x (u * l + j + qu)) (x (u * l + j + 2 * qu))
        (x (u * l + j + 3 * qu))) r := by
  have hq0 : 0 < qu := by omega
  have hrq : r * qu + j < l := by
    have : r * qu ≤ 3 * qu := Nat.mul_le_mul_right _ (by omega)
    omega
  have h1 : (u * l + r * qu + j) / l = u := by
    rw [Nat.add_assoc, Nat.add_comm, Nat.add_mul_div_right _ _ (by omega), Nat.div_eq_of_lt hrq, Nat.zero_add]
  have h2 : (u * l + r * qu + j) % l = r * qu + j := by
    rw [Nat.add_assoc, Nat.add_comm, Nat.add_mul_mod_self_right, Nat.mod_eq_of_lt hrq]
  have h3 : (u * l + r * qu + j) % qu = j := by
    rw [hq, show u * (4 * qu) + r * qu + j = j + (u * 4 + r) * qu by ring, Nat.add_mul_mod_self_right,
      Nat.mod_eq_of_lt hj]
  have h4 : (r * qu + j) / qu = r := by
    rw [Nat.add_comm, Nat.add_mul_div_right _ _ hq0, Nat.div_eq_of_lt hj, Nat.zero_add]
  have h5 : l / 4 = qu := by omega
  simp only [combinePass, hl, h5, h1, h2, h3, h4]

/-- Point `2t + r` after a radix-2 base pass (R162, R163). -/
theorem basePass_two (A : Arith α) (perm : Nat → Nat) {ne : Nat} (dir : Direction) (x : Nat → Cplx α)
    (hb : baseBits ne = 1) (t : Nat) :
    basePass A perm ne dir x (2 * t) = cadd A (x (perm t)) (x (perm t + groups ne)) ∧
    basePass A perm ne dir x (2 * t + 1) = csub A (x (perm t)) (x (perm t + groups ne)) := by
  have hB : basePoints ne = 2 := by simp [basePoints, hb]
  have h2 : (2 * t + 1) / 2 = t := by omega
  have h3 : (2 * t + 1) % 2 = 1 := by omega
  constructor <;> simp [basePass, hB, hb, base2, h2, h3]

/-- Point `4t + r` after a radix-4 base pass (R162, R165). -/
theorem basePass_four (A : Arith α) (perm : Nat → Nat) {ne : Nat} (dir : Direction) (x : Nat → Cplx α)
    (hb : baseBits ne = 2) (t : Nat) {r : Nat} (hr : r < 4) :
    basePass A perm ne dir x (4 * t + r) =
      quadAt (bfly4 A dir (x (perm t)) (x (perm t + groups ne)) (x (perm t + 2 * groups ne))
        (x (perm t + 3 * groups ne))) r := by
  have hB : basePoints ne = 4 := by simp [basePoints, hb]
  have h2 : (4 * t + r) / 4 = t := by omega
  have h3 : (4 * t + r) % 4 = r := by omega
  simp [basePass, hB, hb, h2, h3]

end

open Claims

@[simp] theorem toComplex_cadd (x y : Cplx ℝ) : toComplex (cadd (exactArith ℝ) x y) = toComplex x + toComplex y := by
  apply Complex.ext <;> simp [toComplex, cadd, exactArith]

@[simp] theorem toComplex_csub (x y : Cplx ℝ) : toComplex (csub (exactArith ℝ) x y) = toComplex x - toComplex y := by
  apply Complex.ext <;> simp [toComplex, csub, exactArith]

@[simp] theorem toComplex_cmul (x y : Cplx ℝ) : toComplex (cmul (exactArith ℝ) x y) = toComplex x * toComplex y := by
  apply Complex.ext <;> simp [toComplex, cmul, exactArith]

@[simp] theorem toComplex_cconj (x : Cplx ℝ) :
    toComplex (cconj (exactArith ℝ) x) = (starRingEnd ℂ) (toComplex x) := by
  apply Complex.ext <;> simp [toComplex, cconj, exactArith]

/-- The sign of the exponent in a direction: `-1` forward, `+1` inverse (R160). -/
def expSign : Direction → ℂ
  | .forward => -1
  | .inverse => 1

/-- `-i` forward, `+i` inverse: the primitive fourth root the radix-4 kernel turns by (R164). -/
theorem bfly4_exact (dir : Direction) (a b c d : Cplx ℝ) {r : Nat} (hr : r < 4) :
    toComplex (quadAt (bfly4 (exactArith ℝ) dir a b c d) r) =
      toComplex a + (expSign dir * Complex.I) ^ r * toComplex b +
        (expSign dir * Complex.I) ^ (2 * r) * toComplex c + (expSign dir * Complex.I) ^ (3 * r) * toComplex d := by
  have hI2 : (Complex.I : ℂ) ^ 2 = -1 := Complex.I_sq
  have hI3 : (Complex.I : ℂ) ^ 3 = -Complex.I := by rw [pow_succ, hI2]; ring
  have hI4 : (Complex.I : ℂ) ^ 4 = 1 := Complex.I_pow_four
  have hI6 : (Complex.I : ℂ) ^ 6 = -1 := by rw [show 6 = 4 + 2 from rfl, pow_add, hI4, hI2]; ring
  have hI9 : (Complex.I : ℂ) ^ 9 = Complex.I := by rw [show 9 = 4 + 4 + 1 from rfl, pow_add, pow_add, hI4]; ring
  have n2 : (-1 : ℂ) ^ 2 = 1 := by norm_num
  have n3 : (-1 : ℂ) ^ 3 = -1 := by norm_num
  have n4 : (-1 : ℂ) ^ 4 = 1 := by norm_num
  have n6 : (-1 : ℂ) ^ 6 = 1 := by norm_num
  have n9 : (-1 : ℂ) ^ 9 = -1 := by norm_num
  interval_cases r <;> cases dir <;>
    · simp only [expSign, mul_pow, hI2, hI3, hI4, hI6, hI9, n2, n3, n4, n6, n9, one_pow, pow_zero, pow_one, Nat.mul_zero,
        Nat.mul_one, Nat.reduceMul]
      apply Complex.ext <;> simp [quadAt, bfly4, toComplex, cadd, csub, exactArith, sgn] <;> ring

/-- The twiddle a direction uses, for an exact ROM: `e^(∓2 pi i k / N)` (R105, R142). -/
theorem twiddle_exact {n : Nat} {rom : Nat → Cplx ℝ} (h : ExactRom n rom) (dir : Direction) {k : Nat} (hk : k < 2 ^ n) :
    toComplex (twiddle (exactArith ℝ) dir (rom k)) =
      Complex.exp (expSign dir * (2 * Real.pi * Complex.I * k / 2 ^ n)) := by
  have e : ∀ θ : ℝ, Complex.exp (θ * Complex.I) = ⟨Real.cos θ, Real.sin θ⟩ := by
    intro θ
    rw [Complex.exp_mul_I]
    apply Complex.ext <;> simp [Complex.cos_ofReal_re, Complex.sin_ofReal_re, Complex.cos_ofReal_im, Complex.sin_ofReal_im]
  rw [h k hk]
  cases dir
  · rw [show (expSign .forward * (2 * Real.pi * Complex.I * k / 2 ^ n) : ℂ) =
        ((-(2 * Real.pi * k / 2 ^ n) : ℝ) : ℂ) * Complex.I by
      simp only [expSign]; push_cast; ring, e, Real.cos_neg, Real.sin_neg]
    rfl
  · rw [show (expSign .inverse * (2 * Real.pi * Complex.I * k / 2 ^ n) : ℂ) =
        ((2 * Real.pi * k / 2 ^ n : ℝ) : ℂ) * Complex.I by
      simp only [expSign]; push_cast; ring, e]
    simp [toComplex, twiddle, sgn, exactArith]

end Sys2Proof
end

