-- ==== Sys2Proof/Laws/PerInstr.lean ====
section
/-! SUPPORT. Statements made of every command, one lemma for each constructor. -/

namespace Sys2Proof.Laws

/-- The word of a command carries the command's opcode and a zero `RSV` field (R81, R85), and the buffers its fields name
are within `NBUF` exactly when the command is well-formed (R84 (3)). -/
def Encoding.Statement (i : Instr) : Prop :=
  rsvField (encode i) = 0 ∧ (opcField (encode i)).toNat = i.opc ∧
    ∀ nbuf, 1 ≤ nbuf →
      (i.wf nbuf = true ↔ (dstField (encode i)).toNat < nbuf ∧ (srcField (encode i)).toNat < nbuf)

theorem Encoding.nop : Encoding.Statement .nop := by
  refine ⟨by decide, by decide, fun nbuf h => ?_⟩
  have hd : (dstField (encode .nop)).toNat = 0 := by decide
  have hs : (srcField (encode .nop)).toNat = 0 := by decide
  rw [hd, hs]
  simp only [Instr.wf, true_iff]
  omega

theorem Encoding.fft (dst src : BufNo) : Encoding.Statement (.fft dst src) := by
  obtain ⟨h1, h2, h3, h4⟩ := encodeFields_fields 1 (by decide) dst src
  exact ⟨h1, h2, fun nbuf _ => by simp [encode, h3, h4, Instr.wf, legalBuf]⟩

theorem Encoding.ifft (dst src : BufNo) : Encoding.Statement (.ifft dst src) := by
  obtain ⟨h1, h2, h3, h4⟩ := encodeFields_fields 2 (by decide) dst src
  exact ⟨h1, h2, fun nbuf _ => by simp [encode, h3, h4, Instr.wf, legalBuf]⟩

theorem Encoding.rfft (dst src : BufNo) : Encoding.Statement (.rfft dst src) := by
  obtain ⟨h1, h2, h3, h4⟩ := encodeFields_fields 3 (by decide) dst src
  exact ⟨h1, h2, fun nbuf _ => by simp [encode, h3, h4, Instr.wf, legalBuf]⟩

theorem Encoding.cspec (dst : BufNo) : Encoding.Statement (.cspec dst) := by
  obtain ⟨h1, h2, h3, h4⟩ := encodeFields_fields 4 (by decide) dst 0
  refine ⟨h1, h2, fun nbuf h => ?_⟩
  rw [show dstField (encode (.cspec dst)) = dst from h3, show srcField (encode (.cspec dst)) = 0 from h4]
  simp only [Instr.wf, legalBuf, decide_eq_true_eq, iff_self_and]
  exact fun _ => h

end Sys2Proof.Laws
end

