-- ==== Sys2Proof/Laws/Sequencer.lean ====
section
/-! SUPPORT. Arrays and loops of the pseudocode: what one write changes, one step of a loop, the invariant rule, and how a sequence of
micro-operations runs and is counted. -/

namespace Sys2Proof

section
variable {α : Type}

@[simp] theorem setWord_same (a : Nat → α) (i : Nat) (v : α) : setWord a i v i = v := by simp [setWord]

theorem setWord_other (a : Nat → α) {i j : Nat} (v : α) (h : j ≠ i) : setWord a i v j = a j := by simp [setWord, h]

@[simp] theorem setPoint_re (a : Nat → α) (i : Nat) (z : Cplx α) : setPoint a i z i = z.re := by
  simp [setPoint, setWord]

@[simp] theorem setPoint_im (a : Nat → α) (i : Nat) (z : Cplx α) : setPoint a i z (i + 1) = z.im := by
  simp [setPoint]

theorem setPoint_other (a : Nat → α) {i j : Nat} (z : Cplx α) (h : j ≠ i) (h' : j ≠ i + 1) :
    setPoint a i z j = a j := by
  simp [setPoint, setWord, h, h']

@[simp] theorem loop_zero (body : Nat → (Nat → α) → (Nat → α)) (a : Nat → α) : loop 0 body a = a := rfl

theorem loop_succ (k : Nat) (body : Nat → (Nat → α) → (Nat → α)) (a : Nat → α) :
    loop (k + 1) body a = body k (loop k body a) := rfl

/-- A property that every turn of a loop carries from `k` to `k + 1` holds at the loop's end. -/
theorem loop_induction (P : Nat → (Nat → α) → Prop) {m : Nat} {body : Nat → (Nat → α) → (Nat → α)} {a : Nat → α}
    (h0 : P 0 a) (hs : ∀ k x, k < m → P k x → P (k + 1) (body k x)) : P m (loop m body a) := by
  induction m with
  | zero => exact h0
  | succ m ih => exact hs m _ (Nat.lt_succ_self m) (ih fun k x hk => hs k x (Nat.lt_succ_of_lt hk))

/-- Loops whose turns agree agree. -/
theorem loop_congr {m : Nat} {f g : Nat → (Nat → α) → (Nat → α)} (a : Nat → α)
    (h : ∀ k x, k < m → f k x = g k x) : loop m f a = loop m g a := by
  induction m with
  | zero => rfl
  | succ m ih => rw [loop_succ, loop_succ, ih fun k x hk => h k x (by omega), h _ _ (by omega)]

/-- Word `2k` and word `2k + 1` of an interleaved array are the parts of its point `k` (R14). -/
@[simp] theorem wordOf_even (x : Nat → Cplx α) (k : Nat) : wordOf x (2 * k) = (x k).re := by simp [wordOf]

@[simp] theorem wordOf_odd (x : Nat → Cplx α) (k : Nat) : wordOf x (2 * k + 1) = (x k).im := by
  have h1 : (2 * k + 1) % 2 = 1 := by omega
  have h2 : (2 * k + 1) / 2 = k := by omega
  simp [wordOf, h1, h2]

/-- Reading an array as points and back as words changes nothing (R14). -/
@[simp] theorem wordOf_pointOf (a : Nat → α) (i : Nat) : wordOf (pointOf a) i = a i := by
  obtain h | h := Nat.mod_two_eq_zero_or_one i
  · obtain ⟨k, rfl⟩ : ∃ k, i = 2 * k := ⟨i / 2, by omega⟩
    simp [pointOf]
  · obtain ⟨k, rfl⟩ : ∃ k, i = 2 * k + 1 := ⟨i / 2, by omega⟩
    simp [pointOf]

theorem pointAt_even (a : Nat → α) (k : Nat) : pointAt a (2 * k) = pointOf a k := rfl

@[simp] theorem runOps_nil (A : Arith α) (perm : Nat → Nat) (tw : Nat → α) (n ne : Nat) (dir : Direction)
    (inp out : Nat → α) : runOps A perm tw n ne dir inp [] out = out := rfl

@[simp] theorem runOps_cons (A : Arith α) (perm : Nat → Nat) (tw : Nat → α) (n ne : Nat) (dir : Direction)
    (inp out : Nat → α) (op : MicroOp) (ops : List MicroOp) :
    runOps A perm tw n ne dir inp (op :: ops) out =
      runOps A perm tw n ne dir inp ops (microOp A perm tw n ne dir inp out op) := rfl

/-- One sequence after another. -/
theorem runOps_append (A : Arith α) (perm : Nat → Nat) (tw : Nat → α) (n ne : Nat) (dir : Direction)
    (inp out : Nat → α) (xs ys : List MicroOp) :
    runOps A perm tw n ne dir inp (xs ++ ys) out =
      runOps A perm tw n ne dir inp ys (runOps A perm tw n ne dir inp xs out) := by
  simp [runOps]

/-- A sequence built over `0 .. m-1` runs as a loop whose turn `k` runs the part of `k`. -/
theorem runOps_flatMap (A : Arith α) (perm : Nat → Nat) (tw : Nat → α) (n ne : Nat) (dir : Direction)
    (inp out : Nat → α) (m : Nat) (f : Nat → List MicroOp) :
    runOps A perm tw n ne dir inp ((List.range m).flatMap f) out =
      loop m (fun k out => runOps A perm tw n ne dir inp (f k) out) out := by
  induction m with
  | zero => rfl
  | succ m ih => simp [List.range_succ, runOps_append, ih, loop_succ]

/-- The same for one micro-operation a turn. -/
theorem runOps_map (A : Arith α) (perm : Nat → Nat) (tw : Nat → α) (n ne : Nat) (dir : Direction)
    (inp out : Nat → α) (m : Nat) (f : Nat → MicroOp) :
    runOps A perm tw n ne dir inp ((List.range m).map f) out =
      loop m (fun k out => microOp A perm tw n ne dir inp out (f k)) out := by
  induction m with
  | zero => rfl
  | succ m ih => simp [List.range_succ, runOps_append, ih, loop_succ]

end

/-- What the micro-operations of an engine are: the copy of one point, a base butterfly of each group, and the combine
butterflies of each pass, block and position. -/
theorem mem_engineOps {n ne : Nat} {op : MicroOp} (h : op ∈ engineOps n ne) :
    (ne = 0 ∧ op = .copy) ∨
    (ne ≠ 0 ∧ ∃ t, t < groups ne ∧ op = if basePoints ne = 2 then .base2 t else .base4 t) ∨
    (ne ≠ 0 ∧ ∃ q m j, q < passes ne ∧ m < 2 * 2 ^ ne / (2 * blockPoints ne (q + 1)) ∧ j < blockPoints ne (q + 1) / 4 ∧
      op = .r4bfly (m * (2 * blockPoints ne (q + 1)) + 2 * j) (2 * blockPoints ne (q + 1) / 4)
        (j * (2 * 2 ^ n / blockPoints ne (q + 1)))) := by
  unfold engineOps at h
  by_cases h0 : ne = 0
  · rw [if_pos h0] at h
    exact .inl ⟨h0, by simpa using h⟩
  · rw [if_neg h0] at h
    simp only [List.mem_append, List.mem_map, List.mem_flatMap, List.mem_range] at h
    rcases h with ⟨t, ht, rfl⟩ | ⟨q, hq, m, hm, j, hj, rfl⟩
    · exact .inr (.inl ⟨h0, t, ht, rfl⟩)
    · exact .inr (.inr ⟨h0, q, m, j, hq, hm, hj, rfl⟩)

/-- The operations of two sequences, one after the other, add up. -/
theorem countOps_append (xs ys : List MicroOp) :
    countOps (xs ++ ys) =
      ⟨(countOps xs).adds + (countOps ys).adds, (countOps xs).muls + (countOps ys).muls,
        (countOps xs).divs + (countOps ys).divs⟩ := by
  induction xs with
  | nil => simp [countOps]
  | cons x xs ih => simp [countOps, ih, Nat.add_assoc]

end Sys2Proof
end

