-- ==== Sys2Proof/Tests/Slice0.lean ====
section
/-! SUPPORT. The model's own tests. Expected results are the spec's: the encoding examples (R89, V20), its worked examples and
its vectors (95_test_vectors.md). Below them, one witness for each statement that has hypotheses. -/

namespace Sys2Proof.Test
open Machine Claims

/-! ### Helpers -/

/-- An idle instance of `2^n` points and two buffers, right after reset. -/
def inst (n : Nat) : State := State.ofContext (contextOf n) 2 .rne

/-- The same with words in buffer `b` from word `i` on. -/
def loaded (n : Nat) (b : BufNo) (i : Nat) (ws : List Word) : State := writeBuf b i ws (inst n)

/-- An instance of four points and `nb` buffers with a command in flight. -/
def inFlight (nb : Nat) (w : Reg) : State := issue w (State.ofContext (contextOf 2) nb .rne)

/-- The twiddle ROM of `N = 8` that V6 prints. -/
def romV6 : List Word :=
  [0x3FF0000000000000#64, 0x8000000000000000#64, 0x3FE6A09E667F3BCD#64, 0xBFE6A09E667F3BCC#64,
    0x3C91A62633145C07#64, 0xBFF0000000000000#64, 0xBFE6A09E667F3BCC#64, 0xBFE6A09E667F3BCD#64,
    0xBFF0000000000000#64, 0xBCA1A62633145C07#64, 0xBFE6A09E667F3BCE#64, 0x3FE6A09E667F3BCC#64,
    0xBCAA79394C9E8A0A#64, 0x3FF0000000000000#64, 0x3FE6A09E667F3BCB#64, 0x3FE6A09E667F3BCE#64]

/-- An instance of eight points with the ROM of V6 and words in buffer 0. -/
def loadedV6 (ws : List Word) : State := { loaded 3 0 0 ws with tw := romV6 }

/-- Words `0 .. k-1` of a buffer and `STATUS` after a command. -/
def words (r : Result) (b : BufNo) (k : Nat) : Option (List (Option Word) × Reg) :=
  match r with
  | .next t => some ((List.range k).map (bufWord t b), t.status)
  | .fault _ => none
  | .refused _ => none

/-- Whether a command ends in a next state with the given `STATUS`. -/
def endsWith (r : Result) (st : Reg) : Bool :=
  match r with
  | .next t => decide (t.status = st)
  | .fault _ => false
  | .refused _ => false

/-- Whether there is a next state. -/
def runs (r : Result) : Bool :=
  match r with
  | .next _ => true
  | .fault _ => false
  | .refused _ => false

theorem next_of_runs {r : Result} (h : runs r = true) : ∃ t, r = .next t := by
  cases r with
  | next t => exact ⟨t, rfl⟩
  | fault _ => cases h
  | refused _ => cases h

/-! ### Well-formedness refuses -/

theorem test_wf_fft_dst : Instr.wf 4 (.fft 4 0) = false := by decide
theorem test_wf_fft_src : Instr.wf 4 (.fft 0 4) = false := by decide
theorem test_wf_ifft_dst : Instr.wf 4 (.ifft 4 0) = false := by decide
theorem test_wf_ifft_src : Instr.wf 4 (.ifft 0 4) = false := by decide
theorem test_wf_rfft_dst : Instr.wf 4 (.rfft 4 0) = false := by decide
theorem test_wf_rfft_src : Instr.wf 4 (.rfft 0 4) = false := by decide
theorem test_wf_cspec_dst : Instr.wf 4 (.cspec 4) = false := by decide
theorem test_wf_boundary : Instr.wf 4 (.fft 3 3) = true ∧ Instr.wf 16 (.fft 15 4) = true := by decide
theorem test_aliased : Instr.aliased (.fft 1 1) = true ∧ Instr.aliased (.ifft 2 2) = true ∧
    Instr.aliased (.rfft 3 3) = true ∧ Instr.aliased (.rfft 3 2) = false ∧ Instr.aliased (.cspec 0) = false := by decide

/-! ### Decoding, from the words of R89 and V20, and one word written out field by field -/

theorem test_decode_nop : decode 0x00000000#32 = .ok .nop := by decide
theorem test_decode_fft : decode 0x00000011#32 = .ok (.fft 1 0) ∧ decode 0x00000321#32 = .ok (.fft 2 3) := by decide
theorem test_decode_ifft : decode 0x00000122#32 = .ok (.ifft 2 1) ∧ decode 0x00000012#32 = .ok (.ifft 1 0) := by decide
theorem test_decode_rfft : decode 0x00000033#32 = .ok (.rfft 3 0) ∧ decode 0x00000333#32 = .ok (.rfft 3 3) := by decide
theorem test_decode_cspec : decode 0x00000034#32 = .ok (.cspec 3) ∧ decode 0x00000004#32 = .ok (.cspec 0) := by decide
/-- RSV = 0, SRC = 0b1010, DST = 0b0110, OPC = 0b0010. -/
theorem test_decode_bits : decode 0b00000000000000000000101001100010#32 = .ok (.ifft 6 10) := by decide
theorem test_decode_rejects :
    decode 0x00000005#32 = .error .opcode ∧ decode 0x0000000F#32 = .error .opcode ∧
    decode 0x00001011#32 = .error .reservedBits ∧ decode 0x80000000#32 = .error .reservedBits ∧
    decode 0x00000010#32 = .error .operandField ∧ decode 0x00000100#32 = .error .operandField ∧
    decode 0x00000134#32 = .error .operandField ∧ decode 0xFFFFFFFF#32 = .error .reservedBits := by decide
theorem test_table_word : decodeTableWord 32 0x00000122 = some (.ifft 2 1) ∧ decodeTableWord 32 0x5 = none := by decide
theorem test_text : Instr.text (.fft 1 0) = "FFT b1, b0" ∧ Instr.text (.cspec 3) = "CSPEC b3" := by decide

/-! ### Commands: at most two one-step tests each -/

/-- V20, V21. -/
theorem test_nop : endsWith (step (inFlight 4 0x00000000#32)) 0x02#32 = true := by decide
/-- S5: the size-4 example that decides 90_conflicts.md C3. -/
theorem test_fft_n4 : words (exec (.fft 1 0) (loaded 2 0 0
    [0x3FF0000000000000#64, 0x0000000000000000#64, 0x3FE6A09CC319C5A4#64, 0x0000000000000000#64,
    0x0000000000000000#64, 0x0000000000000000#64, 0xBFE6A09CC319C5A4#64, 0x0000000000000000#64])) 1 8 =
    some ((
    [0x3FF0000000000000#64, 0x0000000000000000#64, 0x3FF0000000000000#64, 0xBFF6A09CC319C5A4#64,
    0x3FF0000000000000#64, 0x0000000000000000#64, 0x3FF0000000000000#64, 0x3FF6A09CC319C5A4#64]).map some, 0x02#32) := by decide +kernel
/-- R179: `N = 8`, the ramp, with the ROM of V6; the first four points. -/
theorem test_fft_n8 : words (exec (.fft 1 0) (loadedV6
    [0x3FF0000000000000#64, 0x0000000000000000#64, 0x4000000000000000#64, 0x0000000000000000#64,
    0x4008000000000000#64, 0x0000000000000000#64, 0x4010000000000000#64, 0x0000000000000000#64,
    0x4014000000000000#64, 0x0000000000000000#64, 0x4018000000000000#64, 0x0000000000000000#64,
    0x401C000000000000#64, 0x0000000000000000#64, 0x4020000000000000#64, 0x0000000000000000#64])) 1 8 =
    some ((
    [0x4042000000000000#64, 0x0000000000000000#64, 0xC010000000000000#64, 0x4023504F333F9DE6#64,
    0xC010000000000000#64, 0x4010000000000000#64, 0xC010000000000000#64, 0x3FFA827999FCEF30#64]).map some, 0x02#32) := by decide +kernel
/-- V41: the inverse direction at `N = 4`, divided by 4. -/
theorem test_ifft_n4 : words (exec (.ifft 1 0) (loaded 2 0 0
    [0x3FF0000000000000#64, 0x4000000000000000#64, 0x4008000000000000#64, 0x4010000000000000#64,
    0x4014000000000000#64, 0x4018000000000000#64, 0x401C000000000000#64, 0x4020000000000000#64])) 1 8 =
    some ((
    [0x4010000000000000#64, 0x4014000000000000#64, 0x0000000000000000#64, 0xC000000000000000#64,
    0xBFF0000000000000#64, 0xBFF0000000000000#64, 0xC000000000000000#64, 0x0000000000000000#64]).map some, 0x02#32) := by decide +kernel
/-- V72: a subnormal tie in SCALE rounds to even. -/
theorem test_ifft_subnormal : words (exec (.ifft 1 0) (loaded 1 0 0
    [0x0000000000000003#64, 0x0000000000000000#64, 0x0000000000000000#64, 0x0000000000000000#64])) 1 4 =
    some ((
    [0x0000000000000002#64, 0x0000000000000000#64, 0x0000000000000002#64, 0x0000000000000000#64]).map some, 0x02#32) := by decide +kernel
/-- V50: `N = 8`; words 0 to 9 are written, word 10 keeps what it held, which is nothing. -/
theorem test_rfft_n8 : words (exec (.rfft 1 0) (loadedV6
    [0x3FF0000000000000#64, 0x4000000000000000#64, 0x4008000000000000#64, 0x4010000000000000#64,
    0x4014000000000000#64, 0x4018000000000000#64, 0x401C000000000000#64, 0x4020000000000000#64])) 1 11 =
    some ((
    [0x4042000000000000#64, 0x0000000000000000#64, 0xC010000000000000#64, 0x4023504F333F9DE6#64,
    0xC010000000000000#64, 0x4010000000000000#64, 0xC00FFFFFFFFFFFFF#64, 0x3FFA827999FCEF30#64,
    0xC010000000000000#64, 0x0000000000000000#64]).map some ++ [none], 0x02#32) := by decide +kernel
/-- V60: `N = 2`, words 2 and 3 of the source never written. -/
theorem test_rfft_n2 : words (exec (.rfft 1 0) (loaded 1 0 0
    [0x4008000000000000#64, 0x4014000000000000#64])) 1 4 =
    some ((
    [0x4020000000000000#64, 0x0000000000000000#64, 0xC000000000000000#64, 0x0000000000000000#64]).map some, 0x02#32) := by decide +kernel
/-- V66: CSPEC on arbitrary data. -/
theorem test_cspec_n8 : words (exec (.cspec 0) (loaded 3 0 0
    [0x0000000000000000#64, 0x3FE0000000000000#64, 0x3FF0000000000000#64, 0xBFF0000000000000#64,
    0x4000000000000000#64, 0xC000000000000000#64, 0x4008000000000000#64, 0xC008000000000000#64,
    0x4010000000000000#64, 0x3FD0000000000000#64, 0x4022000000000000#64, 0x4022000000000000#64,
    0x4022000000000000#64, 0x4022000000000000#64, 0x4022000000000000#64, 0x4022000000000000#64])) 0 16 =
    some ((
    [0x0000000000000000#64, 0x3FE0000000000000#64, 0x3FF0000000000000#64, 0xBFF0000000000000#64,
    0x4000000000000000#64, 0xC000000000000000#64, 0x4008000000000000#64, 0xC008000000000000#64,
    0x4010000000000000#64, 0x3FD0000000000000#64, 0x4008000000000000#64, 0x4008000000000000#64,
    0x4000000000000000#64, 0x4000000000000000#64, 0x3FF0000000000000#64, 0x3FF0000000000000#64]).map some, 0x02#32) := by decide +kernel
/-- V36: an infinity and a negative zero mirrored. -/
theorem test_cspec_n4 : words (exec (.cspec 1) (loaded 2 1 0
    [0x3FF0000000000000#64, 0x4000000000000000#64, 0x7FF0000000000000#64, 0x8000000000000000#64,
    0x4014000000000000#64, 0x4018000000000000#64, 0x4022000000000000#64, 0x4022000000000000#64])) 1 8 =
    some ((
    [0x3FF0000000000000#64, 0x4000000000000000#64, 0x7FF0000000000000#64, 0x8000000000000000#64,
    0x4014000000000000#64, 0x4018000000000000#64, 0x7FF0000000000000#64, 0x0000000000000000#64]).map some, 0x02#32) := by decide +kernel

/-! ### Faults (V20, R256), construction (V1, V4, V8), the host's side (V9) -/

theorem test_illegal : endsWith (step (inFlight 4 0x00000005#32)) 0x22#32 = true ∧
    endsWith (step (inFlight 4 0x00000041#32)) 0x22#32 = true ∧ endsWith (step (inFlight 4 0x00000551#32)) 0x22#32 = true ∧
    endsWith (step (inFlight 4 0x00001111#32)) 0x22#32 = true ∧ endsWith (step (inFlight 4 0x00000044#32)) 0x22#32 = true := by
  decide
theorem test_aliased_fault : endsWith (step (inFlight 4 0x00000111#32)) 0x12#32 = true ∧
    endsWith (step (inFlight 16 0x00000FF1#32)) 0x12#32 = true := by decide
/-- V74: words 4 to 7 of the source never written. -/
theorem test_unwritten : exec (.fft 1 0) (loaded 2 0 0
    [0x3FF0000000000000#64, 0x4000000000000000#64, 0x4008000000000000#64, 0x4010000000000000#64]) = .fault .unwrittenWord := by rfl
theorem test_construct : (construct 12 = .error .invalidSize) ∧ (construct (-1) = .error .invalidSize) ∧
    (construct 1 = .error .invalidSize) ∧ (construct 16384 = .ok (contextOf 14)) := by
  refine ⟨?_, ?_, ?_, ?_⟩ <;> rfl
theorem test_br : reversalTable 5 = [0, 4, 8, 12, 1, 5, 9, 13, 2, 6, 10, 14, 3, 7, 11, 15] := by decide
theorem test_rev4 : rev4 3 27 = 57 ∧ rev4 2 11 = 14 ∧ rev4 3 1 = 16 := by decide
theorem test_cfg : cfgValue 3 4 = 0x00000303#32 ∧ cfgValue 14 16 = 0x00000F0E#32 ∧ cfgValue 1 2 = 0x00000101#32 := by decide
theorem test_data_addresses : wordAddr (inst 3) 0 6 = 0x030 ∧ wordAddr (inst 3) 1 0 = 0x080 ∧ wordAddr (inst 3) 3 15 = 0x1F8 := by
  decide
theorem test_marshal : toComplexArray [0x1#64, 0x2#64] = [0x1#64, 0#64, 0x2#64, 0#64] := by decide

/-! ### Witnesses: for each statement with hypotheses, inputs that meet them all, at the boundary values of each clause -/

/-- The instances used are sound. -/
theorem inst_inv {n : Nat} (h : n = 1 ∨ n = 2 ∨ n = 3) : (inst n).Inv := by
  have hl : (inst n).logN = n := by rcases h with rfl | rfl | rfl <;> decide
  have hb : (inst n).nbuf = 2 := by rcases h with rfl | rfl | rfl <;> decide
  refine ⟨rfl, ?_, by omega, by omega, ?_, ?_, by simp [inst, State.ofContext, statusValues], List.Pairwise.nil, ?_, ?_⟩
  · rw [hl, hb]; rfl
  · rw [hl]; rfl
  · rw [hl]; rfl
  · intro c hc; simp [inst, State.ofContext] at hc
  · intro a ha; simp [inst, State.ofContext, readByte] at ha

theorem loaded_inv {n : Nat} (h : n = 1 ∨ n = 2 ∨ n = 3) {b : BufNo} (hb : b.toNat < 2) {i : Nat} {ws : List Word}
    (hk : i + ws.length ≤ 2 * (inst n).size) : (loaded n b i ws).Inv := by
  have hn : (inst n).nbuf = 2 := by rcases h with rfl | rfl | rfl <;> decide
  exact Inv_writeBuf (inst_inv h) (by omega) hk (inst n).draws

theorem loaded_written (n : Nat) (b : BufNo) (i : Nat) (ws : List Word) :
    Written (loaded n b i ws) b i ws.length := by
  intro j h1 h2
  obtain ⟨k, rfl⟩ : ∃ k, j = i + k := ⟨j - i, by omega⟩
  rw [loaded, bufWord_writeBuf _ (by omega)]
  rfl

/-- Eight words for buffer 0 of a four-point instance. -/
def eight : List Word := [1#64, 2#64, 3#64, 4#64, 5#64, 6#64, 7#64, 8#64]

/-- A four-point instance with buffer 0 written. -/
def full : State := loaded 2 0 0 eight

theorem full_inv : full.Inv := loaded_inv (.inr (.inl rfl)) (by decide) (by decide)
theorem full_two : TwoBuffers full 1 0 := by decide
theorem full_written : Written full 0 0 (2 * full.size) := loaded_written 2 0 0 eight
theorem full_read : ∃ ws, readBuf full 0 0 (2 * full.size) = some ws :=
  readBuf_of_written fun j hj => by rw [Nat.zero_add]; exact full_written j (Nat.zero_le _) (by omega)

theorem full_fft : ∃ t, exec (.fft 1 0) full = .next t := by
  obtain ⟨ws, h⟩ := full_read
  exact ⟨_, by rw [execFft_eq, withTwoBuffers_run _ full_two.1 full_two.2.1 full_two.2.2, transform_of_read h]⟩
theorem full_ifft : ∃ t, exec (.ifft 1 0) full = .next t := by
  obtain ⟨ws, h⟩ := full_read
  exact ⟨_, by rw [execIfft_eq, withTwoBuffers_run _ full_two.1 full_two.2.1 full_two.2.2, transform_of_read h]⟩
theorem full_rfft : ∃ t, exec (.rfft 1 0) full = .next t := by
  obtain ⟨ws, h⟩ : ∃ ws, readBuf full 0 0 full.size = some ws :=
    readBuf_of_written fun j hj => by rw [Nat.zero_add]; exact full_written j (Nat.zero_le _) (by omega)
  exact ⟨_, by rw [execRfft_eq, withTwoBuffers_run _ full_two.1 full_two.2.1 full_two.2.2, transform_of_read h]⟩
theorem full_cspec : ∃ t, exec (.cspec 0) full = .next t := next_of_runs rfl

theorem witness_EncodedFieldsOfCommands : rsvOf 0x00001000#32 ≠ 0 ∧ rsvOf 0x80000000#32 ≠ 0 := by decide

theorem witness_EngineTurnRunsDecodedCommand :
    (inFlight 2 0x11#32).busy = true ∧ decode (inFlight 2 0x11#32).cmd = .ok (.fft 1 0) ∧ (inFlight 2 0x11#32).turns = [] ∧
    (placeCommand 0x11#32 (inst 2)).busy = true ∧ (placeCommand 0x11#32 (inst 2)).turns = .engine :: [] ∧
    ({ inFlight 2 0x11#32 with turns := [.await] } : State).turns = .await :: [] ∧
    (inst 2).busy = false ∧ (inst 2).turns = [] ∧
    ({ inst 2 with turns := [.engine, .await] } : State).turns = .engine :: [.await] ∧
    ({ inst 2 with turns := [.host .reset, .engine] } : State).turns = .host .reset :: [.engine] ∧
    ({ raise .illegalCommand (inst 2) with turns := [.stopOnFault, .engine] } : State).errCode = 2 ∧
    ({ complete (inst 2) with turns := [.stopOnFault, .engine] } : State).errCode = 0 := by decide

theorem witness_PlacedCommandRunsNext : decode (BitVec.ofNat 32 (0x122 % 2 ^ 32)) = .ok (.ifft 2 1) := by decide

/-- Every kind of turn list that gives the engine its turn. -/
theorem engineHasTurn_cases (s : State) (l : List Turn) :
    EngineHasTurn { s with turns := [] } { s with turns := [] } ∧
    EngineHasTurn { s with turns := .await :: l } { s with turns := .await :: l } ∧
    EngineHasTurn { s with turns := .engine :: l } { s with turns := l } :=
  ⟨.inl ⟨rfl, .inl rfl⟩, .inl ⟨rfl, .inr ⟨l, rfl⟩⟩, .inr ⟨l, rfl, rfl⟩⟩

theorem witness_IllegalWordsFault :
    ∀ w ∈ [0x00001011#32, 0x80000000#32, 0x00000005#32, 0x0000000F#32, 0x00000010#32, 0x00000100#32, 0x00000134#32,
      0x00000044#32, 0x00000041#32, 0x00000401#32],
      (inFlight 4 w).busy = true ∧ EngineHasTurn (inFlight 4 w) (inFlight 4 w) ∧ IllegalWord (inFlight 4 w).nbuf (inFlight 4 w).cmd := by
  intro w hw
  refine ⟨?_, .inl ⟨rfl, .inl rfl⟩, ?_⟩
  · exact issue_busy _ _
  · simp only [List.mem_cons, List.not_mem_nil, or_false] at hw
    rcases hw with rfl | rfl | rfl | rfl | rfl | rfl | rfl | rfl | rfl | rfl <;> decide

theorem witness_AliasedWordsFault :
    (inFlight 4 0x111#32).busy = true ∧ EngineHasTurn (inFlight 4 0x111#32) (inFlight 4 0x111#32) ∧
    ¬IllegalWord (inFlight 4 0x111#32).nbuf (inFlight 4 0x111#32).cmd ∧ AliasedWord (inFlight 4 0x111#32).cmd ∧
    ¬IllegalWord (inFlight 4 0x332#32).nbuf (inFlight 4 0x332#32).cmd ∧
    ∃ t, step (inFlight 4 0x111#32) = .next t ∧ t.errCode = 1 := by
  refine ⟨rfl, .inl ⟨rfl, .inl rfl⟩, ?_, ?_, ?_, raise .aliasedBuffers (inFlight 4 0x111#32), rfl, rfl⟩
  · decide
  · decide
  · decide

theorem witness_LegalWordsComplete :
    (inFlight 4 0x031#32).busy = true ∧ EngineHasTurn (inFlight 4 0x031#32) (inFlight 4 0x031#32) ∧
    ¬IllegalWord (inFlight 4 0x031#32).nbuf (inFlight 4 0x031#32).cmd ∧ ¬AliasedWord (inFlight 4 0x031#32).cmd ∧
    ¬IllegalWord (inFlight 4 0x034#32).nbuf (inFlight 4 0x034#32).cmd ∧ ¬AliasedWord (inFlight 4 0x034#32).cmd ∧
    (ReadsWord (inFlight 4 0x031#32).size (.fft 3 0) 0 7 ∧ bufWord (inFlight 4 0x031#32) 0 7 = none) ∧
    (ReadsWord (inFlight 4 0x034#32).size (.cspec 3) 3 2 ∧ bufWord (inFlight 4 0x034#32) 3 2 = none) ∧
    (∀ b j, ReadsWord (issue 0x013#32 full).size (.rfft 1 0) b j → (bufWord (issue 0x013#32 full) b j).isSome = true) := by
  refine ⟨rfl, .inl ⟨rfl, .inl rfl⟩, by decide, by decide, by decide, by decide, ⟨⟨rfl, by decide⟩, rfl⟩, ⟨⟨rfl, by decide, by decide⟩, rfl⟩, ?_⟩
  rintro b j ⟨rfl, hj⟩
  exact full_written j (Nat.zero_le _) (show j < 0 + 2 * full.size by have : j < full.size := hj; omega)

theorem witness_FaultingCommandsChangeOnlyStatus :
    Instr.wf (inst 2).nbuf (.fft 2 0) = false ∧ Instr.wf (inst 2).nbuf (.cspec 2) = false ∧
    Instr.aliased (.rfft 1 1) = true ∧ Instr.wf (inst 2).nbuf (.rfft 1 1) = true := by decide

theorem witness_NopClearsFaultCode : ∃ s : State, s.Inv ∧ s.busy = false ∧ s.errCode = 1 ∧
    s.turns = [.host (.regWrite 8 4 0#32), .await] :=
  ⟨{ raise .aliasedBuffers full with turns := [.host (.regWrite 8 4 0#32), .await] },
    Inv_of_turns (Inv_raise full_inv _) _, raise_busy _ _, raise_errCode _ _, rfl⟩

theorem witness_FftCompletes : TwoBuffers full 1 0 ∧ Written full 0 0 (2 * full.size) := ⟨full_two, full_written⟩
theorem witness_IfftCompletes : TwoBuffers full 1 0 ∧ Written full 0 0 (2 * full.size) := ⟨full_two, full_written⟩

/-- At `N = 2`, with the upper half of the source never written, and at `N = 4`. -/
theorem witness_RfftCompletes :
    (1 ≤ (loaded 1 0 0 [3#64, 5#64]).logN ∧ TwoBuffers (loaded 1 0 0 [3#64, 5#64]) 1 0 ∧
      Written (loaded 1 0 0 [3#64, 5#64]) 0 0 (loaded 1 0 0 [3#64, 5#64]).size) ∧
    (1 ≤ full.logN ∧ TwoBuffers full 1 0 ∧ Written full 0 0 full.size ∧
      full.size + 2 ≤ 6 ∧ 6 < 2 * full.size) :=
  ⟨⟨by decide, by decide, loaded_written 1 0 0 [3#64, 5#64]⟩, by decide, full_two,
    fun j h1 h2 => full_written j h1 (by omega), by decide, by decide⟩

/-- At `N = 4` with words 2 and 3 written only, and at `N = 2` with nothing written. -/
theorem witness_CspecCompletes :
    (1 ≤ (loaded 2 0 2 [3#64, 5#64]).logN ∧ (0 : BufNo).toNat < (loaded 2 0 2 [3#64, 5#64]).nbuf ∧
      Written (loaded 2 0 2 [3#64, 5#64]) 0 2 ((loaded 2 0 2 [3#64, 5#64]).size - 2) ∧
      1 < (loaded 2 0 2 [3#64, 5#64]).size / 2) ∧
    (1 ≤ (inst 1).logN ∧ (1 : BufNo).toNat < (inst 1).nbuf ∧ Written (inst 1) 1 2 ((inst 1).size - 2)) :=
  ⟨⟨by decide, by decide, loaded_written 2 0 2 [3#64, 5#64], by decide⟩, by decide, by decide,
    fun j h1 h2 => absurd h2 (by rw [show (inst 1).size - 2 = 0 by decide]; omega)⟩

theorem witness_UnwrittenOperandStops : TwoBuffers (inst 2) 1 0 ∧
    (bufWord (inst 2) 0 7 = none ∧ 7 < 2 * (inst 2).size) ∧ (bufWord (inst 2) 0 3 = none ∧ 3 < (inst 2).size) ∧
    (bufWord (inst 2) 1 2 = none ∧ 2 ≤ 2 ∧ 2 < (inst 2).size) := by decide

/-- Two states with the same words written and different data. -/
theorem witness_OutcomeIgnoresData : ∃ s s' : State, s'.cfg = s.cfg ∧ s'.status = s.status ∧ s'.mem ≠ s.mem ∧
    ∀ b j, (bufWord s b j).isSome = (bufWord s' b j).isSome := by
  refine ⟨{ inst 2 with mem := writeWord 0 1#64 [] }, { inst 2 with mem := writeWord 0 2#64 [] }, rfl, rfl, by decide, ?_⟩
  intro b j
  have h : ∀ v a, (readWord (writeWord 0 v []) a).isSome = true ↔ ∀ k, k < 8 → a + k < 8 := by
    intro v a
    rw [readWord_isSome]
    refine forall_congr' fun k => imp_congr_right fun _ => ?_
    rw [readByte_writeWord]
    by_cases hb : a + k < 8 <;> simp [hb, readByte]
  rw [Bool.eq_iff_iff]
  exact (h 1#64 _).trans (h 2#64 _).symm

theorem witness_TwoPointCommands : ∃ s : State, s.Inv ∧ s.logN = 1 ∧ TwoBuffers s 1 0 ∧
    bufWord s 0 0 = some 1#64 ∧ bufWord s 0 1 = some 2#64 ∧ bufWord s 0 2 = some 3#64 ∧ bufWord s 0 3 = some 4#64 :=
  ⟨loaded 1 0 0 [1#64, 2#64, 3#64, 4#64], loaded_inv (.inl rfl) (by decide) (by decide), by decide, by decide,
    bufWord_writeBuf (i := 0) (j := 0) (inst 1) (by decide), bufWord_writeBuf (i := 0) (j := 1) (inst 1) (by decide),
    bufWord_writeBuf (i := 0) (j := 2) (inst 1) (by decide), bufWord_writeBuf (i := 0) (j := 3) (inst 1) (by decide)⟩

theorem witness_FourPointForward : full.Inv ∧ full.logN = 2 ∧ TwoBuffers full 1 0 ∧ ∃ ws, readBuf full 0 0 8 = some ws :=
  ⟨full_inv, by decide, full_two, full_read⟩

/-- RFFT and then CSPEC run where RFFT's source is written. -/
theorem rfft_cspec_run {s : State} {d r : BufNo} (h1 : 1 ≤ s.logN) (h : TwoBuffers s d r) (hw : Written s r 0 s.size) :
    ∃ t u : State, exec (.rfft d r) s = .next t ∧ exec (.cspec d) t = .next u := by
  have hs : 2 ≤ s.size := by simpa [State.size] using Nat.pow_le_pow_right (show 0 < 2 by omega) h1
  obtain ⟨ws, hr⟩ : ∃ ws, readBuf s r 0 s.size = some ws :=
    readBuf_of_written fun j hj => by rw [Nat.zero_add]; exact hw j (Nat.zero_le _) (by omega)
  refine ⟨complete (storeResults d (rfftWords s ws) s), ?_⟩
  rcases execCspec_cases d (complete (storeResults d (rfftWords s ws) s)) with ⟨hn, -⟩ | ⟨-, hn, -⟩ | ⟨-, vs, -, hu⟩
  · exact absurd h.1 hn
  · obtain ⟨j, hj, hj'⟩ := readBuf_eq_none.1 hn
    have hj2 : j < s.size - 2 := hj
    have he := bufWord_storeResults (b := d) (vs := rfftWords s ws) s (j := 2 + j) (by rw [rfftWords_length]; omega)
    rw [show bufWord (storeResults d (rfftWords s ws) s) d (2 + j) = none from hj'] at he
    cases he
  · exact ⟨_, by rw [execRfft_eq, withTwoBuffers_run _ h.1 h.2.1 h.2.2, transform_of_read hr], hu⟩

theorem witness_CompletedSpectrumIsSymmetric : ∃ t u : State, 1 ≤ full.logN ∧ (1 : BufNo) ≠ 0 ∧ (1 : BufNo).toNat < full.nbuf ∧
    (0 : BufNo).toNat < full.nbuf ∧ exec (.rfft 1 0) full = .next t ∧ exec (.cspec 1) t = .next u ∧
    1 < full.size / 2 := by
  obtain ⟨t, u, ht, hu⟩ := rfft_cspec_run (s := full) (d := 1) (r := 0) (by decide) full_two
    fun j h1 h2 => full_written j h1 (by omega)
  exact ⟨t, u, by decide, by decide, full_two.1, full_two.2.1, ht, hu, by decide⟩

/-- Two states that differ in everything that may differ, and in which the command runs. -/
theorem witness_ResultsIndependentOfDraws : ∃ s s' : State, s'.cfg = s.cfg ∧ s'.rm = s.rm ∧ s'.tw = s.tw ∧ s'.br = s.br ∧
    s'.mem = s.mem ∧ s'.draws ≠ s.draws ∧ s'.cmd ≠ s.cmd ∧ s'.status ≠ s.status ∧ ∃ t, exec (.fft 1 0) s = .next t :=
  ⟨full, { issue 0x11#32 full with draws := 7 }, rfl, rfl, rfl, rfl, rfl, by decide, by decide, by decide, full_fft⟩

theorem witness_TransformFrame : (∃ t, exec (.fft 1 0) full = .next t) ∧ (∃ t, exec (.ifft 1 0) full = .next t) ∧
    (∃ t, exec (.fft 1 1) full = .next t ∧ ¬TwoBuffers full 1 1) ∧ ∃ t, exec (.ifft 2 0) full = .next t ∧ ¬TwoBuffers full 2 0 :=
  ⟨full_fft, full_ifft, ⟨_, rfl, by decide⟩, _, rfl, by decide⟩

theorem witness_RealTransformFrame : (∃ t, exec (.rfft 1 0) full = .next t) ∧
    ∃ t, exec (.rfft 0 2) full = .next t ∧ ¬TwoBuffers full 0 2 := ⟨full_rfft, _, rfl, by decide⟩

theorem witness_CompletionFrame : (∃ t, exec (.cspec 0) full = .next t) ∧
    (∃ t, exec (.cspec 2) full = .next t ∧ ¬(2 : BufNo).toNat < full.nbuf) ∧
    ∃ t, exec (.cspec 1) (inst 1) = .next t ∧ (inst 1).size = 2 := ⟨full_cspec, ⟨_, rfl, by decide⟩, _, rfl, by decide⟩

theorem witness_OtherBuffersUnchanged : 1 ≤ full.logN ∧ (0 : BufNo) ≠ 1 ∧ (1 : BufNo) ≠ 0 ∧ 7 < 2 * full.size ∧
    (∃ t, exec (.fft 1 0) full = .next t) ∧ (∃ t, exec (.ifft 1 0) full = .next t) ∧
    (∃ t, exec (.rfft 1 0) full = .next t) ∧ ∃ t, exec (.cspec 0) full = .next t :=
  ⟨by decide, by decide, by decide, by decide, full_fft, full_ifft, full_rfft, full_cspec⟩

theorem witness_CommandWriteIssues : (inst 2).busy = false ∧ (inFlight 2 0#32).busy = true := by decide

/-- The last word of the last buffer, written and not. -/
theorem witness_DataSpaceIsBufferFile : (1 : BufNo).toNat < (inst 2).nbuf ∧ 7 < 2 * (inst 2).size ∧
    (inst 2).busy = false ∧ bufWord (inst 2) 1 7 = none ∧ bufWord (loaded 2 1 7 [9#64]) 1 7 = some 9#64 ∧
    (inFlight 2 0#32).busy = true ∧ (1 : BufNo).toNat < (inFlight 2 0#32).nbuf := by decide

theorem witness_RomReads : (inst 3).Inv ∧ 15 < 2 * (inst 3).size ∧ 3 < groups (inst 3).logN ∧
    rev4 (passes (inst 3).logN) 3 < 2 ^ 64 := ⟨inst_inv (.inr (.inr rfl)), by decide, by decide, by decide⟩

/-- Just outside what R56 admits, clause by clause. -/
theorem witness_AccessesNotAdmitted :
    hostAct (.regRead 16 4) (inst 2) = .refused .csrOffset ∧ hostAct (.regWrite 8 8 0#32) (inst 2) = .refused .accessWidth ∧
    hostAct (.regWrite 12 4 0#32) (inst 2) = .refused .readOnlyRegister ∧
    hostAct (.memRead .data 4 8) (inst 2) = .refused .misaligned ∧
    hostAct (.memRead .twrom 64 8) (inst 2) = .refused .outsideSpace ∧ spaceSize (inst 2) .twrom = 64 ∧
    hostAct (.memWrite .data 128 8 0#64) (inst 2) = .refused .outsideSpace ∧ spaceSize (inst 2) .data = 128 ∧
    hostAct (.memWrite .brrom 0 8 0#64) (inst 2) = .refused .readOnlySpace ∧
    (inFlight 2 0#32).busy = true ∧ hostAct (.memRead .data 0 8) (inFlight 2 0#32) = .refused .busy := by
  refine ⟨rfl, rfl, rfl, rfl, rfl, by decide, rfl, by decide, rfl, by decide, rfl⟩

theorem witness_ResetClears : full.Inv ∧ (issue 0x11#32 full).Inv := ⟨full_inv, Inv_issue full_inv _⟩

theorem witness_RegistersAfterReset : (1 ≤ 1 ∧ 1 ≤ 255 ∧ 2 ≤ 2 ∧ 2 ≤ 16) ∧ 1 ≤ 255 ∧ 255 ≤ 255 ∧ 2 ≤ 16 ∧ 16 ≤ 16 := by
  decide
theorem witness_ConstructedInstancesAreSound : (1 ≤ 1 ∧ 1 ≤ 255 ∧ 2 ≤ 2 ∧ 2 ≤ 16) ∧ 1 ≤ 255 ∧ 255 ≤ 255 ∧ 16 ≤ 16 := by
  decide

/-- A host write and a command in flight. -/
theorem witness_EveryStepKeepsInstanceSound :
    (∃ s t : State, s.Inv ∧ s.turns = [.host (.regWrite 8 4 0x11#32)] ∧ step s = .next t) ∧
    ∃ s t : State, s.Inv ∧ s.busy = true ∧ s.turns = [] ∧ step s = .next t :=
  ⟨⟨{ full with turns := [.host (.regWrite 8 4 0x11#32)] }, _, Inv_of_turns full_inv _, rfl, rfl⟩,
    issue 0#32 full, _, Inv_issue full_inv _, rfl, rfl, rfl⟩

theorem witness_ConstantsNeverChange : ∃ t, step (inFlight 2 0#32) = .next t := ⟨_, rfl⟩

theorem witness_OnlyHostChangesCommand :
    (∃ s t : State, step s = .next t ∧ t.cmd ≠ s.cmd ∧ s.turns = [.host (.regWrite 8 4 0x11#32)]) ∧
    ∃ s t : State, step s = .next t ∧ t.cmd ≠ s.cmd ∧ s.turns = [.host .reset] :=
  ⟨⟨{ inst 2 with turns := [.host (.regWrite 8 4 0x11#32)] }, _, rfl, by decide, rfl⟩,
    { inFlight 2 0x11#32 with turns := [.host .reset] }, _, rfl, by decide, rfl⟩

theorem witness_ConstructionValidatesSize : (1 ≤ 1 ∧ (2 : Int) = 2 ^ 1 ∧ 1 ≤ 255) ∧
    (∃ size : Int, size = 2 ^ 255 ∧ 255 ≤ 255) ∧ ∃ size : Int, size = 2 ^ 256 ∧ 255 < 256 :=
  ⟨by decide, ⟨_, rfl, by decide⟩, _, rfl, by decide⟩

theorem witness_ShapeNumbers : 1 ≤ 1 ∧ 1 % 2 = 1 ∧ 1 ≤ 2 ∧ 2 % 2 = 0 := by decide
theorem witness_Rev4MirrorsDigits : 6 < 4 ^ 2 ∧ 1 < 2 := by decide
theorem witness_Rev4Laws : 27 < 4 ^ 3 ∧ 1 ≤ 3 ∧ 15 < 4 ^ (3 - 1) := by decide
theorem witness_PermuterServesBothEngines : (inst 1).Inv ∧ (inst 2).Inv ∧ 2 ≤ (inst 2).logN ∧ (inst 3).Inv ∧ 2 ≤ (inst 3).logN :=
  ⟨inst_inv (.inl rfl), inst_inv (.inr (.inl rfl)), by decide, inst_inv (.inr (.inr rfl)), by decide⟩
theorem witness_TwiddleTableLaws : (1 ≤ 1 ∧ 1 ≤ 255 ∧ 0 < 2 ^ (1 - 1)) ∧ 1 ≤ 3 ∧ 3 ≤ 255 ∧ 3 < 2 ^ (3 - 1) := by decide

theorem witness_PatternsRoundTrip : F64.ofWord 0x0000000000000001#64 = .fin false 1 ∧
    F64.ofWord 0xFFF0000000000000#64 = .inf true ∧ F64.ofWord 0xFFF0000000000000#64 ≠ .nan := by decide +kernel
theorem witness_StoredNansAreQuiet : F64.ofWord 0x7FF8000000000000#64 = .nan ∧
    (0x7FF8000000000000#64).getLsbD 51 = true := by decide +kernel
theorem witness_OperationsAreCorrectlyRounded : (3 : Nat) ≠ 0 := by decide

/-- `2^53 + 1` units lies between two representable values. -/
theorem witness_TiesGoToEven : 0 < 1 ∧ Representable (2 ^ 53 + 2) ∧
    2 ^ 53 + 2 ≠ F64.roundMag .rne false (2 ^ 53 + 1) 1 ∧
    |((2 ^ 53 + 2 : Nat) * (1 : Nat) : Int) - (2 ^ 53 + 1 : Nat)| =
      |(F64.roundMag .rne false (2 ^ 53 + 1) 1 * (1 : Nat) : Int) - (2 ^ 53 + 1 : Nat)| :=
  ⟨by decide, ⟨2 ^ 52 + 1, 1, by decide, by decide⟩, by decide +kernel, by decide +kernel⟩

theorem witness_ScalingByPowerOfTwo : (1 ≤ 1 ∧ 1 ≤ 255) ∧ (1 ≤ 255 ∧ 255 ≤ 255) ∧ Representable 3 ∧ 3 * 2 ^ 255 < F64.overflow :=
  ⟨by decide, by decide, ⟨3, 0, by decide, by decide⟩, by decide +kernel⟩

theorem witness_SequencerRefinesEngine : 0 ≤ 1 ∧ 3 ≤ 4 ∧ 4 ≤ 4 := by decide
theorem witness_SequencerRefinesMirror : 1 ≤ 1 ∧ 1 ≤ 3 := by decide
/-- R293 at `N = 8`: four BASE2, two R4BFLY. -/
theorem test_micro_ops : countOps (microOps 3 (.fft 1 0)) = ⟨60, 24, 0⟩ ∧ (microOps 3 (.fft 1 0)).length = 6 ∧
    microOps 3 (.rfft 1 0) = [.base4 0, .unpk0, .unpkh, .unpkp 1] ∧ microOps 1 (.rfft 1 0) = [.copy, .unpk0] := by decide
theorem witness_MicroOperationsOfCommands : 1 ≤ 1 ∧ 1 ≤ 3 ∧ 2 ≤ 3 ∧ 2 % 2 ≠ 1 ∧ 4 ≤ 2 ^ 2 ∧ ¬4 ≤ 2 ^ 1 := by decide
/-- An engine of each kind of micro-operation, at its last group and butterfly, and a permuter within range. -/
theorem witness_IndicesStayInRange : 3 ≤ 3 ∧ MicroOp.base2 3 ∈ engineOps 3 3 ∧ MicroOp.r4bfly 2 4 2 ∈ engineOps 3 3 ∧
    MicroOp.base4 0 ∈ engineOps 3 2 ∧ MicroOp.copy ∈ engineOps 1 0 ∧
    ∀ t, t < groups 3 → rev4 (passes 3) t < groups 3 := by decide

/-- The exact ROM and the exact permuter of every size. -/
theorem exact_tables (n ne : Nat) :
    ExactRom n (fun k => ⟨Real.cos (2 * Real.pi * k / 2 ^ n), -Real.sin (2 * Real.pi * k / 2 ^ n)⟩) ∧
    Reverses ne (rev4 (passes ne)) := ⟨fun _ _ => rfl, fun _ _ => rfl⟩

theorem witness_EngineComputesDft : ∃ rom perm, 4 ≤ 5 ∧ ExactRom 5 rom ∧ Reverses 4 perm ∧ 15 < 2 ^ 4 :=
  ⟨_, _, by decide, (exact_tables 5 4).1, (exact_tables 5 4).2, by decide⟩
theorem witness_InverseUndoesForward : ∃ rom perm, ExactRom 5 rom ∧ Reverses 5 perm ∧ 31 < 2 ^ 5 :=
  ⟨_, _, (exact_tables 5 5).1, (exact_tables 5 5).2, by decide⟩
theorem witness_RealPathComputesDft : (∃ rom perm, 1 ≤ 5 ∧ ExactRom 5 rom ∧ Reverses (5 - 1) perm ∧ 16 ≤ 2 ^ 5 / 2) ∧
    ∃ rom perm, 1 ≤ 1 ∧ ExactRom 1 rom ∧ Reverses (1 - 1) perm ∧ 1 ≤ 2 ^ 1 / 2 :=
  ⟨⟨_, _, by decide, (exact_tables 5 4).1, (exact_tables 5 4).2, by decide⟩,
    _, _, by decide, (exact_tables 1 0).1, (exact_tables 1 0).2, by decide⟩

theorem witness_SignedZerosAndInfinities : (1 : Nat) ≠ 0 ∧ signBit (.fin true 1) = some true ∧
    signBit (.fin false 0) = some false ∧ F64.mul .rne (.fin true 1) (.fin false 1) ≠ .nan ∧
    F64.div .rne (.fin true 1) (.inf false) ≠ .nan := by decide +kernel
theorem witness_NegFlipsSignBit : 62 < 63 := by decide
theorem witness_StoredWordsAreLittleEndian : 7 < 8 := by decide
theorem witness_MarshallingRoundTrip : 1 < [5#64, 6#64].length ∧ [5#64, 6#64, 7#64, 8#64].length = 2 * 2 ∧ 1 < 2 := by decide

end Sys2Proof.Test
end

section
/-! SUPPORT. What a command, a host action and a step leave alone, and the `CFG` of a constructed block: the facts that
the statements about the state rest on. -/

namespace Sys2Proof.Machine
open Claims

/-! ### `STATUS` and the registers at the end of a command -/

/-- The bits of `STATUS` outside its three fields (R32) survive every update. -/
theorem getLsbD_putStatus_kept (st : Reg) (b d : Bool) (e : BitVec 4) {i : Nat} (h : i = 2 ∨ i = 3 ∨ 8 ≤ i) :
    (putStatus st b d e).getLsbD i = st.getLsbD i := by
  rw [getLsbD_putStatus]
  obtain rfl | rfl | h := h
  · rfl
  · rfl
  · rw [if_neg (by omega), if_neg (by omega), if_neg (by omega), if_neg (by omega)]

theorem endCommand_statusEnds (c : BitVec 4) {s u : State} (h : u.status = s.status) :
    StatusEnds s (endCommand c u) c :=
  ⟨endCommand_busy c u, endCommand_done c u, endCommand_errCode c u, fun _ hi => by
    rw [endCommand_status, h, getLsbD_putStatus_kept _ _ _ _ hi]⟩

/-- Whatever a command does, it ends by `endCommand` (R83) in a state that differs from its start only in buffers and draws. -/
theorem exec_next_endCommand {i : Instr} {s t : State} (h : exec i s = .next t) :
    ∃ c m k, t = endCommand c { s with mem := m, draws := k } := by
  obtain ⟨e, rfl⟩ | rfl | ⟨d, vs, -, -, rfl⟩ | ⟨d, ws, -, -, rfl⟩ := exec_next h
  · exact ⟨faultCode e, s.mem, s.draws, rfl⟩
  · exact ⟨0, s.mem, s.draws, rfl⟩
  · exact ⟨0, _, _, rfl⟩
  · exact ⟨0, _, s.draws, rfl⟩

theorem exec_registersKept {i : Instr} {s t : State} (h : exec i s = .next t) : RegistersKept s t := by
  obtain ⟨c, m, k, rfl⟩ := exec_next_endCommand h
  exact ⟨rfl, rfl, rfl, rfl, rfl, rfl, rfl, rfl⟩

theorem exec_statusEnds {i : Instr} {s t : State} (h : exec i s = .next t) : ∃ c, StatusEnds s t c := by
  obtain ⟨c, m, k, rfl⟩ := exec_next_endCommand h
  exact ⟨c, endCommand_statusEnds c rfl⟩

theorem runCommand_registersKept {s t : State} (h : runCommand s = .next t) : RegistersKept s t := by
  obtain ⟨i, -, hi⟩ | ⟨-, rfl⟩ := runCommand_next h
  · exact exec_registersKept hi
  · exact ⟨rfl, rfl, rfl, rfl, rfl, rfl, rfl, rfl⟩

/-! ### The engine's turn -/

theorem runCommand_of_decode {i : Instr} {s : State} (h : decode s.cmd = .ok i) : runCommand s = exec i s := by
  rw [runCommand, fetchWord, h]

theorem engineStep_of_busy {s : State} (h : s.busy = true) : engineStep s = runCommand s := if_pos h

/-- Taking the engine's turn of a placed command leaves what the host's `CMD` write leaves (R31). -/
theorem popTurn_placeCommand (w : Reg) (s : State) : popTurn (placeCommand w s) = issue w s := rfl

theorem engineStep_cmd {s t : State} (h : engineStep s = .next t) : t.cmd = s.cmd := by
  unfold engineStep at h
  split at h
  · obtain ⟨-, -, hcmd, -⟩ := runCommand_registersKept h
    exact hcmd
  · cases h; rfl

/-! ### The bytes and words a command stores -/

/-- FFT, IFFT and RFFT store their results from word 0 of the destination on and nothing else (R25). -/
theorem outOfPlace_bytesKept {d r : BufNo} {k n : Nat} {f : List Word → List F64} {s t : State}
    (hf : ∀ ws, (f ws).length = n) (h : withTwoBuffers d r s (fun s' => transform d r k f s') = .next t) :
    BytesKept s t (wordAddr s d.toNat 0) (8 * n) := by
  intro a ha
  obtain ⟨e, rfl⟩ | ⟨-, -, -, ws, -, rfl⟩ := outOfPlace_next h
  · rfl
  · rw [complete_mem, storeResults_mem]
    exact readByte_writeWords_outside _ _ _ (by rw [patterns_length, hf]; omega)

/-- A faulting FFT, IFFT or RFFT stores nothing (R254). -/
theorem outOfPlace_mem_of_fault {d r : BufNo} {k : Nat} {f : List Word → List F64} {s t : State}
    (hbuf : ¬TwoBuffers s d r) (h : withTwoBuffers d r s (fun s' => transform d r k f s') = .next t) :
    t.mem = s.mem := by
  obtain ⟨e, rfl⟩ | ⟨hd, hr, hdr, -⟩ := outOfPlace_next h
  · rfl
  · exact absurd ⟨hd, hr, hdr⟩ hbuf

theorem outOfPlace_otherBuffer {d r b : BufNo} {j k n : Nat} {f : List Word → List F64} {s t : State}
    (hf : ∀ ws, (f ws).length = n) (hn : n ≤ 2 * s.size) (hb : b ≠ d) (hj : j < 2 * s.size)
    (h : withTwoBuffers d r s (fun s' => transform d r k f s') = .next t) : bufWord t b j = bufWord s b j := by
  obtain ⟨e, rfl⟩ | ⟨-, -, -, ws, -, rfl⟩ := outOfPlace_next h
  · rfl
  · exact bufWord_storeResults_other s (by rw [hf]; exact hn) hj (.inl hb)

/-- Reading an unwritten word of the source stops FFT, IFFT and RFFT (R39, R289). -/
theorem outOfPlace_unwritten {d r : BufNo} {i k : Nat} (f : List Word → List F64) {s : State} (hbuf : TwoBuffers s d r)
    (hw : bufWord s r i = none) (hi : i < k) :
    withTwoBuffers d r s (fun s' => transform d r k f s') = .fault .unwrittenWord := by
  obtain ⟨hd, hr, hdr⟩ := hbuf
  have hread : readBuf s r 0 k = none := readBuf_eq_none.2 ⟨i, hi, by rwa [Nat.zero_add]⟩
  rw [withTwoBuffers_run _ hd hr hdr, transform, hread]

/-- CSPEC ends in a fault that stores nothing, or in the mirror words stored from word `N + 2` on. -/
theorem execCspec_next {d : BufNo} {s t : State} (h : exec (.cspec d) s = .next t) :
    (¬d.toNat < s.nbuf ∧ t = raise .illegalCommand s) ∨
    (d.toNat < s.nbuf ∧ ∃ ws, ws.length = s.size - 2 ∧ t = complete (writeBuf d (s.size + 2) ws s)) := by
  obtain ⟨hd, e⟩ | ⟨-, -, e⟩ | ⟨hd, ws, -, e⟩ := execCspec_cases d s
  · rw [e] at h; cases h; exact .inl ⟨hd, rfl⟩
  · rw [e] at h; cases h
  · rw [e] at h; cases h; exact .inr ⟨hd, _, mirrorWords_length _ _, rfl⟩

/-- Reading an unwritten word of `2 .. N-1` stops CSPEC (R39, R210, R289). -/
theorem execCspec_unwritten {d : BufNo} {i : Nat} {s : State} (hd : d.toNat < s.nbuf) (hw : bufWord s d i = none)
    (h2 : 2 ≤ i) (hi : i < s.size) : exec (.cspec d) s = .fault .unwrittenWord := by
  have hread : readBuf s d 2 (s.size - 2) = none :=
    readBuf_eq_none.2 ⟨i - 2, by omega, by rwa [Nat.add_sub_cancel' h2]⟩
  obtain ⟨hn, -⟩ | ⟨-, -, e⟩ | ⟨-, ws, hws, -⟩ := execCspec_cases d s
  · exact absurd hd hn
  · exact e
  · rw [hread] at hws; cases hws

theorem two_le_size {s : State} (h : 1 ≤ s.logN) : 2 ≤ s.size := Nat.pow_le_pow_right (n := 2) (by omega) h

/-! ### `CMD` under the host's actions -/

theorem withAddress_next {space : Space} {addr size : Nat} {s t : State} {run : State → Result}
    (h : withAddress space addr size s run = .next t) : run s = .next t := by
  unfold withAddress at h
  split at h
  · cases h
  split at h
  · cases h
  split at h
  · cases h
  · exact h

theorem hostRegRead_cmd {off bytes : Nat} {s t : State} (h : hostRegRead off bytes s = .next t) : t.cmd = s.cmd := by
  unfold hostRegRead at h
  split at h
  · cases h
  split at h <;> cases h
  rfl

theorem hostMemRead_cmd {space : Space} {addr size : Nat} {s t : State} (h : hostMemRead space addr size s = .next t) :
    t.cmd = s.cmd := by
  have h := withAddress_next h
  cases space with
  | data =>
    dsimp only at h
    split at h
    · cases h
    split at h <;> cases h
    rfl
  | twrom => dsimp only at h; split at h <;> cases h; rfl
  | brrom => dsimp only at h; split at h <;> cases h; rfl

theorem hostMemWrite_cmd {space : Space} {addr size : Nat} {v : Word} {s t : State}
    (h : hostMemWrite space addr size v s = .next t) : t.cmd = s.cmd := by
  have h := withAddress_next h
  cases space with
  | data => dsimp only at h; split at h <;> cases h; rfl
  | twrom => cases h
  | brrom => cases h

/-- The only register write that is admitted is the `CMD` write while idle (R31, R51). -/
theorem hostRegWrite_next {off bytes : Nat} {v : Reg} {s t : State} (h : hostRegWrite off bytes v s = .next t) :
    off = 8 ∧ bytes = 4 ∧ s.busy = false ∧ t = issue v s := by
  unfold hostRegWrite at h
  split at h
  · cases h
  next hbytes =>
    split at h
    next hoff =>
      split at h
      · cases h
      next hbusy =>
        cases h
        exact ⟨hoff, not_not.1 hbytes, Bool.eq_false_of_not_eq_true hbusy, rfl⟩
    · split at h <;> cases h

/-- The `CMD` write at its own offset and width (R31). -/
theorem hostAct_cmdWrite (w : Reg) (s : State) :
    hostAct (.regWrite 8 4 w) s = if s.busy then .refused .busy else .next (issue w s) := rfl

/-- The host actions that can change `CMD`. -/
theorem hostAct_cmd {a : HostAction} {s t : State} (h : hostAct a s = .next t) (hne : t.cmd ≠ s.cmd) :
    (∃ w, a = .regWrite 8 4 w ∧ s.busy = false ∧ t.cmd = w) ∨ (a = .reset ∧ t.cmd = 0#32) := by
  cases a with
  | regRead off bytes => exact absurd (hostRegRead_cmd h) hne
  | regWrite off bytes v =>
    obtain ⟨rfl, rfl, hidle, rfl⟩ := hostRegWrite_next h
    exact .inl ⟨v, rfl, hidle, rfl⟩
  | memRead space addr size => exact absurd (hostMemRead_cmd h) hne
  | memWrite space addr size v => exact absurd (hostMemWrite_cmd h) hne
  | reset => cases h; exact .inr ⟨rfl, rfl⟩

/-- A step that changes `CMD` is a host action. -/
theorem step_cmd {s t : State} (h : step s = .next t) (hne : t.cmd ≠ s.cmd) :
    ∃ a l, s.turns = .host a :: l ∧ hostAct a (popTurn s) = .next t := by
  unfold step at h
  split at h
  · exact absurd (engineStep_cmd h) hne
  · exact absurd (engineStep_cmd h) hne
  next a l hturns => exact ⟨a, l, hturns, h⟩
  · split at h
    · exact absurd (engineStep_cmd h) hne
    · cases h; exact absurd rfl hne
  · cases h
    obtain ⟨l, hl⟩ := stopIfFaulted_eq (popTurn s)
    rw [hl] at hne
    exact absurd rfl hne

/-! ### The invariant, command by command and action by action -/

theorem exec_keeps_Inv {i : Instr} {s t : State} (hs : s.Inv) (h : exec i s = .next t) : t.Inv := by
  have hsize := Inv_two_le_size hs
  obtain ⟨e, rfl⟩ | rfl | ⟨d, vs, hd, hlen, rfl⟩ | ⟨d, ws, hd, hlen, rfl⟩ := exec_next h
  · exact Inv_raise hs e
  · exact Inv_complete hs
  · exact Inv_complete (Inv_storeResults hs hd (by omega))
  · exact Inv_complete (Inv_writeBuf hs hd (by omega) s.draws)

theorem runCommand_keeps_Inv {s t : State} (hs : s.Inv) (h : runCommand s = .next t) : t.Inv := by
  obtain ⟨i, -, hi⟩ | ⟨-, rfl⟩ := runCommand_next h
  · exact exec_keeps_Inv hs hi
  · exact Inv_raise hs _

theorem hostAct_keeps_Inv {a : HostAction} {s t : State} (hs : s.Inv) (h : hostAct a s = .next t) : t.Inv := by
  obtain ⟨r, rfl⟩ | ⟨-, w, rfl⟩ | ⟨-, addr, v, halign, hlt, rfl⟩ | rfl := hostAct_next h
  · exact Inv_addReply hs r
  · exact Inv_issue hs w
  · exact Inv_writeWord hs v halign hlt
  · exact Inv_blockReset hs

/-! ### The block right after construction -/

section
variable {n nb : Nat}

/-- The two fields of `CFG` do not overlap (R30). -/
theorem cfgValue_toNat (hn : n ≤ 255) (hnb : nb ≤ 16) : (cfgValue n nb).toNat = n + 256 * (nb - 1) := by
  have hor : n ||| ((nb - 1) <<< 8) = (nb - 1) <<< 8 + n := by
    rw [Nat.lor_comm, Nat.shiftLeft_add_eq_or_of_lt (by omega)]
  rw [cfgValue, BitVec.toNat_ofNat, hor, Nat.shiftLeft_eq]
  omega

theorem ofContext_logN (rm : RoundingMode) (hn : n ≤ 255) (hnb : nb ≤ 16) :
    (State.ofContext (contextOf n) nb rm).logN = n := by
  have hcfg := cfgValue_toNat hn hnb
  rw [State.logN, ofContext_cfg, contextOf, BitVec.extractLsb'_toNat, hcfg, Nat.shiftRight_zero]
  omega

theorem ofContext_nbuf (rm : RoundingMode) (hn : n ≤ 255) (h2 : 2 ≤ nb) (hnb : nb ≤ 16) :
    (State.ofContext (contextOf n) nb rm).nbuf = nb := by
  have hcfg := cfgValue_toNat hn hnb
  rw [State.nbuf, ofContext_cfg, contextOf, BitVec.extractLsb'_toNat, hcfg, Nat.shiftRight_eq_div_pow]
  omega

theorem ofContext_Inv (rm : RoundingMode) (h1 : 1 ≤ n) (hn : n ≤ 255) (h2 : 2 ≤ nb) (hnb : nb ≤ 16) :
    (State.ofContext (contextOf n) nb rm).Inv := by
  have hlogN := ofContext_logN rm hn hnb
  have hnbuf := ofContext_nbuf rm hn h2 hnb
  exact {
    id_const := rfl
    cfg_const := by rw [hlogN, hnbuf]; rfl
    logN_pos := by rwa [hlogN]
    nbuf_two := by rwa [hnbuf]
    tw_const := by rw [hlogN]; rfl
    br_const := by rw [hlogN]; rfl
    status_value := by simp [statusValues]
    mem_wf := List.Pairwise.nil
    mem_range := fun c hc => by simp at hc
    mem_words := fun a ha => by simp [readByte] at ha }

end

end Sys2Proof.Machine
end

section
/-! SUPPORT. The statements about the state, each settled from the facts above. -/

namespace Sys2Proof.Machine
open Claims

/-- Settles O35: the inversion of a step leaves the command in flight, a host action and two updates of the host's own
lists, each of which keeps the invariant. -/
theorem everyStepKeepsInstanceSound : Obligations.EveryStepKeepsInstanceSound := by
  intro s t hs h
  obtain ⟨l, ⟨-, hrun⟩ | ⟨a, hact⟩ | rfl | rfl⟩ := step_next h
  · exact runCommand_keeps_Inv (Inv_of_turns hs l) hrun
  · exact hostAct_keeps_Inv (Inv_of_turns hs l) hact
  · exact Inv_addReply (Inv_of_turns hs l) _
  · exact Inv_of_turns hs l

/-- Settles O17: the unwritten word is among those that the command's one read of its buffer takes. -/
theorem unwrittenOperandStops : Obligations.UnwrittenOperandStops := by
  intro s d r i hbuf
  refine ⟨fun hw hi => ⟨?_, ?_⟩, fun hw hi => ?_, fun hw h2 hi => ?_⟩
  · rw [execFft_eq]; exact outOfPlace_unwritten _ hbuf hw hi
  · rw [execIfft_eq]; exact outOfPlace_unwritten _ hbuf hw hi
  · rw [execRfft_eq]; exact outOfPlace_unwritten _ hbuf hw hi
  · exact execCspec_unwritten hbuf.1 hw h2 hi

/-- Settles O23, from the frame of an out-of-place command that stores `2N` words. -/
theorem transformFrame : Obligations.TransformFrame := by
  intro i d r s t hi h
  refine ⟨exec_registersKept h, exec_statusEnds h, ?_⟩
  obtain rfl | rfl := hi
  · rw [execFft_eq] at h
    exact ⟨fun a ha => ha ▸ outOfPlace_bytesKept (fftWords_length s) h,
      fun hbuf a => by rw [outOfPlace_mem_of_fault hbuf h]⟩
  · rw [execIfft_eq] at h
    exact ⟨fun a ha => ha ▸ outOfPlace_bytesKept (ifftWords_length s) h,
      fun hbuf a => by rw [outOfPlace_mem_of_fault hbuf h]⟩

/-- Settles O24, from the frame of an out-of-place command that stores `N + 2` words. -/
theorem realTransformFrame : Obligations.RealTransformFrame := by
  intro d r s t h
  refine ⟨exec_registersKept h, exec_statusEnds h, ?_⟩
  rw [execRfft_eq] at h
  exact ⟨fun a ha => ha ▸ outOfPlace_bytesKept (rfftWords_length s) h,
    fun hbuf a => by rw [outOfPlace_mem_of_fault hbuf h]⟩

/-- Settles O25: the `N - 2` mirror words are the only store, and at `N = 2` there are none. -/
theorem completionFrame : Obligations.CompletionFrame := by
  intro d s t h
  refine ⟨exec_registersKept h, exec_statusEnds h, ?_⟩
  obtain ⟨-, rfl⟩ | ⟨hd, ws, hlen, rfl⟩ := execCspec_next h
  · exact ⟨fun _ _ _ _ => rfl, fun _ _ => rfl⟩
  · refine ⟨?_, ?_⟩
    · rintro _ rfl a ha
      exact readByte_writeWords_outside ws _ _ (by rw [hlen]; omega)
    · rintro (hn | h2) a
      · exact absurd hd hn
      · exact readByte_writeWords_outside ws _ _ (by rw [hlen]; omega)

/-- Settles O26: no store reaches past the end of the destination, so it cannot reach another buffer (R24). -/
theorem otherBuffersUnchanged : Obligations.OtherBuffersUnchanged := by
  intro s t d r b j hn hb hj h
  have hsize := two_le_size hn
  obtain h | h | h | h := h
  · rw [execFft_eq] at h
    exact outOfPlace_otherBuffer (fftWords_length s) le_rfl hb hj h
  · rw [execIfft_eq] at h
    exact outOfPlace_otherBuffer (ifftWords_length s) le_rfl hb hj h
  · rw [execRfft_eq] at h
    exact outOfPlace_otherBuffer (rfftWords_length s) (by omega) hb hj h
  · obtain ⟨-, rfl⟩ | ⟨-, ws, hlen, rfl⟩ := execCspec_next h
    · rfl
    · exact bufWord_writeBuf_other s (by omega) hj (.inl hb)

/-- Settles O37: no command and no host action writes a constant. -/
theorem constantsNeverChange : Obligations.ConstantsNeverChange := by
  intro s t h
  obtain ⟨l, ⟨-, hrun⟩ | ⟨a, hact⟩ | rfl | rfl⟩ := step_next h
  · obtain ⟨hid, hcfg, -, htw, hbr, hrm, -⟩ := runCommand_registersKept hrun
    exact ⟨hid, hcfg, htw, hbr, hrm⟩
  · obtain ⟨r, rfl⟩ | ⟨-, w, rfl⟩ | ⟨-, addr, v, -, -, rfl⟩ | rfl := hostAct_next hact <;>
      exact ⟨rfl, rfl, rfl, rfl, rfl⟩
  · exact ⟨rfl, rfl, rfl, rfl, rfl⟩
  · exact ⟨rfl, rfl, rfl, rfl, rfl⟩

/-- Settles O38: a step that changes `CMD` is a host action, and of those only two write it. -/
theorem onlyHostChangesCommand : Obligations.OnlyHostChangesCommand := by
  intro s t h hne
  obtain ⟨a, l, hturns, hact⟩ := step_cmd h hne
  obtain ⟨w, rfl, hidle, hw⟩ | ⟨rfl, hzero⟩ := hostAct_cmd hact hne
  · exact .inl ⟨w, l, hturns, hidle, hw⟩
  · exact .inr ⟨l, hturns, hzero⟩

/-- Settles O6: the turn taken off the placed state leaves the issued state, which is busy with the word in `CMD`. -/
theorem placedCommandRunsNext : Obligations.PlacedCommandRunsNext := by
  intro s i w hdec
  calc step (s.withFetchWord 32 w)
      = engineStep (popTurn (placeCommand (BitVec.ofNat 32 (w % 2 ^ 32)) s)) := rfl
    _ = engineStep (issue (BitVec.ofNat 32 (w % 2 ^ 32)) s) := by rw [popTurn_placeCommand]
    _ = runCommand (issue (BitVec.ofNat 32 (w % 2 ^ 32)) s) := engineStep_of_busy (issue_busy _ s)
    _ = exec i (issue (BitVec.ofNat 32 (w % 2 ^ 32)) s) := runCommand_of_decode hdec

/-- Settles O27: while idle the write is `issue`, while busy it is refused. -/
theorem commandWriteIssues : Obligations.CommandWriteIssues := by
  intro s w
  refine ⟨fun hidle => ⟨issue w s, ?_, rfl, issue_busy w s, issue_done w s, issue_errCode w s, ?_, rfl⟩,
    fun hbusy => ⟨.busy, ?_⟩, blockReset s, rfl, rfl⟩
  · simp [hostAct_cmdWrite, hidle]
  · intro i hi
    rw [issue_status, getLsbD_putStatus_kept _ _ _ _ hi]
  · simp [hostAct_cmdWrite, hbusy]

/-- Settles O34, from the fields of `CFG`. -/
theorem registersAfterReset : Obligations.RegistersAfterReset := by
  intro n nb rm _ hn h2 hnb
  exact ⟨_, rfl, rfl, cfgValue_toNat hn hnb, rfl, rfl, ofContext_logN rm hn hnb, ofContext_nbuf rm hn h2 hnb, rfl, rfl,
    fun _ _ => rfl⟩

/-- Settles O36; `State.reset` is the block of log entry 1. -/
theorem constructedInstancesAreSound : Obligations.ConstructedInstancesAreSound :=
  ⟨fun _ _ rm h1 hn h2 hnb => ofContext_Inv rm h1 hn h2 hnb,
    ofContext_Inv Config.defaultRm (by decide) (by decide) (by decide) (by decide)⟩

end Sys2Proof.Machine
end

section
/-! SUPPORT. The host's accesses: the bytes of a stored word, the entries of the ROM tables, and what each admitted access
does and when an access is refused (R50 to R58). -/

namespace Sys2Proof

/-! ### The ROM tables -/

theorem twiddleTable_length (n : Nat) : (twiddleTable n).length = 2 * 2 ^ n := by
  simp [twiddleTable, Nat.mul_comm]

theorem reversalTable_getElem? {n t : Nat} (h : t < groups n) : (reversalTable n)[t]? = some (rev4 (passes n) t) := by
  rw [reversalTable, List.getElem?_map, List.getElem?_range h, Option.map_some]

end Sys2Proof

namespace Sys2Proof.Machine

/-- Byte `j` of a word as a digit of its number to base 256. -/
theorem byteOf_toNat (v : Word) (j : Nat) : (byteOf v j).toNat = v.toNat / 256 ^ j % 256 := by
  rw [byteOf, BitVec.extractLsb'_toNat, Nat.shiftRight_eq_div_pow, Nat.pow_mul]

/-! ### The checks of an address -/

/-- What `withAddress` does: a refusal, or the access itself at an admitted address. -/
theorem withAddress_cases (space : Space) (addr size : Nat) (s : State) (run : State → Result) :
    (∃ e, withAddress space addr size s run = .refused e) ∨
    (addr % 8 = 0 ∧ size = 8 ∧ addr < spaceSize s space ∧ withAddress space addr size s run = run s) := by
  unfold withAddress
  by_cases hsize : size = 8
  · by_cases halign : addr % 8 = 0
    · by_cases hend : spaceSize s space ≤ addr
      · exact .inl ⟨.outsideSpace, by simp [hsize, halign, hend]⟩
      · exact .inr ⟨halign, hsize, Nat.lt_of_not_le hend, by simp [hsize, halign, hend]⟩
    · exact .inl ⟨.misaligned, by simp [hsize, halign]⟩
  · exact .inl ⟨.accessWidth, if_pos hsize⟩

theorem withAddress_run {space : Space} {addr : Nat} {s : State} (run : State → Result) (halign : addr % 8 = 0)
    (hend : addr < spaceSize s space) : withAddress space addr 8 s run = run s := by
  rw [withAddress, if_neg (by simp), if_neg (by simpa using halign), if_neg (Nat.not_le_of_lt hend)]

theorem withAddress_refused_of_address {space : Space} {addr size : Nat} {s : State} (run : State → Result)
    (h : addr % 8 ≠ 0 ∨ size ≠ 8 ∨ spaceSize s space ≤ addr) : ∃ e, withAddress space addr size s run = .refused e := by
  obtain hrefused | ⟨halign, hsize, hend, -⟩ := withAddress_cases space addr size s run
  · exact hrefused
  · omega

theorem withAddress_refused_of_run {space : Space} {addr size : Nat} {s : State} {run : State → Result} {e : Refusal}
    (h : run s = .refused e) : ∃ e, withAddress space addr size s run = .refused e := by
  obtain hrefused | ⟨-, -, -, hrun⟩ := withAddress_cases space addr size s run
  · exact hrefused
  · exact ⟨e, hrun.trans h⟩

/-! ### Admitted accesses -/

/-- A read of a control register (R51). -/
theorem hostAct_regRead {s : State} {off : Nat} {v : Reg} (h : regAt s off = some v) :
    hostAct (.regRead off 4) s = .next (addReply (.reg v) s) := by
  simp [hostAct, hostRegRead, h]

/-- A read of `TWROM` (R54). -/
theorem hostAct_readTwrom {s : State} {o : Nat} {v : Word} (ho : o < 2 * s.size) (h : s.tw[o]? = some v) :
    hostAct (.memRead .twrom (8 * o) 8) s = .next (addReply (.word v) s) := by
  have hend : 8 * o < spaceSize s .twrom := by simp only [spaceSize]; omega
  simp [hostAct, hostMemRead, withAddress_run _ (Nat.mul_mod_right 8 o) hend, h]

/-- A read of `BRROM` (R55). -/
theorem hostAct_readBrrom {s : State} {t v : Nat} (ht : t < groups s.logN) (h : s.br[t]? = some v) :
    hostAct (.memRead .brrom (8 * t) 8) s = .next (addReply (.word (brWord v)) s) := by
  have hend : 8 * t < spaceSize s .brrom := by simp only [spaceSize]; omega
  simp [hostAct, hostMemRead, withAddress_run _ (Nat.mul_mod_right 8 t) hend, h]

theorem wordAddr_aligned (s : State) (b i : Nat) : wordAddr s b i % 8 = 0 := Nat.mul_mod_right 8 _

section
variable {s : State} {b : BufNo} {i : Nat}

theorem wordAddr_lt_spaceSize (hb : b.toNat < s.nbuf) (hi : i < 2 * s.size) :
    wordAddr s b.toNat i < spaceSize s .data := by
  have hend := wordAddr_end_le hb (i := i) (k := 1) hi
  omega

/-- A write to `DATA` at the address of a word is a store of one word to its buffer (R53). -/
theorem hostAct_writeData (v : Word) (hb : b.toNat < s.nbuf) (hi : i < 2 * s.size) :
    hostAct (.memWrite .data (wordAddr s b.toNat i) 8 v) s =
      if s.busy then .refused .busy else .next (writeBuf b i [v] s) := by
  rw [hostAct, hostMemWrite, withAddress_run _ (wordAddr_aligned s _ i) (wordAddr_lt_spaceSize hb hi)]
  rfl

/-- A read of `DATA` at the address of a word answers the word of the buffer, or stops when it is unwritten (R39, R53). -/
theorem hostAct_readData (hb : b.toNat < s.nbuf) (hi : i < 2 * s.size) :
    hostAct (.memRead .data (wordAddr s b.toNat i) 8) s =
      if s.busy then .refused .busy
      else (bufWord s b i).elim (.fault .unwrittenWord) fun u => .next (addReply (.word u) s) := by
  rw [hostAct, hostMemRead, withAddress_run _ (wordAddr_aligned s _ i) (wordAddr_lt_spaceSize hb hi), bufWord]
  cases readWord s.mem (wordAddr s b.toNat i) <;> rfl

end

/-! ### Refused accesses -/

/-- A register read at another offset or width is refused (R56 (a)). -/
theorem hostRegRead_refused {off bytes : Nat} {s : State} (h : off ≠ 0 ∧ off ≠ 4 ∧ off ≠ 8 ∧ off ≠ 12 ∨ bytes ≠ 4) :
    ∃ e, hostRegRead off bytes s = .refused e := by
  unfold hostRegRead
  by_cases hbytes : bytes = 4
  · obtain ⟨h0, h4, h8, h12⟩ := h.resolve_right (not_not_intro hbytes)
    exact ⟨.csrOffset, by simp [hbytes, regAt, h0, h4, h8, h12]⟩
  · exact ⟨.accessWidth, if_pos hbytes⟩

/-- Every register write but the `CMD` write while idle is refused (R56 (a), (d)). -/
theorem hostRegWrite_refused {off bytes : Nat} {s : State} (v : Reg) (h : off ≠ 8 ∨ bytes ≠ 4 ∨ s.busy = true) :
    ∃ e, hostRegWrite off bytes v s = .refused e := by
  unfold hostRegWrite
  split
  · exact ⟨_, rfl⟩
  next hbytes =>
    split
    next hoff =>
      have hbusy : s.busy = true := (h.resolve_left (not_not_intro hoff)).resolve_left hbytes
      exact ⟨.busy, if_pos hbusy⟩
    · split
      · exact ⟨_, rfl⟩
      · exact ⟨_, rfl⟩

/-- A misaligned access, one of another width and one at or beyond the end of the space are refused (R56 (b)). -/
theorem hostMem_refused_of_address {space : Space} {addr size : Nat} {s : State} (v : Word)
    (h : addr % 8 ≠ 0 ∨ size ≠ 8 ∨ spaceSize s space ≤ addr) :
    (∃ e, hostMemRead space addr size s = .refused e) ∧ ∃ e, hostMemWrite space addr size v s = .refused e := by
  unfold hostMemRead hostMemWrite
  exact ⟨withAddress_refused_of_address _ h, withAddress_refused_of_address _ h⟩

/-- A write to a ROM space is refused (R56 (c)). -/
theorem hostMemWrite_refused_of_rom {space : Space} {addr size : Nat} {s : State} (v : Word) (h : space ≠ .data) :
    ∃ e, hostMemWrite space addr size v s = .refused e := by
  cases space with
  | data => exact absurd rfl h
  | twrom => exact withAddress_refused_of_run (e := .readOnlySpace) rfl
  | brrom => exact withAddress_refused_of_run (e := .readOnlySpace) rfl

/-- `DATA` is neither read nor written while busy (R56 (d)). -/
theorem hostMem_data_refused_of_busy {addr size : Nat} {s : State} (v : Word) (h : s.busy = true) :
    (∃ e, hostMemRead .data addr size s = .refused e) ∧ ∃ e, hostMemWrite .data addr size v s = .refused e :=
  ⟨withAddress_refused_of_run (e := .busy) (if_pos h), withAddress_refused_of_run (e := .busy) (if_pos h)⟩

end Sys2Proof.Machine
end

section
/-! SUPPORT. The statements about the host's accesses, each settled from the facts above. -/

namespace Sys2Proof.Machine
open Claims

/-- Settles O29: the write is a store of one word, which no other word of the buffer file overlaps (R24). -/
theorem dataSpaceIsBufferFile : Obligations.DataSpaceIsBufferFile := by
  rintro s b i v hb hi _ rfl
  have hwrite := hostAct_writeData v hb hi
  have hread := hostAct_readData hb hi
  rw [wordAddr] at hwrite hread
  rw [hwrite, hread]
  refine ⟨fun hidle => ⟨⟨writeBuf b i [v] s, by simp [hidle], rfl, ?_, ?_, ?_⟩, ?_, ?_⟩,
    fun hbusy => ⟨if_pos hbusy, if_pos hbusy⟩⟩
  · exact bufWord_writeBuf s (j := 0) (ws := [v]) Nat.one_pos
  · intro c j hj hne
    exact bufWord_writeBuf_other s hi hj (hne.imp_right Nat.lt_or_gt_of_ne)
  · intro a ha
    exact readByte_writeWords_outside [v] _ _ (by simp only [wordAddr, List.length_singleton]; omega)
  · intro u hu
    simp [hidle, hu, addReply]
  · intro hnone
    simp [hidle, hnone]

/-- Settles O30, from the byte of a stored word and its number. -/
theorem storedWordsAreLittleEndian : Obligations.StoredWordsAreLittleEndian := by
  intro m a v j hj
  refine ⟨byteOf v j, ?_, byteOf_toNat v j⟩
  rw [readByte_writeWord, if_pos (by omega), Nat.add_sub_cancel_left]

/-- Settles O31: the ROMs of a sound state are the constructed tables, whose entries the reads return. -/
theorem romReads : Obligations.RomReads := by
  intro s hs
  refine ⟨fun o ho => ?_, fun t ht hfits => ?_⟩
  · have hlen : o < (twiddleTable s.logN).length := by rwa [twiddleTable_length]
    have hentry := List.getElem?_eq_getElem hlen
    exact ⟨_, hentry, hostAct_readTwrom ho (by rw [hs.tw_const, hentry])⟩
  · rw [hostAct_readBrrom ht (by rw [hs.br_const, reversalTable_getElem? ht]), brWord, if_pos hfits]
    rfl

/-- Settles O28: the four offsets of R28. -/
theorem registerReads : Obligations.RegisterReads :=
  fun _ => ⟨hostAct_regRead rfl, hostAct_regRead rfl, hostAct_regRead rfl, hostAct_regRead rfl⟩

/-- Settles O32, clause by clause of R56. -/
theorem accessesNotAdmitted : Obligations.AccessesNotAdmitted := by
  intro s space off addr size v w
  refine ⟨fun h => ⟨hostRegRead_refused h, hostRegWrite_refused v (by omega)⟩,
    fun h => hostRegWrite_refused v (.inl (by omega)),
    fun h => hostMem_refused_of_address w h, fun h => hostMemWrite_refused_of_rom w h, fun hbusy => ?_⟩
  obtain ⟨hread, hwrite⟩ := hostMem_data_refused_of_busy w hbusy
  exact ⟨hread, hwrite, hostRegWrite_refused v (.inr (.inr hbusy))⟩

end Sys2Proof.Machine
end

section
/-! SUPPORT. The fields of a command word as numbers, one equation of the decoder for each opcode of R85, the inversion of
the decoder, and the checks of R84 on the word of a command. -/

namespace Sys2Proof
open Claims

/-! ### The fields of a word -/

section
variable {w : Reg}

theorem rsvField_eq_zero_iff : rsvField w = 0#20 ↔ rsvOf w = 0 := by
  have hw := w.isLt
  rw [← BitVec.toNat_inj, rsvField, rsvOf, BitVec.extractLsb'_toNat, Nat.shiftRight_eq_div_pow, BitVec.toNat_zero]
  omega

theorem opcField_toNat : (opcField w).toNat = opcOf w := by
  rw [opcField, BitVec.extractLsb'_toNat, Nat.shiftRight_zero, opcOf]

theorem dstField_toNat : (dstField w).toNat = dstOf w := by
  rw [dstField, BitVec.extractLsb'_toNat, Nat.shiftRight_eq_div_pow, dstOf]

theorem srcField_toNat : (srcField w).toNat = srcOf w := by
  rw [srcField, BitVec.extractLsb'_toNat, Nat.shiftRight_eq_div_pow, srcOf]

theorem opcField_eq_iff {k : BitVec 4} : opcField w = k ↔ opcOf w = k.toNat := by
  rw [← BitVec.toNat_inj, opcField_toNat]

theorem dstField_eq_zero_iff : dstField w = 0#4 ↔ dstOf w = 0 := by
  rw [← BitVec.toNat_inj, dstField_toNat, BitVec.toNat_zero]

theorem srcField_eq_zero_iff : srcField w = 0#4 ↔ srcOf w = 0 := by
  rw [← BitVec.toNat_inj, srcField_toNat, BitVec.toNat_zero]

/-- A word with a zero `RSV` is put together again from its other fields (R81). -/
theorem encodeFields_of_fields {opc : Nat} (hrsv : rsvOf w = 0) (hopc : opcOf w = opc) :
    encodeFields opc (dstField w) (srcField w) = w := by
  unfold rsvOf at hrsv
  unfold opcOf at hopc
  apply BitVec.eq_of_toNat_eq
  rw [encodeFields_toNat opc (by omega), dstField_toNat, srcField_toNat, dstOf, srcOf]
  omega

end

section
variable {opc : Nat} (h : opc < 16) (d r : BufNo)
include h

@[simp] theorem dstField_encodeFields : dstField (encodeFields opc d r) = d := by
  obtain ⟨-, -, hdst, -⟩ := encodeFields_fields opc h d r
  exact hdst

@[simp] theorem srcField_encodeFields : srcField (encodeFields opc d r) = r := by
  obtain ⟨-, -, -, hsrc⟩ := encodeFields_fields opc h d r
  exact hsrc

@[simp] theorem rsvOf_encodeFields : rsvOf (encodeFields opc d r) = 0 := by
  obtain ⟨hrsv, -⟩ := encodeFields_fields opc h d r
  exact rsvField_eq_zero_iff.1 hrsv

@[simp] theorem opcOf_encodeFields : opcOf (encodeFields opc d r) = opc := by
  obtain ⟨-, hopc, -⟩ := encodeFields_fields opc h d r
  rw [← opcField_toNat, hopc]

@[simp] theorem dstOf_encodeFields : dstOf (encodeFields opc d r) = d.toNat := by
  rw [← dstField_toNat, dstField_encodeFields h]

@[simp] theorem srcOf_encodeFields : srcOf (encodeFields opc d r) = r.toNat := by
  rw [← srcField_toNat, srcField_encodeFields h]

end

/-! ### The decoder, opcode by opcode (R85) -/

theorem decode_of_rsv {w : Reg} (hrsv : rsvOf w ≠ 0) : decode w = .error .reservedBits :=
  if_pos (rsvField_eq_zero_iff.not.2 hrsv)

section
variable {w : Reg} (hrsv : rsvOf w = 0)
include hrsv

theorem decode_of_opc_zero (hopc : opcOf w = 0) :
    decode w = if dstOf w = 0 ∧ srcOf w = 0 then .ok .nop else .error .operandField := by
  simp [decode, rsvField_eq_zero_iff, opcField_eq_iff, dstField_eq_zero_iff, srcField_eq_zero_iff, hrsv, hopc]

theorem decode_of_opc_one (hopc : opcOf w = 1) : decode w = .ok (.fft (dstField w) (srcField w)) := by
  simp [decode, rsvField_eq_zero_iff, opcField_eq_iff, hrsv, hopc]

theorem decode_of_opc_two (hopc : opcOf w = 2) : decode w = .ok (.ifft (dstField w) (srcField w)) := by
  simp [decode, rsvField_eq_zero_iff, opcField_eq_iff, hrsv, hopc]

theorem decode_of_opc_three (hopc : opcOf w = 3) : decode w = .ok (.rfft (dstField w) (srcField w)) := by
  simp [decode, rsvField_eq_zero_iff, opcField_eq_iff, hrsv, hopc]

theorem decode_of_opc_four (hopc : opcOf w = 4) :
    decode w = if srcOf w = 0 then .ok (.cspec (dstField w)) else .error .operandField := by
  simp [decode, rsvField_eq_zero_iff, opcField_eq_iff, srcField_eq_zero_iff, hrsv, hopc]

theorem decode_of_opc_gt (hopc : 4 < opcOf w) : decode w = .error .opcode := by
  have hne : ∀ k : BitVec 4, k.toNat ≤ 4 → opcField w ≠ k := fun k hk => by rw [ne_eq, opcField_eq_iff]; omega
  simp [decode, rsvField_eq_zero_iff, hrsv, hne]

end

/-! ### Decoder and encoder -/

/-- Every command decodes back from its word. -/
theorem decode_encode (i : Instr) : decode (encode i) = .ok i := by
  cases i with
  | nop => rfl
  | fft d r => rw [encode, decode_of_opc_one (by simp) (by simp)]; simp
  | ifft d r => rw [encode, decode_of_opc_two (by simp) (by simp)]; simp
  | rfft d r => rw [encode, decode_of_opc_three (by simp) (by simp)]; simp
  | cspec d => rw [encode, decode_of_opc_four (by simp) (by simp)]; simp

/-- R84 (3), less the range check: a nonzero operand field where the command has no such operand. -/
def StrayOperand (w : Reg) : Prop :=
  (opcOf w = 0 ∧ (dstOf w ≠ 0 ∨ srcOf w ≠ 0)) ∨ (opcOf w = 4 ∧ srcOf w ≠ 0)

theorem decode_of_strayOperand {w : Reg} (hrsv : rsvOf w = 0) (h : StrayOperand w) :
    decode w = .error .operandField := by
  obtain ⟨hopc, hne⟩ | ⟨hopc, hne⟩ := h
  · rw [decode_of_opc_zero hrsv hopc, if_neg (by omega)]
  · rw [decode_of_opc_four hrsv hopc, if_neg hne]

/-- A word that passes the decoder's checks is read as the command whose word it is. -/
theorem decode_of_checks {w : Reg} (hrsv : rsvOf w = 0) (hopc : opcOf w ≤ 4) (hstray : ¬StrayOperand w) :
    ∃ i, decode w = .ok i ∧ encode i = w := by
  unfold StrayOperand at hstray
  have hrows : opcOf w = 0 ∨ opcOf w = 1 ∨ opcOf w = 2 ∨ opcOf w = 3 ∨ opcOf w = 4 := by omega
  obtain h | h | h | h | h := hrows <;> have hword := encodeFields_of_fields hrsv h
  · have hdst : dstOf w = 0 := by omega
    have hsrc : srcOf w = 0 := by omega
    rw [dstField_eq_zero_iff.2 hdst, srcField_eq_zero_iff.2 hsrc] at hword
    exact ⟨.nop, by rw [decode_of_opc_zero hrsv h, if_pos ⟨hdst, hsrc⟩], hword⟩
  · exact ⟨_, decode_of_opc_one hrsv h, hword⟩
  · exact ⟨_, decode_of_opc_two hrsv h, hword⟩
  · exact ⟨_, decode_of_opc_three hrsv h, hword⟩
  · have hsrc : srcOf w = 0 := by omega
    rw [srcField_eq_zero_iff.2 hsrc] at hword
    exact ⟨.cspec (dstField w), by rw [decode_of_opc_four hrsv h, if_pos hsrc], hword⟩

/-- What the decoder does with a word: the refusals, in the order of R84, or the command whose word it is. -/
theorem decode_cases (w : Reg) :
    (rsvOf w ≠ 0 ∧ decode w = .error .reservedBits) ∨
    (rsvOf w = 0 ∧ 4 < opcOf w ∧ decode w = .error .opcode) ∨
    (rsvOf w = 0 ∧ opcOf w ≤ 4 ∧ StrayOperand w ∧ decode w = .error .operandField) ∨
    (rsvOf w = 0 ∧ opcOf w ≤ 4 ∧ ¬StrayOperand w ∧ ∃ i, decode w = .ok i ∧ encode i = w) := by
  by_cases hrsv : rsvOf w = 0
  · by_cases hgt : 4 < opcOf w
    · exact .inr (.inl ⟨hrsv, hgt, decode_of_opc_gt hrsv hgt⟩)
    · have hopc : opcOf w ≤ 4 := Nat.le_of_not_lt hgt
      by_cases hstray : StrayOperand w
      · exact .inr (.inr (.inl ⟨hrsv, hopc, hstray, decode_of_strayOperand hrsv hstray⟩))
      · exact .inr (.inr (.inr ⟨hrsv, hopc, hstray, decode_of_checks hrsv hopc hstray⟩))
  · exact .inl ⟨hrsv, decode_of_rsv hrsv⟩

/-- The decoder inverts the encoder: a word has no meaning but that of the command it encodes. -/
theorem decode_eq_ok_iff {w : Reg} {i : Instr} : decode w = .ok i ↔ encode i = w := by
  constructor
  · intro h
    obtain ⟨-, e⟩ | ⟨-, -, e⟩ | ⟨-, -, -, e⟩ | ⟨-, -, -, i', e, hword⟩ := decode_cases w
    · rw [e] at h; cases h
    · rw [e] at h; cases h
    · rw [e] at h; cases h
    · rw [e] at h; cases h; exact hword
  · rintro rfl
    exact decode_encode i

/-! ### The checks of R84 on the word of a command -/

theorem illegalWord_encodeFields_two {nbuf opc : Nat} (h1 : 1 ≤ opc) (h3 : opc ≤ 3) (d r : BufNo) :
    IllegalWord nbuf (encodeFields opc d r) ↔ (legalBuf nbuf d && legalBuf nbuf r) = false := by
  have hopc : opc < 16 := by omega
  simp only [IllegalWord, hopc, rsvOf_encodeFields, opcOf_encodeFields, dstOf_encodeFields, srcOf_encodeFields,
    legalBuf, Bool.and_eq_false_iff, decide_eq_false_iff_not]
  omega

/-- R84 (1) to (3): the word of a command is illegal exactly when a buffer it names does not exist. -/
theorem illegalWord_encode {nbuf : Nat} (i : Instr) : IllegalWord nbuf (encode i) ↔ i.wf nbuf = false := by
  cases i with
  | nop => simp [IllegalWord, encode, Instr.wf]
  | fft d r => exact illegalWord_encodeFields_two (by decide) (by decide) d r
  | ifft d r => exact illegalWord_encodeFields_two (by decide) (by decide) d r
  | rfft d r => exact illegalWord_encodeFields_two (by decide) (by decide) d r
  | cspec d => simp [IllegalWord, encode, Instr.wf, legalBuf]

theorem aliasedWord_encodeFields_two {opc : Nat} (h1 : 1 ≤ opc) (h3 : opc ≤ 3) (d r : BufNo) :
    AliasedWord (encodeFields opc d r) ↔ decide (d = r) = true := by
  have hopc : opc < 16 := by omega
  simp [AliasedWord, hopc, h1, h3, BitVec.toNat_inj]

/-- R84 (4): the word of a command is aliased exactly when the command is. -/
theorem aliasedWord_encode (i : Instr) : AliasedWord (encode i) ↔ i.aliased = true := by
  cases i with
  | nop => simp [AliasedWord, encode, Instr.aliased]
  | fft d r => exact aliasedWord_encodeFields_two (by decide) (by decide) d r
  | ifft d r => exact aliasedWord_encodeFields_two (by decide) (by decide) d r
  | rfft d r => exact aliasedWord_encodeFields_two (by decide) (by decide) d r
  | cspec d => simp [AliasedWord, encode, Instr.aliased]

end Sys2Proof
end

section
/-! SUPPORT. What a step does at each kind of turn, and what a command that passes every check of R84 does. -/

namespace Sys2Proof.Machine
open Claims

/-! ### The step, turn by turn -/

theorem engineStep_of_idle {s : State} (h : s.busy = false) : engineStep s = .next s := by
  rw [engineStep, h]; rfl

section
variable {s : State} {l : List Turn}

theorem popTurn_of_turns {x : Turn} (h : s.turns = x :: l) : popTurn s = { s with turns := l } := by
  rw [popTurn, h, List.tail_cons]

theorem step_of_noTurn (h : s.turns = []) : step s = engineStep s := by
  rw [step, h]

theorem step_of_engine (h : s.turns = .engine :: l) : step s = engineStep { s with turns := l } := by
  rw [← popTurn_of_turns h, step, h]

theorem step_of_host {a : HostAction} (h : s.turns = .host a :: l) : step s = hostAct a { s with turns := l } := by
  rw [← popTurn_of_turns h, step, h]

theorem step_of_await (h : s.turns = .await :: l) :
    step s = if s.busy then engineStep s else .next (awaitReply { s with turns := l }) := by
  rw [← popTurn_of_turns h, step, h]

theorem step_of_stopOnFault (h : s.turns = .stopOnFault :: l) :
    step s = .next (stopIfFaulted { s with turns := l }) := by
  rw [← popTurn_of_turns h, step, h]

end

theorem stopIfFaulted_turns (s : State) (l : List Turn) :
    stopIfFaulted { s with turns := l } = { s with turns := if s.errCode = 0 then l else [] } := by
  have herr : State.errCode { s with turns := l } = s.errCode := rfl
  rw [stopIfFaulted, herr]
  split <;> rfl

/-- The engine's turn changes nothing but the turn list before the command runs. -/
theorem engineHasTurn_turns {s s' : State} (h : EngineHasTurn s s') : ∃ l, s' = { s with turns := l } := by
  obtain ⟨rfl, -⟩ | ⟨l, -, rfl⟩ := h
  · exact ⟨s'.turns, rfl⟩
  · exact ⟨l, rfl⟩

/-- Whatever turn list gives the engine its turn, the step of a busy block is the command in flight. -/
theorem step_of_engineHasTurn {s s' : State} (hbusy : s.busy = true) (h : EngineHasTurn s s') :
    step s = runCommand s' := by
  obtain ⟨rfl, hnone | ⟨l, hawait⟩⟩ | ⟨l, hengine, rfl⟩ := h
  · rw [step_of_noTurn hnone, engineStep_of_busy hbusy]
  · rw [step_of_await hawait, if_pos hbusy, engineStep_of_busy hbusy]
  · rw [step_of_engine hengine]
    exact engineStep_of_busy hbusy

/-- The step of a busy block whose word decodes is that command's meaning. -/
theorem step_of_decode {s s' : State} {i : Instr} (hbusy : s.busy = true) (h : EngineHasTurn s s')
    (hdec : decode s.cmd = .ok i) : step s = exec i s' := by
  rw [step_of_engineHasTurn hbusy h]
  obtain ⟨l, rfl⟩ := engineHasTurn_turns h
  exact runCommand_of_decode hdec

/-! ### Commands that pass every check -/

theorem twoBuffers_of_checks {s : State} {d r : BufNo} (hwf : (legalBuf s.nbuf d && legalBuf s.nbuf r) = true)
    (hal : decide (d = r) = false) : TwoBuffers s d r := by
  simpa [legalBuf, and_assoc] using And.intro hwf hal

/-- FFT, IFFT and RFFT complete when the words they read have been written. -/
theorem outOfPlace_completes {d r : BufNo} {k : Nat} (f : List Word → List F64) {s : State} (hbuf : TwoBuffers s d r)
    (hw : ∀ j, j < k → (bufWord s r j).isSome = true) :
    ∃ t, withTwoBuffers d r s (fun s' => transform d r k f s') = .next t ∧ StatusEnds s t 0 := by
  obtain ⟨hd, hr, hdr⟩ := hbuf
  obtain ⟨ws, hread⟩ : ∃ ws, readBuf s r 0 k = some ws := readBuf_of_written (by simpa using hw)
  exact ⟨complete (storeResults d (f ws) s), by rw [withTwoBuffers_run _ hd hr hdr, transform_of_read hread],
    endCommand_statusEnds 0 rfl⟩

/-- CSPEC completes when words `2 .. N-1` have been written. -/
theorem execCspec_completes {d : BufNo} {s : State} (hd : d.toNat < s.nbuf)
    (hw : ∀ j, 2 ≤ j → j < s.size → (bufWord s d j).isSome = true) :
    ∃ t, exec (.cspec d) s = .next t ∧ StatusEnds s t 0 := by
  obtain ⟨ws, hread⟩ : ∃ ws, readBuf s d 2 (s.size - 2) = some ws :=
    readBuf_of_written fun j hj => hw (2 + j) (by omega) (by omega)
  obtain ⟨hn, -⟩ | ⟨-, hnone, -⟩ | ⟨-, ws', -, e⟩ := execCspec_cases d s
  · exact absurd hd hn
  · rw [hread] at hnone; cases hnone
  · exact ⟨_, e, endCommand_statusEnds 0 rfl⟩

section
variable {s : State} {i : Instr} (hwf : i.wf s.nbuf = true)
include hwf

/-- A command reads words of existing buffers only (R25). -/
theorem readsWord_bounds {b : BufNo} {j : Nat} (h : ReadsWord s.size i b j) : b.toNat < s.nbuf ∧ j < 2 * s.size := by
  cases i with
  | nop => exact h.elim
  | fft d r | ifft d r | rfft d r =>
    obtain ⟨rfl, hj⟩ := h
    obtain ⟨-, hb⟩ : d.toNat < s.nbuf ∧ b.toNat < s.nbuf := by simpa [Instr.wf, legalBuf] using hwf
    exact ⟨hb, by omega⟩
  | cspec d =>
    obtain ⟨rfl, -, hj⟩ := h
    exact ⟨of_decide_eq_true hwf, by omega⟩

variable (hal : i.aliased = false)
include hal

/-- A command that passes its checks completes when every word it reads has been written. -/
theorem exec_completes (hw : ∀ b j, ReadsWord s.size i b j → (bufWord s b j).isSome = true) :
    ∃ t, exec i s = .next t ∧ StatusEnds s t 0 := by
  cases i with
  | nop => exact ⟨_, execNop_eq s, endCommand_statusEnds 0 rfl⟩
  | fft d r =>
    rw [execFft_eq]
    exact outOfPlace_completes _ (twoBuffers_of_checks hwf hal) fun j hj => hw r j ⟨rfl, hj⟩
  | ifft d r =>
    rw [execIfft_eq]
    exact outOfPlace_completes _ (twoBuffers_of_checks hwf hal) fun j hj => hw r j ⟨rfl, hj⟩
  | rfft d r =>
    rw [execRfft_eq]
    exact outOfPlace_completes _ (twoBuffers_of_checks hwf hal) fun j hj => hw r j ⟨rfl, hj⟩
  | cspec d => exact execCspec_completes (of_decide_eq_true hwf) fun j h2 hj => hw d j ⟨rfl, h2, hj⟩

/-- A command that passes its checks stops on an unwritten word that it reads (R39, R289). -/
theorem exec_unwritten {b : BufNo} {j : Nat} (hreads : ReadsWord s.size i b j) (hnone : bufWord s b j = none) :
    exec i s = .fault .unwrittenWord := by
  cases i with
  | nop => exact hreads.elim
  | fft d r =>
    obtain ⟨rfl, hj⟩ := hreads
    rw [execFft_eq]
    exact outOfPlace_unwritten _ (twoBuffers_of_checks hwf hal) hnone hj
  | ifft d r =>
    obtain ⟨rfl, hj⟩ := hreads
    rw [execIfft_eq]
    exact outOfPlace_unwritten _ (twoBuffers_of_checks hwf hal) hnone hj
  | rfft d r =>
    obtain ⟨rfl, hj⟩ := hreads
    rw [execRfft_eq]
    exact outOfPlace_unwritten _ (twoBuffers_of_checks hwf hal) hnone hj
  | cspec d =>
    obtain ⟨rfl, h2, hj⟩ := hreads
    exact execCspec_unwritten (of_decide_eq_true hwf) hnone h2 hj

end

end Sys2Proof.Machine
end

section
/-! SUPPORT. The statements about the encoding and the engine's turn, each settled from the facts above. -/

namespace Sys2Proof
open Claims

/-- Settles O1: the decoder refuses a word or reads it as the command whose word it is, and reads every command's word. -/
theorem decodeInvertsEncode : Obligations.DecodeInvertsEncode := fun _ _ => decode_eq_ok_iff

/-- Settles O3: the decoder's cases exclude each other. -/
theorem rejectedWords : Obligations.RejectedWords := by
  intro w
  change _ ∧ _ ∧ (_ ↔ _ ∧ StrayOperand w)
  obtain ⟨hrsv, e⟩ | ⟨hrsv, hopc, e⟩ | ⟨hrsv, hopc, hstray, e⟩ | ⟨hrsv, hopc, hstray, i, e, -⟩ := decode_cases w
  · simp [e, hrsv]
  · have hstray : ¬StrayOperand w := by unfold StrayOperand; omega
    simp [e, hrsv, hopc, hstray]
  · simp [e, hrsv, hopc, hstray]
  · simp [e, hrsv, hopc, hstray]

/-- Settles O2, from the encoded word as a number and the first check of R84. -/
theorem encodedFieldsOfCommands : Obligations.EncodedFieldsOfCommands := by
  refine ⟨fun d r => ⟨rfl, ?_, ?_, ?_, ?_⟩, fun w hrsv i h => ?_⟩
  · exact encodeFields_toNat 1 (by decide) d r
  · exact encodeFields_toNat 2 (by decide) d r
  · exact encodeFields_toNat 3 (by decide) d r
  · exact encodeFields_toNat 4 (by decide) d 0
  · rw [decode_of_rsv hrsv] at h; cases h

/-- Settles O4: six words of the encoder, and two words outside its range. -/
theorem encodingExamples : Obligations.EncodingExamples :=
  ⟨decode_encode .nop, decode_encode (.fft 1 0), decode_encode (.ifft 2 1), decode_encode (.rfft 3 0),
    decode_encode (.cspec 3), decode_encode (.fft 1 1), decode_of_opc_gt rfl (by decide), decode_of_rsv (by decide)⟩

end Sys2Proof

namespace Sys2Proof.Machine
open Claims

/-- Settles O9: such a word is that of a command whose own checks all pass, and the command reads all its words first. -/
theorem legalWordsComplete : Obligations.LegalWordsComplete := by
  intro s s' hbusy hturn hlegal hdistinct
  have hrsv : rsvOf s.cmd = 0 := by omega
  have hopc : opcOf s.cmd ≤ 4 := by omega
  have hstray : ¬StrayOperand s.cmd := by unfold StrayOperand; omega
  obtain ⟨i, hdec, hword⟩ := decode_of_checks hrsv hopc hstray
  have hwf : i.wf s.nbuf = true := by
    rwa [← hword, illegalWord_encode, Bool.not_eq_false] at hlegal
  have hal : i.aliased = false := by
    rwa [← hword, aliasedWord_encode, Bool.not_eq_true] at hdistinct
  rw [step_of_decode hbusy hturn hdec]
  obtain ⟨l, rfl⟩ := engineHasTurn_turns hturn
  exact ⟨i, hdec, fun b j => readsWord_bounds hwf, exec_completes (s := { s with turns := l }) hwf hal,
    fun ⟨b, j, hreads, hnone⟩ => exec_unwritten (s := { s with turns := l }) hwf hal hreads hnone⟩

/-- Settles O5, turn by turn. -/
theorem engineTurnRunsDecodedCommand : Obligations.EngineTurnRunsDecodedCommand := by
  refine ⟨fun s i hbusy hdec => ⟨fun h => ?_, fun l h => ?_, fun l h => ?_⟩,
    fun s hidle => ⟨fun h => ?_, fun l h => ?_, fun l h => ?_⟩, fun s a l h => step_of_host h, fun s l h => ?_⟩
  · exact step_of_decode hbusy (.inl ⟨rfl, .inl h⟩) hdec
  · exact step_of_decode hbusy (.inr ⟨l, h, rfl⟩) hdec
  · exact step_of_decode hbusy (.inl ⟨rfl, .inr ⟨l, h⟩⟩) hdec
  · rw [step_of_noTurn h, engineStep_of_idle hidle]
  · rw [step_of_engine h]; exact engineStep_of_idle hidle
  · rw [step_of_await h, hidle]; rfl
  · rw [step_of_stopOnFault h, stopIfFaulted_turns]

end Sys2Proof.Machine
end

section
/-! SUPPORT. Construction: the valid sizes, the digits of a reversed group index, and the entries of the twiddle ROM with
their angles (R103 to R110). -/

namespace Sys2Proof

/-! ### The size (R103, R104) -/

theorem toNat_two_pow (n : Nat) : ((2 : Int) ^ n).toNat = 2 ^ n := by
  exact_mod_cast Int.toNat_natCast (2 ^ n)

/-- A size passes the test of R104 exactly when it is a power of two above 1. -/
theorem validSize_iff {size : Int} : validSize size = true ↔ ∃ n : Nat, 1 ≤ n ∧ size = 2 ^ n := by
  rw [validSize, Bool.and_eq_true, decide_eq_true_iff, decide_eq_true_iff]
  constructor
  · rintro ⟨hgt, hpow⟩
    obtain ⟨m, rfl⟩ := Int.eq_ofNat_of_zero_le (show 0 ≤ size by omega)
    rw [Int.toNat_natCast] at hpow
    exact ⟨m.log2, (Nat.le_log2 (by omega)).2 (by omega), by exact_mod_cast hpow.symm⟩
  · rintro ⟨n, hn, rfl⟩
    rw [toNat_two_pow, Nat.log2_two_pow]
    exact ⟨one_lt_pow₀ (by decide) (by omega), rfl⟩

theorem construct_eq_invalidSize_iff {size : Int} :
    construct size = .error .invalidSize ↔ ¬validSize size = true := by
  unfold construct
  cases validSize size
  · simp
  · by_cases h : 255 < size.toNat.log2 <;> simp [h]

theorem construct_two_pow {n : Nat} (hn : 1 ≤ n) :
    construct (2 ^ n) = if 255 < n then .error .outsideSpec else .ok (contextOf n) := by
  have hvalid : validSize (2 ^ n) = true := validSize_iff.2 ⟨n, hn, rfl⟩
  rw [construct, hvalid, toNat_two_pow, Nat.log2_two_pow]
  rfl

/-! ### Digits of a reversed index (R109, R110) -/

/-- Base-4 digit `p - 1 - d` of the reversed index is digit `d` of the index. -/
theorem rev4_digit {p d : Nat} (hd : d < p) (t : Nat) : rev4 p t / 4 ^ (p - 1 - d) % 4 = t / 4 ^ d % 4 := by
  induction p generalizing d t with
  | zero => omega
  | succ p ih =>
    rw [rev4_succ, Nat.add_sub_cancel]
    cases d with
    | zero =>
      rw [Nat.sub_zero, Nat.add_comm, Nat.add_mul_div_right _ _ (by positivity), Nat.div_eq_of_lt (rev4_lt p _)]
      simp
    | succ d =>
      have hpow : t % 4 * 4 ^ p = t % 4 * 4 ^ d * 4 * 4 ^ (p - 1 - d) := by
        rw [mul_assoc, mul_assoc, ← pow_succ', ← pow_add, show d + (p - 1 - d + 1) = p by omega]
      rw [show p - (d + 1) = p - 1 - d by omega, hpow, Nat.add_comm, Nat.add_mul_div_right _ _ (by positivity),
        Nat.add_mul_mod_self_right, ih (by omega), Nat.div_div_eq_div_mul, ← pow_succ']

theorem rev4_rev4 {p t : Nat} (ht : t < 4 ^ p) : rev4 p (rev4 p t) = t := by
  induction p generalizing t with
  | zero => simpa [eq_comm] using ht
  | succ p ih =>
    have hrest : t / 4 < 4 ^ p := by rw [pow_succ] at ht; omega
    rw [rev4_succ p t, rev4_add_high p _ _ (rev4_lt p _) (Nat.mod_lt _ (by decide)), ih hrest]
    exact Nat.div_add_mod t 4

/-- An index without a top digit is reversed into the other digits. -/
theorem rev4_succ_of_lt {p t : Nat} (ht : t < 4 ^ p) : rev4 (p + 1) t = 4 * rev4 p t := by
  simpa using rev4_add_high p 0 t ht (by decide)

/-! ### The entries of the twiddle ROM (R105) -/

/-- A list of pairs, laid out flat, holds the first members at the even places and the second ones at the odd places. -/
theorem getElem?_flatMap_pair {α β : Type} (f g : α → β) (l : List α) (k : Nat) :
    (l.flatMap fun a => [f a, g a])[2 * k]? = l[k]?.map f ∧
    (l.flatMap fun a => [f a, g a])[2 * k + 1]? = l[k]?.map g := by
  induction l generalizing k with
  | nil => simp
  | cons a l ih =>
    cases k with
    | zero => simp
    | succ k => simpa [Nat.mul_succ] using ih k

section
variable {n k : Nat} (hk : k < 2 ^ n)
include hk

theorem twiddleTable_getElem?_even : (twiddleTable n)[2 * k]? = some (cos64 (twiddleAngleWord n k)) := by
  rw [twiddleTable, (getElem?_flatMap_pair ..).1, List.getElem?_range hk, Option.map_some]

theorem twiddleTable_getElem?_odd : (twiddleTable n)[2 * k + 1]? = some (negWord (sin64 (twiddleAngleWord n k))) := by
  rw [twiddleTable, (getElem?_flatMap_pair ..).2, List.getElem?_range hk, Option.map_some]

end

theorem cos64_zero : cos64 0#64 = 0x3FF0000000000000#64 := if_pos rfl

theorem sin64_zero : sin64 0#64 = 0#64 := if_pos rfl

/-! ### Rounding of zero and of a doubled magnitude -/

namespace F64

protected theorem one_pos : 0 < one := by unfold one; positivity

theorem overflow_pos : 0 < overflow := by unfold overflow; positivity

theorem round_of_lt {rm : RoundingMode} {neg : Bool} {a d : Nat} (h : roundMag rm neg a d < overflow) :
    round rm neg a d = .fin neg (roundMag rm neg a d) := by
  unfold round finish; rw [if_pos h]

theorem roundMag_zero (rm : RoundingMode) (neg : Bool) {d : Nat} (hd : 0 < d) : roundMag rm neg 0 d = 0 := by
  simpa using roundMag_exact rm neg (q := 0) (e := 0) (by decide) hd

theorem round_zero (rm : RoundingMode) (neg : Bool) {d : Nat} (hd : 0 < d) : round rm neg 0 d = .fin neg 0 := by
  have hmag := roundMag_zero rm neg hd
  rw [round_of_lt (by rw [hmag]; exact overflow_pos), hmag]

theorem round_mul_right (rm : RoundingMode) (neg : Bool) (a d : Nat) {c : Nat} (hc : 0 < c) :
    round rm neg (a * c) (d * c) = round rm neg a d := by
  rw [round, round, roundMag_mul_right rm neg a d hc]

/-- Above the subnormal range twice a magnitude rounds to twice the rounded magnitude: the significand is the same and the
unit is doubled. -/
theorem roundMag_two_mul (rm : RoundingMode) (neg : Bool) {a : Nat} (ha : 2 ^ 52 ≤ a) :
    roundMag rm neg (a * 2) 1 = roundMag rm neg a 1 * 2 := by
  have hlog : 52 ≤ a.log2 := (Nat.le_log2 (by omega)).2 ha
  have hunit : ulpExp (a * 2) 1 = ulpExp (a * 2) 2 + 1 := by
    rw [ulpExp, ulpExp, Nat.div_one, Nat.mul_div_cancel a (by decide), Nat.mul_comm, Nat.log2_two_mul (by omega)]
    omega
  have hdivisor : 1 * 2 ^ ulpExp (a * 2) 1 = 2 * 2 ^ ulpExp (a * 2) 2 := by rw [hunit, Nat.one_mul, Nat.pow_succ']
  rw [← roundMag_mul_right rm neg a 1 (show 0 < 2 by decide), Nat.one_mul, roundMag_eq, roundMag_eq, hdivisor, hunit,
    Nat.pow_succ, ← Nat.mul_assoc]

theorem roundMag_rne_le (neg : Bool) (a : Nat) : roundMag .rne neg a 1 ≤ 2 * a := by
  have h := roundMag_rne_nearest neg (a := a) (d := 1) (by decide) (q := 0) (e := 0) (by decide)
  simp only [Nat.cast_zero, Nat.cast_one, zero_mul, mul_one, zero_sub, abs_neg, Nat.abs_cast] at h
  have := (abs_le.1 h).2
  omega

end F64

/-! ### The angle (R137) -/

/-- The magnitude of `PI64` in units of `2^-1074`. -/
def piMag : Nat := 0x1921FB54442D18 * 2 ^ 1023

theorem pi64_eq : pi64 = .fin false piMag := by decide +kernel

theorem le_piMag : 2 ^ 52 ≤ piMag :=
  (show 2 ^ 52 ≤ 0x1921FB54442D18 by decide).trans (Nat.le_mul_of_pos_right _ (by positivity))

/-- The product of `PI64` and a word offset of a table within the spec is far from overflow. -/
theorem mul_pi64_ofNat {o : Nat} (ho : o ≤ 2 ^ 256) :
    F64.mul .rne pi64 (F64.ofNat o) = .fin false (F64.roundMag .rne false (piMag * o) 1) := by
  have hbound : F64.roundMag .rne false (piMag * o) 1 < F64.overflow := calc
    F64.roundMag .rne false (piMag * o) 1 ≤ 2 * (piMag * o) := F64.roundMag_rne_le false _
    _ ≤ 2 * (piMag * 2 ^ 256) := Nat.mul_le_mul_left 2 (Nat.mul_le_mul_left piMag ho)
    _ < F64.overflow := by decide +kernel
  calc F64.mul .rne pi64 (F64.ofNat o)
    _ = F64.round .rne false (piMag * o * F64.one) (1 * F64.one) := by
      rw [pi64_eq, F64.ofNat, F64.mul, ← Nat.mul_assoc, Nat.one_mul]; rfl
    _ = F64.round .rne false (piMag * o) 1 := F64.round_mul_right .rne false _ 1 F64.one_pos
    _ = .fin false (F64.roundMag .rne false (piMag * o) 1) := F64.round_of_lt hbound

/-- A quotient by `N` is the quotient of the magnitudes: the unit of `N` cancels that of the numerator. -/
theorem div_ofNat_two_pow (m n : Nat) :
    F64.div .rne (.fin false m) (F64.ofNat (2 ^ n)) = F64.round .rne false m (2 ^ n) := by
  have hdivisor : 2 ^ n * F64.one ≠ 0 := (Nat.mul_pos (Nat.two_pow_pos n) F64.one_pos).ne'
  rw [F64.ofNat, F64.div, if_neg hdivisor, F64.round_mul_right .rne _ m (2 ^ n) F64.one_pos]
  rfl

/-- The angle in units of `2^-1074`: `PI64 * 2k` and its quotient by `2^n`, each rounded once. -/
theorem twiddleAngle_eq {n k : Nat} (hk : 2 * k ≤ 2 ^ 256) :
    twiddleAngle n k = F64.round .rne false (F64.roundMag .rne false (piMag * (2 * k)) 1) (2 ^ n) := by
  rw [twiddleAngle, mul_pi64_ofNat hk, div_ofNat_two_pow]

theorem twiddleAngle_zero (n : Nat) : twiddleAngle n 0 = .fin false 0 := by
  rw [twiddleAngle_eq (Nat.zero_le _), Nat.mul_zero, F64.roundMag_zero .rne false Nat.one_pos,
    F64.round_zero .rne false (Nat.two_pow_pos n)]

/-- Both operands of the quotient double, so the angle is the same (R106 (d)). -/
theorem twiddleAngle_succ_two_mul {n k : Nat} (hk : 2 * (2 * k) ≤ 2 ^ 256) :
    twiddleAngle (n + 1) (2 * k) = twiddleAngle n k := by
  rcases Nat.eq_zero_or_pos k with rfl | hpos
  · rw [Nat.mul_zero, twiddleAngle_zero, twiddleAngle_zero]
  · have hnormal : 2 ^ 52 ≤ piMag * (2 * k) := le_piMag.trans (Nat.le_mul_of_pos_right _ (by omega))
    rw [twiddleAngle_eq hk, twiddleAngle_eq (by omega), Nat.mul_comm 2 (2 * k), ← Nat.mul_assoc,
      F64.roundMag_two_mul .rne false hnormal, Nat.pow_succ, F64.round_mul_right .rne false _ _ (by decide)]

theorem twiddleAngleWord_zero (n : Nat) : twiddleAngleWord n 0 = 0#64 := by
  rw [twiddleAngleWord, twiddleAngle_zero]; rfl

theorem twiddleAngleWord_succ_two_mul {n k : Nat} (hk : 2 * (2 * k) ≤ 2 ^ 256) :
    twiddleAngleWord (n + 1) (2 * k) = twiddleAngleWord n k := by
  rw [twiddleAngleWord, twiddleAngle_succ_two_mul hk, twiddleAngleWord]

end Sys2Proof
end

section
/-! SUPPORT. The statements about construction and its tables, each settled from the facts above. -/

namespace Sys2Proof

/-- Settles O39: the size test is the statement's, and the logarithm of `2^n` is `n`. -/
theorem constructionValidatesSize : Obligations.ConstructionValidatesSize := by
  intro size
  refine ⟨construct_eq_invalidSize_iff.trans (not_congr validSize_iff), ?_⟩
  rintro n hn rfl
  rw [construct_two_pow hn]
  exact ⟨fun hle => if_neg hle.not_gt, fun hlt => if_pos hlt⟩

/-- Settles O40, from `b + 2p = ne` and `B * G = 2^ne`. -/
theorem shapeNumbers : Obligations.ShapeNumbers := by
  intro ne hne
  have hbits := baseBits_add_passes hne
  have hpoints := basePoints_mul_groups hne
  refine ⟨fun heven => if_pos heven, fun hodd => if_neg (by omega), rfl, rfl, by omega, by omega, rfl, ?_, hpoints, ?_⟩
  · rw [← hpoints, Nat.mul_div_cancel_left _ (basePoints_pos ne)]
  · rw [groups, Nat.pow_mul]

/-- Settles O41, digit by digit. -/
theorem rev4MirrorsDigits : Obligations.Rev4MirrorsDigits :=
  ⟨fun p t _ _ => ⟨rev4_lt p t, fun hd => rev4_digit hd t⟩, rev4_zero 0, by decide, by decide⟩

/-- Settles O42: the lowest digit goes to the top and comes back, and a zero top digit becomes the lowest one. -/
theorem rev4Laws : Obligations.Rev4Laws := by
  refine ⟨fun p t ht => rev4_rev4 ht, fun p t hp ht => ?_⟩
  obtain ⟨p, rfl⟩ := Nat.exists_eq_add_of_le' hp
  rw [Nat.add_sub_cancel] at ht ⊢
  rw [rev4_succ_of_lt ht, Nat.shiftRight_eq_div_pow]
  exact (Nat.mul_div_cancel_left _ (by decide)).symm

/-- Settles O44: both ROM words of a pair are functions of the angle, which is `+0.0` for pair 0 and is kept when the size
and the pair's number double. -/
theorem twiddleTableLaws : Obligations.TwiddleTableLaws := by
  refine fun n => ⟨twiddleTable_length n, ?_, ?_, fun hn hmax k hk => ?_⟩
  · rw [← Nat.mul_zero 2, twiddleTable_getElem?_even (Nat.two_pow_pos n), twiddleAngleWord_zero, cos64_zero]
  · have h := twiddleTable_getElem?_odd (Nat.two_pow_pos n)
    rw [twiddleAngleWord_zero, sin64_zero] at h
    exact h
  · obtain ⟨n, rfl⟩ := Nat.exists_eq_add_of_le' hn
    rw [Nat.add_sub_cancel] at hk ⊢
    have hpair : 2 * k < 2 ^ (n + 1) := by rw [Nat.pow_succ]; omega
    have hoffset : 2 * (2 * k) ≤ 2 ^ 256 := calc
      2 * (2 * k) ≤ 2 * 2 ^ (n + 1) := Nat.mul_le_mul_left 2 hpair.le
      _ = 2 ^ (n + 2) := (Nat.pow_succ' ..).symm
      _ ≤ 2 ^ 256 := Nat.pow_le_pow_right (by decide) (by omega)
    rw [show 4 * k = 2 * (2 * k) by ring, twiddleTable_getElem?_even hpair, twiddleTable_getElem?_odd hpair,
      twiddleTable_getElem?_even hk, twiddleTable_getElem?_odd hk, twiddleAngleWord_succ_two_mul hoffset]
    exact ⟨rfl, rfl⟩

end Sys2Proof
end

section
/-! SUPPORT. The 64-bit patterns: the fields of a word (R130), the word put together again from a sign, an exponent and a
fraction, the sign bit inverted (R133), and the quiet NaNs (R135). -/

namespace Sys2Proof.F64

/-! ### The fields of a pattern (R130) -/

/-- The biased exponent of a pattern. -/
def exponent (w : Word) : Nat := (w.extractLsb' 52 11).toNat

/-- The fraction of a pattern. -/
def fraction (w : Word) : Nat := (w.extractLsb' 0 52).toNat

theorem exponent_lt (w : Word) : exponent w < 2 ^ 11 := BitVec.isLt _

theorem fraction_lt (w : Word) : fraction w < 2 ^ 52 := BitVec.isLt _

section
variable {w : Word}

theorem ofWord_of_inf (he : exponent w = 2047) (hf : fraction w = 0) : ofWord w = .inf w.msb :=
  (if_pos he).trans (if_pos hf)

theorem ofWord_of_nan (he : exponent w = 2047) (hf : fraction w ≠ 0) : ofWord w = .nan :=
  (if_pos he).trans (if_neg hf)

theorem ofWord_of_subnormal (he : exponent w = 0) : ofWord w = .fin w.msb (fraction w) :=
  (if_neg (show ¬exponent w = 2047 by omega)).trans (if_pos he)

theorem ofWord_of_normal (he : exponent w ≠ 2047) (he0 : exponent w ≠ 0) :
    ofWord w = .fin w.msb ((2 ^ 52 + fraction w) * 2 ^ (exponent w - 1)) :=
  (if_neg he).trans (if_neg he0)

end

/-! ### The pattern put together again -/

/-- Up to 53 bits a magnitude is packed as it is: a subnormal, or the lowest binade. -/
theorem packMag_of_lt {m : Nat} (hm : m < 2 ^ 53) : packMag m = m := by
  have hlog : m.log2 - 52 = 0 := by
    rcases Nat.eq_zero_or_pos m with rfl | hpos
    · rfl
    · have := (Nat.log2_lt hpos.ne').2 hm
      omega
  rw [packMag, hlog]
  simp

theorem log2_mul_two_pow {q k : Nat} (t : Nat) (hk : 2 ^ k ≤ q) (hk1 : q < 2 ^ (k + 1)) : (q * 2 ^ t).log2 = k + t := by
  have hq : 0 < q := (Nat.two_pow_pos k).trans_le hk
  rw [Nat.log2_eq_iff (Nat.mul_pos hq (Nat.two_pow_pos t)).ne', Nat.pow_add, Nat.add_right_comm, Nat.pow_add]
  exact ⟨Nat.mul_le_mul_right _ hk, Nat.mul_lt_mul_of_pos_right hk1 (Nat.two_pow_pos t)⟩

/-- The hidden bit of a normal significand carries into the exponent field. -/
theorem packMag_normal {q : Nat} (t : Nat) (h52 : 2 ^ 52 ≤ q) (h53 : q < 2 ^ 53) :
    packMag (q * 2 ^ t) = t * 2 ^ 52 + q := by
  have hlog : (q * 2 ^ t).log2 = 52 + t := log2_mul_two_pow t h52 h53
  rw [packMag, hlog, Nat.add_sub_cancel_left, Nat.mul_div_cancel _ (Nat.two_pow_pos t)]

/-- A pattern that is no infinity and no NaN holds a 53-bit significand times a power of two, which packs into the
pattern's two fields. -/
theorem ofWord_of_finite {w : Word} (he : exponent w ≠ 2047) :
    ∃ q t, q < 2 ^ 53 ∧ t ≤ 2045 ∧ ofWord w = .fin w.msb (q * 2 ^ t) ∧
      packMag (q * 2 ^ t) = exponent w * 2 ^ 52 + fraction w := by
  have hf := fraction_lt w
  by_cases he0 : exponent w = 0
  · refine ⟨fraction w, 0, by omega, by omega, ?_, ?_⟩
    · rw [ofWord_of_subnormal he0, Nat.pow_zero, Nat.mul_one]
    · rw [Nat.pow_zero, Nat.mul_one, packMag_of_lt (by omega), he0, Nat.zero_mul, Nat.zero_add]
  · have hlt := exponent_lt w
    refine ⟨2 ^ 52 + fraction w, exponent w - 1, by omega, by omega, ofWord_of_normal he he0, ?_⟩
    rw [packMag_normal _ (by omega) (by omega)]
    omega

/-- The sign bit and the two fields make up the word (R130). -/
theorem withSign_fields (w : Word) : withSign w.msb (BitVec.ofNat 63 (exponent w * 2 ^ 52 + fraction w)) = w := by
  have hexp : exponent w = w.toNat / 2 ^ 52 % 2 ^ 11 := by
    rw [exponent, BitVec.extractLsb'_toNat, Nat.shiftRight_eq_div_pow]
  have hfrac : fraction w = w.toNat % 2 ^ 52 := by
    rw [fraction, BitVec.extractLsb'_toNat, Nat.shiftRight_zero]
  have hw := w.isLt
  apply BitVec.eq_of_toNat_eq
  rw [withSign, BitVec.toNat_append, ← Nat.shiftLeft_add_eq_or_of_lt (BitVec.isLt _), BitVec.toNat_ofBool,
    BitVec.toNat_ofNat, BitVec.msb_eq_decide, Nat.shiftLeft_eq, hexp, hfrac]
  by_cases hsign : 2 ^ (64 - 1) ≤ w.toNat
  · rw [decide_eq_true hsign, Bool.toNat_true]
    omega
  · rw [decide_eq_false hsign, Bool.toNat_false]
    omega

theorem mul_two_pow_lt {q t top : Nat} (hq : q < 2 ^ 53) (ht : t ≤ top) : q * 2 ^ t < 2 ^ 53 * 2 ^ top :=
  (Nat.mul_lt_mul_of_pos_right hq (Nat.two_pow_pos t)).trans_le
    (Nat.mul_le_mul_left _ (Nat.pow_le_pow_right (by decide) ht))

/-- The overflow bound is one unit of the highest binade above the largest significand there. -/
theorem overflow_eq : overflow = 2 ^ 53 * 2 ^ 2045 := by rw [overflow, ← Nat.pow_add]

theorem mul_two_pow_lt_overflow {q t : Nat} (hq : q < 2 ^ 53) (ht : t ≤ 2045) : q * 2 ^ t < overflow := by
  rw [overflow_eq]
  exact mul_two_pow_lt hq ht

/-! ### The sign bit inverted (R133) -/

theorem getLsbD_negWord (w : Word) {i : Nat} (hi : i < 63) : (negWord w).getLsbD i = w.getLsbD i := by
  rw [negWord, BitVec.getLsbD_xor, show (0x8000000000000000#64).getLsbD i = false by interval_cases i <;> rfl, Bool.xor_false]

theorem getLsbD_negWord_sign (w : Word) : (negWord w).getLsbD 63 = !w.getLsbD 63 := by
  rw [negWord, BitVec.getLsbD_xor]
  exact Bool.xor_true _

theorem msb_negWord (w : Word) : (negWord w).msb = !w.msb := getLsbD_negWord_sign w

theorem extractLsb'_negWord (w : Word) {start len : Nat} (h : start + len ≤ 63) :
    (negWord w).extractLsb' start len = w.extractLsb' start len := by
  ext i hi
  rw [BitVec.getElem_extractLsb', BitVec.getElem_extractLsb', getLsbD_negWord w (by omega)]

theorem exponent_negWord (w : Word) : exponent (negWord w) = exponent w :=
  congrArg BitVec.toNat (extractLsb'_negWord w (by decide))

theorem fraction_negWord (w : Word) : fraction (negWord w) = fraction w :=
  congrArg BitVec.toNat (extractLsb'_negWord w (by decide))

/-- Inverting bit 63 of a pattern is the sign change of its datum. -/
theorem ofWord_negWord (w : Word) : ofWord (negWord w) = neg (ofWord w) := by
  have he := exponent_negWord w
  have hf := fraction_negWord w
  by_cases hmax : exponent w = 2047
  · by_cases hzero : fraction w = 0
    · rw [ofWord_of_inf (he.trans hmax) (hf.trans hzero), ofWord_of_inf hmax hzero, msb_negWord, neg]
    · rw [ofWord_of_nan (he.trans hmax) (hf ▸ hzero), ofWord_of_nan hmax hzero, neg]
  · by_cases hzero : exponent w = 0
    · rw [ofWord_of_subnormal (he.trans hzero), ofWord_of_subnormal hzero, msb_negWord, hf, neg]
    · rw [ofWord_of_normal (he ▸ hmax) (he ▸ hzero), ofWord_of_normal hmax hzero, msb_negWord, hf, he, neg]

/-! ### Quiet NaNs (R135) -/

/-- The highest exponent is the one with every bit set. -/
theorem exponent_eq_max_iff {w : Word} : exponent w = 2047 ↔ ∀ i, 52 ≤ i → i < 63 → w.getLsbD i = true := by
  have hones : ∀ j, j < 11 → (2047#11).getLsbD j = true := by decide
  have hfield : exponent w = 2047 ↔ w.extractLsb' 52 11 = 2047#11 := BitVec.toNat_inj (y := 2047#11)
  rw [hfield]
  constructor
  · intro h i h52 h63
    have hbit := hones (i - 52) (by omega)
    rwa [← h, BitVec.getLsbD_extractLsb', decide_eq_true (by omega), Bool.true_and, Nat.add_sub_cancel' h52] at hbit
  · intro h
    ext j hj
    rw [BitVec.getElem_extractLsb', h _ (by omega) (by omega), ← BitVec.getLsbD_eq_getElem, hones j hj]

/-- The bits of a stored NaN: the payload and the sign are the draw's, all bits between them are set. -/
theorem getLsbD_quietNan (draw : BitVec 52) {i : Nat} (hi : i < 64) :
    (quietNan draw).getLsbD i = if i < 51 then draw.getLsbD i else if i < 63 then true else draw.getLsbD 51 := by
  have hones : ∀ j, j < 12 → (0xFFF#12).getLsbD j = true := by decide
  rw [quietNan, BitVec.getLsbD_append, BitVec.getLsbD_append, BitVec.getLsbD_extractLsb', BitVec.getLsbD_extractLsb']
  by_cases hlow : i < 51
  · simp [hlow]
  · by_cases hmid : i < 63
    · rw [if_neg hlow, if_neg hlow, if_pos hmid, if_pos (by omega), hones _ (by omega)]
    · obtain rfl : i = 63 := by omega
      rfl

theorem exponent_quietNan (draw : BitVec 52) : exponent (quietNan draw) = 2047 :=
  exponent_eq_max_iff.2 fun i h52 h63 => by
    rw [getLsbD_quietNan draw (by omega), if_neg (by omega), if_pos h63]

theorem getLsbD_quietNan_quiet (draw : BitVec 52) : (quietNan draw).getLsbD 51 = true := by
  rw [getLsbD_quietNan draw (by decide)]
  rfl

/-- A set bit of the fraction keeps it from being zero. -/
theorem fraction_ne_zero {w : Word} {i : Nat} (hi : i < 52) (h : w.getLsbD i = true) : fraction w ≠ 0 := by
  intro hzero
  have hfield : w.extractLsb' 0 52 = 0#52 := BitVec.eq_of_toNat_eq hzero
  have hbit : (w.extractLsb' 0 52).getLsbD i = w.getLsbD i := by
    rw [BitVec.getLsbD_extractLsb', decide_eq_true hi, Bool.true_and, Nat.zero_add]
  rw [hfield, h, BitVec.getLsbD_zero] at hbit
  cases hbit

theorem ofWord_quietNan (draw : BitVec 52) : ofWord (quietNan draw) = .nan :=
  ofWord_of_nan (exponent_quietNan draw) (fraction_ne_zero (by decide) (getLsbD_quietNan_quiet draw))

/-- Only patterns with the highest exponent are NaNs. -/
theorem exponent_of_nan {w : Word} (h : ofWord w = .nan) : exponent w = 2047 := by
  by_contra he
  obtain ⟨q, t, -, -, hfin, -⟩ := ofWord_of_finite he
  rw [hfin] at h
  cases h

/-- The draw that a quiet NaN comes from: its sign bit and its 51 payload bits. -/
def drawOf (w : Word) : BitVec 52 := w.extractLsb' 63 1 ++ w.extractLsb' 0 51

theorem quietNan_drawOf {w : Word} (hexp : exponent w = 2047) (hquiet : w.getLsbD 51 = true) : quietNan (drawOf w) = w := by
  apply BitVec.eq_of_getLsbD_eq
  intro i hi
  rw [getLsbD_quietNan _ hi]
  by_cases hlow : i < 51
  · rw [if_pos hlow, drawOf, BitVec.getLsbD_append, if_pos hlow, BitVec.getLsbD_extractLsb', decide_eq_true hlow,
      Bool.true_and, Nat.zero_add]
  · by_cases hmid : i < 63
    · rw [if_neg hlow, if_pos hmid]
      by_cases h51 : i = 51
      · rw [h51, hquiet]
      · rw [exponent_eq_max_iff.1 hexp i (by omega) hmid]
    · obtain rfl : i = 63 := by omega
      rw [if_neg hlow, if_neg hmid, drawOf, BitVec.getLsbD_append]
      simp

/-- The stored pattern depends on the draw for a NaN only, and then every draw gives a NaN. -/
theorem toWord_draw (v : F64) (draw draw' : BitVec 52) :
    v.toWord draw' = v.toWord draw ∨ ofWord (v.toWord draw) = .nan ∧ ofWord (v.toWord draw') = .nan := by
  cases v with
  | nan => exact .inr ⟨ofWord_quietNan draw, ofWord_quietNan draw'⟩
  | inf s => exact .inl rfl
  | fin s m => exact .inl rfl

/-- A pattern that is no NaN is stored again as it was read. -/
theorem toWord_ofWord {w : Word} (draw : BitVec 52) (h : ofWord w ≠ .nan) : (ofWord w).toWord draw = w := by
  by_cases he : exponent w = 2047
  · have hf : fraction w = 0 := by_contra fun hf => h (ofWord_of_nan he hf)
    have hfields := withSign_fields w
    rw [he, hf] at hfields
    rw [ofWord_of_inf he hf]
    exact hfields
  · obtain ⟨q, t, -, -, hfin, hpack⟩ := ofWord_of_finite he
    rw [hfin, toWord, hpack, withSign_fields]

end Sys2Proof.F64
end

section
/-! SUPPORT. The operations on binary64 data: rounding to nearest with its ties and its overflow threshold (R132), the exact
value an operation rounds, the signs of results (R134), and scaling by a power of two (R144). -/

namespace Sys2Proof.F64
open Claims

/-! ### Ties and overflow under roundTiesToEven -/

section
variable (neg : Bool) {a d : Nat}

/-- The exact magnitude lies `r` above the lower of two candidates that are `u` apart, with no representable magnitude between
them; the nearer one is taken, and the one with the even significand from the middle. All lengths are multiplied by `d`. -/
theorem roundMag_rne_candidates (hd : 0 < d) : ∃ low r u, low + r = a ∧ r < u ∧
    (∀ q e, q < 2 ^ 53 → q * 2 ^ e * d ≤ low ∨ low + u ≤ q * 2 ^ e * d) ∧
    (roundMag .rne neg a d * d = low ∧ 2 * r ≤ u ∨ roundMag .rne neg a d * d = low + u ∧ u ≤ 2 * r) ∧
    (2 * r = u → roundMag .rne neg a d / 2 ^ ulpExp a d % 2 = 0) := by
  have hunit : 0 < 2 ^ ulpExp a d := Nat.two_pow_pos _
  have hbetween := fun q e hq => no_representable_between a d (q := q) (e := e) hq
  have hdiv := Nat.div_add_mod a (d * 2 ^ ulpExp a d)
  have hmod := Nat.mod_lt a (Nat.mul_pos hd hunit)
  rw [roundMag_eq]
  generalize a / (d * 2 ^ ulpExp a d) = q₀ at *
  generalize a % (d * 2 ^ ulpExp a d) = r at *
  generalize ulpExp a d = t at *
  have hlow : q₀ * 2 ^ t * d = d * 2 ^ t * q₀ := by ring
  have hhigh : (q₀ + 1) * 2 ^ t * d = d * 2 ^ t * q₀ + d * 2 ^ t := by ring
  refine ⟨d * 2 ^ t * q₀, r, d * 2 ^ t, hdiv, hmod, fun q e hq => ?_, ?_⟩
  · rw [← hhigh, ← hlow]
    exact (hbetween q e hq).imp (Nat.mul_le_mul_right d) (Nat.mul_le_mul_right d)
  · generalize d * 2 ^ t = u at *
    by_cases hup : roundsUp .rne neg q₀ r u = true
    · rw [if_pos hup, Nat.mul_div_cancel _ hunit]
      simp only [roundsUp, Bool.or_eq_true, Bool.and_eq_true, decide_eq_true_eq] at hup
      exact ⟨.inr ⟨hhigh, by omega⟩, by omega⟩
    · rw [if_neg hup, Nat.mul_div_cancel _ hunit]
      simp only [roundsUp, Bool.or_eq_true, Bool.and_eq_true, decide_eq_true_eq] at hup
      exact ⟨.inl ⟨hlow, by omega⟩, by omega⟩

/-- When another representable magnitude is equally near, the exact one is the middle of the two candidates, and the rounded
one has the even significand. -/
theorem roundMag_rne_even_of_tie (hd : 0 < d) {m : Nat} (hm : Representable m) (hne : m ≠ roundMag .rne neg a d)
    (htie : |(m * d : Int) - a| = |(roundMag .rne neg a d * d : Int) - a|) :
    roundMag .rne neg a d / 2 ^ ulpExp a d % 2 = 0 := by
  obtain ⟨q, e, hq, rfl⟩ := hm
  obtain ⟨low, r, u, ha, hr, hbetween, htaken, heven⟩ := roundMag_rne_candidates neg (a := a) hd
  have hother := hbetween q e hq
  have hdist : q * 2 ^ e * d ≠ roundMag .rne neg a d * d := fun h => hne (Nat.mul_right_cancel hd h)
  apply heven
  rw [← Nat.cast_mul, ← Nat.cast_mul, abs_eq_abs] at htie
  generalize q * 2 ^ e * d = other at *
  generalize roundMag .rne neg a d * d = rounded at *
  omega

/-- Half a unit above the largest finite magnitude (R132): `2^1024 - 2^970` in units. -/
def threshold : Nat := (2 ^ 54 - 1) * 2 ^ 2044

/-- The threshold is the middle of the largest finite magnitude and the overflow bound. -/
theorem two_mul_threshold : 2 * threshold = maxMag + overflow := by
  rw [threshold, maxMag, overflow_eq, show 2045 = 2044 + 1 from rfl, Nat.pow_succ]
  omega

/-- Between the largest significand of a binade and the next binade nothing is representable. -/
theorem mul_two_pow_le_of_lt {q e top : Nat} (hq : q < 2 ^ 53) (h : q * 2 ^ e < 2 ^ 53 * 2 ^ top) :
    q * 2 ^ e ≤ (2 ^ 53 - 1) * 2 ^ top := by
  obtain he | he := Nat.le_total e top
  · exact Nat.mul_le_mul (by omega) (Nat.pow_le_pow_right (by decide) he)
  · rw [← Nat.sub_add_cancel he, Nat.pow_add, ← Nat.mul_assoc] at h ⊢
    exact Nat.mul_le_mul_right _ (Nat.le_pred_of_lt (Nat.lt_of_mul_lt_mul_right h))

theorem roundMag_le_maxMag {rm : RoundingMode} {neg : Bool} (h : roundMag rm neg a d < overflow) :
    roundMag rm neg a d ≤ maxMag := by
  obtain ⟨q, e, hq, hform⟩ := roundMag_form rm neg a d
  rw [hform, overflow_eq] at h
  rw [hform, maxMag]
  exact mul_two_pow_le_of_lt hq h

theorem ulpExp_threshold (hd : 0 < d) : ulpExp (threshold * d) d = 2045 := by
  rw [ulpExp, Nat.mul_div_cancel _ hd, threshold, log2_mul_two_pow 2044 (k := 53) (by decide) (by decide)]

theorem significand_odd (t : Nat) : (2 ^ 53 - 1) * 2 ^ t / 2 ^ t % 2 = 1 := by
  rw [Nat.mul_div_cancel _ (Nat.two_pow_pos t)]
  rfl

/-- The rounded magnitude is too large exactly from half a unit above the largest finite one on: at the threshold itself the
largest finite magnitude loses the tie, since its significand is odd. -/
theorem overflow_le_roundMag_rne_iff (hd : 0 < d) : overflow ≤ roundMag .rne neg a d ↔ threshold * d ≤ a := by
  obtain ⟨low, r, u, ha, hr, hbetween, htaken, heven⟩ := roundMag_rne_candidates neg (a := a) hd
  have hmax : maxMag * d ≤ low ∨ low + u ≤ maxMag * d := hbetween (2 ^ 53 - 1) 2045 (by decide)
  have hover : overflow * d ≤ low ∨ low + u ≤ overflow * d := by
    rw [show overflow = 2 ^ 52 * 2 ^ 2046 by rw [overflow, ← Nat.pow_add]]
    exact hbetween _ _ (by decide)
  have hmiddle : 2 * (threshold * d) = maxMag * d + overflow * d := by
    rw [← Nat.mul_assoc, two_mul_threshold, Nat.add_mul]
  have hlt : maxMag * d < overflow * d :=
    Nat.mul_lt_mul_of_pos_right (mul_two_pow_lt_overflow (q := 2 ^ 53 - 1) (by decide) le_rfl) hd
  constructor
  · intro hle
    have hle' : overflow * d ≤ roundMag .rne neg a d * d := Nat.mul_le_mul_right d hle
    omega
  · intro hle
    by_contra hcon
    have hle' := Nat.mul_le_mul_right d (roundMag_le_maxMag (Nat.lt_of_not_le hcon))
    have htie : roundMag .rne neg a d * d = maxMag * d ∧ a = threshold * d ∧ 2 * r = u := by omega
    obtain ⟨hvalue, hexact, hmid⟩ := htie
    have hsignificand := heven hmid
    rw [Nat.mul_right_cancel hd hvalue, hexact, ulpExp_threshold hd, maxMag, significand_odd] at hsignificand
    cases hsignificand

end

/-! ### The exact value that an operation rounds (R132) -/

/-- The rational value of a sign and an exact magnitude of `a / d` units. -/
def exactVal (neg : Bool) (a d : Nat) : ℚ := (if neg then -1 else 1) * (a / d / 2 ^ 1074)

theorem val_eq_exactVal (neg : Bool) (m : Nat) : val neg m = exactVal neg m 1 := by
  cases neg <;> simp [val, signed, exactVal, neg_div]

theorem abs_exactVal (neg : Bool) (a d : Nat) : |exactVal neg a d| = a / d / 2 ^ 1074 := by
  have hnonneg : (0 : ℚ) ≤ a / d / 2 ^ 1074 := by positivity
  cases neg <;> simp [exactVal, abs_of_nonneg hnonneg]

theorem exactVal_neg_iff (neg : Bool) {a d : Nat} (ha : 0 < a) (hd : 0 < d) : neg = true ↔ exactVal neg a d < 0 := by
  have hpos : (0 : ℚ) < a / d / 2 ^ 1074 := by positivity
  cases neg
  · simpa [exactVal] using hpos.le
  · simpa [exactVal] using hpos

/-- The distance of two values of one sign is that of their magnitudes. -/
theorem abs_exactVal_sub (neg : Bool) (a d b e : Nat) :
    |exactVal neg a d - exactVal neg b e| = |(a / d - b / e : ℚ)| / 2 ^ 1074 := by
  have hpow : (0 : ℚ) < 2 ^ 1074 := by positivity
  rw [exactVal, exactVal, ← mul_sub, ← sub_div, abs_mul, abs_div, abs_of_pos hpow]
  cases neg <;> simp

/-- The distance of two values is at least that of their magnitudes. -/
theorem le_abs_exactVal_sub (neg neg' : Bool) (a d b e : Nat) :
    |(a / d - b / e : ℚ)| / 2 ^ 1074 ≤ |exactVal neg a d - exactVal neg' b e| := by
  have hpow : (0 : ℚ) < 2 ^ 1074 := by positivity
  have h := abs_abs_sub_abs_le (exactVal neg a d) (exactVal neg' b e)
  rwa [abs_exactVal, abs_exactVal, ← sub_div, abs_div, abs_of_pos hpow] at h

/-- `roundMag_rne_nearest` on magnitudes as rational numbers. -/
theorem roundMag_rne_nearest_rat (neg : Bool) {a d m : Nat} (hd : 0 < d) (hm : Representable m) :
    |(roundMag .rne neg a d - a / d : ℚ)| ≤ |(m - a / d : ℚ)| := by
  obtain ⟨q, e, hq, rfl⟩ := hm
  have hdq : (0 : ℚ) < d := by exact_mod_cast hd
  have hscale : ∀ k : Nat, |(k - a / d : ℚ)| * d = ((|(k * d : Int) - a| : Int) : ℚ) := fun k => by
    rw [← abs_of_pos hdq, ← abs_mul, abs_of_pos hdq, sub_mul, div_mul_cancel₀ _ hdq.ne']
    push_cast
    rfl
  rw [← mul_le_mul_iff_left₀ hdq, hscale, hscale]
  exact_mod_cast roundMag_rne_nearest neg hd hq

theorem threshold_rat : (threshold : ℚ) / 2 ^ 1074 = 2 ^ 1024 - 2 ^ 970 := by
  have h2044 : (2 : ℚ) ^ 2044 = 2 ^ 970 * 2 ^ 1074 := pow_add 2 970 1074
  have h1024 : (2 : ℚ) ^ 1024 = 2 ^ 54 * 2 ^ 970 := pow_add 2 54 970
  have hpow : (2 : ℚ) ^ 1074 ≠ 0 := by positivity
  have hodd : ((2 ^ 54 - 1 : Nat) : ℚ) = 2 ^ 54 - 1 := by norm_num
  rw [threshold, Nat.cast_mul, Nat.cast_pow, Nat.cast_ofNat, h2044, h1024, ← mul_assoc, mul_div_cancel_right₀ _ hpow, hodd,
    sub_mul, one_mul]

theorem round_rne_of_overflow {neg : Bool} {a d : Nat} (h : overflow ≤ roundMag .rne neg a d) :
    round .rne neg a d = .inf neg := by
  rw [round, finish, if_neg h.not_gt]

/-- The result of `round` under roundTiesToEven is the exact value rounded once to nearest. -/
theorem correctlyRounded_round (neg : Bool) (a : Nat) {d : Nat} (hd : 0 < d) :
    CorrectlyRounded (exactVal neg a d) (round .rne neg a d) := by
  have hdq : (0 : ℚ) < d := by exact_mod_cast hd
  have hpow : (0 : ℚ) < 2 ^ 1074 := by positivity
  have hbig : (2 : ℚ) ^ 1024 - 2 ^ 970 ≤ |exactVal neg a d| ↔ overflow ≤ roundMag .rne neg a d := by
    rw [overflow_le_roundMag_rne_iff neg hd, ← threshold_rat, abs_exactVal, div_le_div_iff_of_pos_right hpow, le_div_iff₀ hdq,
      ← Nat.cast_mul, Nat.cast_le]
  obtain hover | hover := Nat.lt_or_ge (roundMag .rne neg a d) overflow
  · rw [round_of_lt hover]
    refine ⟨?_, by simp, by simpa [hbig] using hover, by simp⟩
    rintro s m ⟨⟩
    refine ⟨roundMag_form .rne neg a d, hover, fun s' m' hm' => ?_⟩
    calc |val neg (roundMag .rne neg a d) - exactVal neg a d|
      _ = |(roundMag .rne neg a d - a / d : ℚ)| / 2 ^ 1074 := by
        rw [val_eq_exactVal, abs_exactVal_sub, Nat.cast_one, div_one]
      _ ≤ |(m' - a / d : ℚ)| / 2 ^ 1074 :=
        div_le_div_of_nonneg_right (roundMag_rne_nearest_rat neg hd hm') hpow.le
      _ ≤ |val s' m' - exactVal neg a d| := by
        have h := le_abs_exactVal_sub s' neg m' 1 a d
        rwa [Nat.cast_one, div_one, ← val_eq_exactVal] at h
  · have ha : 0 < a := Nat.pos_of_ne_zero fun h0 => by
      rw [h0, roundMag_zero .rne neg hd] at hover
      exact overflow_pos.not_ge hover
    rw [round_rne_of_overflow hover]
    refine ⟨by simp, ?_, ⟨fun _ => hbig.2 hover, fun _ => ⟨neg, rfl⟩⟩, by simp⟩
    rintro s ⟨⟩
    exact exactVal_neg_iff neg ha hd

/-! ### Finite operands (R132) -/

/-- An integer is its sign and its magnitude. -/
theorem signed_natAbs (z : Int) : signed (decide (z < 0)) z.natAbs = z := by
  by_cases hz : z < 0
  · rw [signed, if_pos (decide_eq_true hz)]; omega
  · rw [signed, if_neg (by simpa using hz)]; omega

/-- A sum of finite data is the exact sum rounded; an exact zero has a sign of its own (R134). -/
theorem add_fin (s1 s2 : Bool) (m1 m2 : Nat) : ∃ neg a,
    add .rne (.fin s1 m1) (.fin s2 m2) = round .rne neg a 1 ∧ val s1 m1 + val s2 m2 = exactVal neg a 1 := by
  have hval : val s1 m1 + val s2 m2 = ((signed s1 m1 + signed s2 m2 : Int) : ℚ) / 2 ^ 1074 := by
    rw [val, val, ← add_div, Int.cast_add]
  rw [hval, add]
  generalize signed s1 m1 + signed s2 m2 = z
  by_cases hz : z = 0
  · refine ⟨zeroSumSign .rne s1 m1 s2 m2, 0, ?_, ?_⟩
    · rw [if_pos hz, round_zero _ _ Nat.one_pos]
    · rw [hz, exactVal]
      simp
  · refine ⟨decide (z < 0), z.natAbs, if_neg hz, ?_⟩
    rw [← val_eq_exactVal, val, signed_natAbs]

theorem val_not (s : Bool) (m : Nat) : val (!s) m = -val s m := by
  cases s <;> simp [val, signed, neg_div]

theorem one_rat : (one : ℚ) = 2 ^ 1074 := by rw [one, Nat.cast_pow, Nat.cast_ofNat]

theorem sign_bne (s1 s2 : Bool) :
    (if s1 != s2 then -1 else 1 : ℚ) = (if s1 then -1 else 1) * (if s2 then -1 else 1) ∧
    (if s1 != s2 then -1 else 1 : ℚ) = (if s1 then -1 else 1) / (if s2 then -1 else 1) := by
  cases s1 <;> cases s2 <;> simp

theorem val_mul_val (s1 s2 : Bool) (m1 m2 : Nat) : val s1 m1 * val s2 m2 = exactVal (s1 != s2) (m1 * m2) one := by
  rw [val_eq_exactVal, val_eq_exactVal, exactVal, exactVal, exactVal, (sign_bne s1 s2).1, one_rat, Nat.cast_mul,
    Nat.cast_one, div_one, div_one, mul_mul_mul_comm, div_mul_div_comm, div_div]

theorem val_div_val (s1 s2 : Bool) (m1 m2 : Nat) : val s1 m1 / val s2 m2 = exactVal (s1 != s2) (m1 * one) m2 := by
  have hunit : (2 : ℚ) ^ 1074 ≠ 0 := by positivity
  rw [val_eq_exactVal, val_eq_exactVal, exactVal, exactVal, exactVal, (sign_bne s1 s2).2, Nat.cast_mul, one_rat,
    Nat.cast_one, div_one, div_one, mul_div_mul_comm, div_div_div_cancel_right₀ hunit, div_right_comm,
    mul_div_cancel_right₀ _ hunit]

/-! ### The cases of IEEE 754 (R134) -/

section
variable (rm : RoundingMode) (s1 s2 : Bool) {m : Nat}

theorem mul_inf_fin (hm : m ≠ 0) : mul rm (.inf s1) (.fin s2 m) = .inf (s1 != s2) := if_neg hm

theorem mul_fin_inf (hm : m ≠ 0) : mul rm (.fin s1 m) (.inf s2) = .inf (s1 != s2) := if_neg hm

theorem div_fin_fin (m1 : Nat) (hm : m ≠ 0) :
    div rm (.fin s1 m1) (.fin s2 m) = round rm (s1 != s2) (m1 * one) m := if_neg hm

/-- A nonzero datum divided by zero. -/
theorem div_fin_zero (hm : m ≠ 0) : div rm (.fin s1 m) (.fin s2 0) = .inf (s1 != s2) := by
  rw [div, if_pos rfl, if_neg hm]

theorem mul_zero_fin (m : Nat) : mul rm (.fin s1 0) (.fin s2 m) = .fin (s1 != s2) 0 := by
  rw [mul, Nat.zero_mul, round_zero rm _ F64.one_pos]

theorem div_zero_fin (hm : m ≠ 0) : div rm (.fin s1 0) (.fin s2 m) = .fin (s1 != s2) 0 := by
  rw [div_fin_fin rm s1 s2 0 hm, Nat.zero_mul, round_zero rm _ (Nat.pos_of_ne_zero hm)]

end

theorem signBit_round (rm : RoundingMode) (neg : Bool) (a d : Nat) : signBit (round rm neg a d) = some neg := by
  obtain h | ⟨m, h⟩ := round_cases rm neg a d
  · rw [h, signBit]
  · rw [h, signBit]

section
variable (rm : RoundingMode) {x y : F64} {a b : Bool} (hx : signBit x = some a) (hy : signBit y = some b)
include hx hy

/-- The sign of a product that is no NaN is the exclusive-or of the operands' signs. -/
theorem signBit_mul (h : mul rm x y ≠ .nan) : signBit (mul rm x y) = some (a != b) := by
  cases x with
  | nan => cases hx
  | inf s1 =>
    cases hx
    cases y with
    | nan => cases hy
    | inf s2 => cases hy; rfl
    | fin s2 m2 =>
      cases hy
      have hm : m2 ≠ 0 := fun hm => h (if_pos hm)
      rw [mul_inf_fin rm a b hm, signBit]
  | fin s1 m1 =>
    cases hx
    cases y with
    | nan => cases hy
    | inf s2 =>
      cases hy
      have hm : m1 ≠ 0 := fun hm => h (if_pos hm)
      rw [mul_fin_inf rm a b hm, signBit]
    | fin s2 m2 =>
      cases hy
      exact signBit_round ..

/-- The sign of a quotient that is no NaN is the exclusive-or of the operands' signs. -/
theorem signBit_div (h : div rm x y ≠ .nan) : signBit (div rm x y) = some (a != b) := by
  cases x with
  | nan => cases hx
  | inf s1 =>
    cases hx
    cases y with
    | nan => cases hy
    | inf s2 => exact absurd rfl h
    | fin s2 m2 => cases hy; rfl
  | fin s1 m1 =>
    cases hx
    cases y with
    | nan => cases hy
    | inf s2 => cases hy; rfl
    | fin s2 m2 =>
      cases hy
      by_cases hm2 : m2 = 0
      · subst hm2
        have hm1 : m1 ≠ 0 := fun hm => h (by rw [hm]; rfl)
        rw [div_fin_zero rm a b hm1, signBit]
      · rw [div_fin_fin rm a b m1 hm2, signBit_round]

end

/-- A datum less itself is `+0.0` under roundTiesToEven. -/
theorem sub_self_rne (s : Bool) (m : Nat) : sub .rne (.fin s m) (.fin s m) = .fin false 0 := by
  have hz : signed s m + signed (!s) m = 0 := by cases s <;> simp [signed]
  rw [sub, neg, add, if_pos hz, zeroSumSign, if_neg (by simp)]
  rfl

theorem add_nan (rm : RoundingMode) (x : F64) : add rm x .nan = .nan := by cases x <;> rfl

theorem mul_nan (rm : RoundingMode) (x : F64) : mul rm x .nan = .nan := by cases x <;> rfl

theorem div_nan (rm : RoundingMode) (x : F64) : div rm x .nan = .nan := by cases x <;> rfl

/-! ### Scaling (R144) -/

section
variable (rm : RoundingMode) (n : Nat)

theorem ofNat_two_pow_ne_zero : 2 ^ n * one ≠ 0 := (Nat.mul_pos (Nat.two_pow_pos n) F64.one_pos).ne'

/-- A finite datum divided by `2^n`: the unit of the divisor cancels that of the numerator. -/
theorem div_fin_two_pow (s : Bool) (m : Nat) : div rm (.fin s m) (.ofNat (2 ^ n)) = round rm s m (2 ^ n) := by
  rw [ofNat, div_fin_fin rm s false m (ofNat_two_pow_ne_zero n), round_mul_right rm _ m (2 ^ n) F64.one_pos, Bool.bne_false]

/-- A finite datum multiplied by `2^-n`, which is `2^(1074 - n)` units. -/
theorem mul_fin_two_pow {n : Nat} (hn : n ≤ 1074) (s : Bool) (m : Nat) :
    mul rm (.fin s m) (.fin false (2 ^ (1074 - n))) = round rm s m (2 ^ n) := by
  have hone : one = 2 ^ n * 2 ^ (1074 - n) := by rw [one, ← Nat.pow_add, Nat.add_sub_cancel' hn]
  rw [mul, hone, round_mul_right rm _ m (2 ^ n) (Nat.two_pow_pos _), Bool.bne_false]

theorem div_two_pow_eq_mul {n : Nat} (hn : n ≤ 1074) (x : F64) :
    div rm x (.ofNat (2 ^ n)) = mul rm x (.fin false (2 ^ (1074 - n))) := by
  cases x with
  | nan => rfl
  | inf s => exact (mul_inf_fin rm s false (Nat.two_pow_pos _).ne').symm
  | fin s m => rw [div_fin_two_pow, mul_fin_two_pow rm hn]

/-- A whole number of representable units is divided exactly. -/
theorem div_two_pow_exact (s : Bool) {m : Nat} (hm : Representable m) (h : m * 2 ^ n < overflow) :
    div rm (.fin s (m * 2 ^ n)) (.ofNat (2 ^ n)) = .fin s m := by
  obtain ⟨q, e, hq, rfl⟩ := hm
  have hexact := roundMag_exact rm s hq (Nat.two_pow_pos n) (e := e)
  have hlt : q * 2 ^ e < overflow := (Nat.le_mul_of_pos_right _ (Nat.two_pow_pos n)).trans_lt h
  rw [div_fin_two_pow, round_of_lt (by rwa [hexact]), hexact]

end

end Sys2Proof.F64
end

section
/-! SUPPORT. What a command leaves, compared for two states that share the constants and the buffers: the same words but for the
patterns of NaNs (R135, R145). -/

namespace Sys2Proof.Machine
open Claims

/-! ### A state whose `STATUS`, `CMD`, host lists and draws are another's -/

/-- The state `u` with the constants and the buffers of `s`. -/
def State.withOther (s u : State) : State := { u with cfg := s.cfg, rm := s.rm, tw := s.tw, br := s.br, mem := s.mem }

theorem eq_withOther {s s' : State} (hcfg : s'.cfg = s.cfg) (hrm : s'.rm = s.rm) (htw : s'.tw = s.tw)
    (hbr : s'.br = s.br) (hmem : s'.mem = s.mem) : s' = s.withOther s' := by
  rw [State.withOther, ← hcfg, ← hrm, ← htw, ← hbr, ← hmem]

section
variable (s u : State)

@[simp] theorem withOther_size : (s.withOther u).size = s.size := rfl
@[simp] theorem withOther_nbuf : (s.withOther u).nbuf = s.nbuf := rfl
@[simp] theorem withOther_readBuf (b : BufNo) (i k : Nat) : readBuf (s.withOther u) b i k = readBuf s b i k := rfl
@[simp] theorem withOther_fftWords : fftWords (s.withOther u) = fftWords s := rfl
@[simp] theorem withOther_ifftWords : ifftWords (s.withOther u) = ifftWords s := rfl
@[simp] theorem withOther_rfftWords : rfftWords (s.withOther u) = rfftWords s := rfl

end

/-! ### Words and outcomes that agree but for NaN patterns -/

/-- The same word, or a NaN both times. -/
def WordsAgree (x x' : Option Word) : Prop :=
  x' = x ∨ ∃ w w', x = some w ∧ x' = some w' ∧ F64.ofWord w = .nan ∧ F64.ofWord w' = .nan

/-- Both outcomes are the stop on an unwritten word, or both are next states with equal fields of `STATUS` and with buffer
words that agree. -/
def OutcomesAgree (size : Nat) (r r' : Result) : Prop :=
  (r = .fault .unwrittenWord ∧ r' = .fault .unwrittenWord) ∨
  ∃ t t', r = .next t ∧ r' = .next t' ∧ t'.busy = t.busy ∧ t'.done = t.done ∧ t'.errCode = t.errCode ∧
    ∀ b j, j < 2 * size → WordsAgree (bufWord t b j) (bufWord t' b j)

theorem wordsAgree_toWord (v : F64) (draw draw' : BitVec 52) :
    WordsAgree (some (v.toWord draw)) (some (v.toWord draw')) := by
  obtain h | ⟨h, h'⟩ := F64.toWord_draw v draw draw'
  · exact .inl (congrArg some h)
  · exact .inr ⟨_, _, rfl, rfl, h, h'⟩

theorem outcomesAgree_endCommand {size : Nat} (c : BitVec 4) {t t' : State}
    (h : ∀ b j, j < 2 * size → WordsAgree (bufWord t b j) (bufWord t' b j)) :
    OutcomesAgree size (.next (endCommand c t)) (.next (endCommand c t')) :=
  .inr ⟨_, _, rfl, rfl, by simp, by simp, by simp, h⟩

/-! ### Results stored with different draws -/

/-- A word of the buffer file is one of a stretch of `k` words, or it lies outside the stretch. -/
theorem wordAddr_in_or_outside (s : State) (b d j i k : Nat) :
    (∃ l, l < k ∧ wordAddr s b j = wordAddr s d i + 8 * l) ∨
    wordAddr s b j + 8 ≤ wordAddr s d i ∨ wordAddr s d i + 8 * k ≤ wordAddr s b j := by
  rw [wordAddr, wordAddr]
  generalize b * (2 * s.size) + j = x
  generalize d * (2 * s.size) + i = y
  by_cases h : y ≤ x ∧ x < y + k
  · exact .inl ⟨x - y, by omega, by omega⟩
  · exact .inr (by omega)

theorem readWord_writeWords_patterns (k : Nat) (vs : List F64) (a : Nat) (m : Memory) {l : Nat} (h : l < vs.length) :
    readWord (writeWords a (patterns k vs) m) (a + 8 * l) = some (vs[l].toWord (Config.nanDraw (k + l))) := by
  rw [readWord_writeWords _ a m (by rwa [patterns_length]), patterns_getElem k vs l h]

theorem readWord_writeWords_patterns_outside (k : Nat) (vs : List F64) (a : Nat) (m : Memory) {b : Nat}
    (h : b + 8 ≤ a ∨ a + 8 * vs.length ≤ b) : readWord (writeWords a (patterns k vs) m) b = readWord m b :=
  readWord_writeWords_outside _ a m (by rwa [patterns_length])

/-- The same results stored over the same buffers, whatever the draws. -/
theorem storeResults_wordsAgree (d : BufNo) (vs : List F64) (s u : State) (b : BufNo) (j : Nat) :
    WordsAgree (bufWord (storeResults d vs s) b j) (bufWord (storeResults d vs (s.withOther u)) b j) := by
  have hword : ∀ v : State, bufWord (storeResults d vs (s.withOther v)) b j =
      readWord (writeWords (wordAddr s d.toNat 0) (patterns v.draws vs) s.mem) (wordAddr s b.toNat j) := fun _ => rfl
  rw [show bufWord (storeResults d vs s) b j = _ from hword s, hword u]
  obtain ⟨l, hl, haddr⟩ | hout := wordAddr_in_or_outside s b.toNat d.toNat j 0 vs.length
  · rw [haddr, readWord_writeWords_patterns _ vs _ _ hl, readWord_writeWords_patterns _ vs _ _ hl]
    exact wordsAgree_toWord ..
  · rw [readWord_writeWords_patterns_outside _ vs _ _ hout, readWord_writeWords_patterns_outside _ vs _ _ hout]
    exact .inl rfl

/-! ### Each command -/

theorem withTwoBuffers_outcomesAgree (d r : BufNo) {s u : State} {run run' : State → Result}
    (h : OutcomesAgree s.size (run s) (run' (s.withOther u))) :
    OutcomesAgree s.size (withTwoBuffers d r s run) (withTwoBuffers d r (s.withOther u) run') := by
  rw [withTwoBuffers, withTwoBuffers, withOther_nbuf]
  split
  · split
    · exact outcomesAgree_endCommand _ fun _ _ _ => .inl rfl
    · exact h
  · exact outcomesAgree_endCommand _ fun _ _ _ => .inl rfl

theorem transform_outcomesAgree (d r : BufNo) (k : Nat) (f : List Word → List F64) (s u : State) :
    OutcomesAgree s.size (transform d r k f s) (transform d r k f (s.withOther u)) := by
  obtain ⟨hread, h⟩ | ⟨ws, hread, h⟩ := transform_cases d r k f s
  · exact .inl ⟨h, by rw [transform, withOther_readBuf, hread]⟩
  · rw [h, transform_of_read ((withOther_readBuf s u r 0 k).trans hread)]
    exact outcomesAgree_endCommand 0 fun b j _ => storeResults_wordsAgree d (f ws) s u b j

section
variable {d : BufNo} {s : State}

theorem execCspec_of_illegal (hd : ¬d.toNat < s.nbuf) : exec (.cspec d) s = .next (raise .illegalCommand s) := if_neg hd

theorem execCspec_of_unread (hd : d.toNat < s.nbuf) (hread : readBuf s d 2 (s.size - 2) = none) :
    exec (.cspec d) s = .fault .unwrittenWord := by
  rw [exec, execCspec, withOneBuffer, if_pos hd, hread]

theorem execCspec_of_read {ws : List Word} (hd : d.toNat < s.nbuf) (hread : readBuf s d 2 (s.size - 2) = some ws) :
    exec (.cspec d) s = .next (complete (writeBuf d (s.size + 2) (mirrorWords s.logN ws) s)) := by
  rw [exec, execCspec, withOneBuffer, if_pos hd, hread]

end

theorem execCspec_outcomesAgree (d : BufNo) (s u : State) :
    OutcomesAgree s.size (exec (.cspec d) s) (exec (.cspec d) (s.withOther u)) := by
  by_cases hd : d.toNat < s.nbuf
  · cases hread : readBuf s d 2 (s.size - 2) with
    | none => exact .inl ⟨execCspec_of_unread hd hread, execCspec_of_unread hd hread⟩
    | some ws =>
      rw [execCspec_of_read hd hread, execCspec_of_read (s := s.withOther u) hd hread]
      exact outcomesAgree_endCommand 0 fun _ _ _ => .inl rfl
  · rw [execCspec_of_illegal hd, execCspec_of_illegal (s := s.withOther u) hd]
    exact outcomesAgree_endCommand _ fun _ _ _ => .inl rfl

/-- A command has the same outcome in both states, word for word but for NaN patterns. -/
theorem exec_outcomesAgree (i : Instr) (s u : State) : OutcomesAgree s.size (exec i s) (exec i (s.withOther u)) := by
  cases i with
  | nop => exact outcomesAgree_endCommand 0 fun _ _ _ => .inl rfl
  | fft d r =>
    rw [execFft_eq, execFft_eq, withOther_size, withOther_fftWords]
    exact withTwoBuffers_outcomesAgree d r (transform_outcomesAgree ..)
  | ifft d r =>
    rw [execIfft_eq, execIfft_eq, withOther_size, withOther_ifftWords]
    exact withTwoBuffers_outcomesAgree d r (transform_outcomesAgree ..)
  | rfft d r =>
    rw [execRfft_eq, execRfft_eq, withOther_size, withOther_rfftWords]
    exact withTwoBuffers_outcomesAgree d r (transform_outcomesAgree ..)
  | cspec d => exact execCspec_outcomesAgree d s u

end Sys2Proof.Machine
end

section
/-! SUPPORT. The statements about numerics, each settled from the facts above. -/

namespace Sys2Proof
open Claims Machine

/-- Settles O22: the results are computed from what the two states share, and a draw decides the pattern of a NaN only. -/
theorem resultsIndependentOfDraws : Obligations.ResultsIndependentOfDraws := by
  intro i s s' hcfg hrm htw hbr hmem
  rw [eq_withOther hcfg hrm htw hbr hmem]
  exact exec_outcomesAgree i s s'

/-- Settles O45: the fields of a word pack into the same word, and a finite datum has the form of a normal or subnormal. -/
theorem patternsRoundTrip : Obligations.PatternsRoundTrip := by
  refine fun w draw hw => ⟨F64.toWord_ofWord draw hw, fun s m hm => ?_⟩
  have he : F64.exponent w ≠ 2047 := by
    intro he
    by_cases hf : F64.fraction w = 0
    · rw [F64.ofWord_of_inf he hf] at hm
      cases hm
    · exact hw (F64.ofWord_of_nan he hf)
  obtain ⟨q, t, hq, ht, hfin, -⟩ := F64.ofWord_of_finite he
  obtain ⟨-, rfl⟩ : w.msb = s ∧ q * 2 ^ t = m := by simpa [hfin] using hm
  exact ⟨⟨q, t, hq, rfl⟩, F64.mul_two_pow_lt_overflow hq ht⟩

/-- Settles O46: bits 51 to 62 of a stored NaN are set whatever the draw, and the other bits are the draw's. -/
theorem storedNansAreQuiet : Obligations.StoredNansAreQuiet :=
  ⟨fun draw => ⟨F64.ofWord_quietNan draw, F64.getLsbD_quietNan_quiet draw⟩,
    fun w hnan hquiet => ⟨F64.drawOf w, F64.quietNan_drawOf (F64.exponent_of_nan hnan) hquiet⟩⟩

/-- Settles O48: each operation rounds its exact value once, and rounding takes the nearest representable magnitude. -/
theorem operationsAreCorrectlyRounded : Obligations.OperationsAreCorrectlyRounded := by
  have hadd : ∀ s1 s2 m1 m2,
      CorrectlyRounded (val s1 m1 + val s2 m2) (F64.add .rne (.fin s1 m1) (.fin s2 m2)) := by
    intro s1 s2 m1 m2
    obtain ⟨neg, a, hround, hval⟩ := F64.add_fin s1 s2 m1 m2
    rw [hround, hval]
    exact F64.correctlyRounded_round neg a Nat.one_pos
  refine fun s1 s2 m1 m2 => ⟨hadd s1 s2 m1 m2, ?_, ?_, fun hm => ?_⟩
  · rw [sub_eq_add_neg, ← F64.val_not]
    exact hadd s1 (!s2) m1 m2
  · rw [F64.val_mul_val]
    exact F64.correctlyRounded_round _ _ F64.one_pos
  · rw [F64.val_div_val, F64.div_fin_fin .rne s1 s2 m1 hm]
    exact F64.correctlyRounded_round _ _ (Nat.pos_of_ne_zero hm)

/-- Settles O49: a tie is the middle of the two candidates. -/
theorem tiesGoToEven : Obligations.TiesGoToEven := fun neg _ _ _ hd hm hne htie =>
  F64.roundMag_rne_even_of_tie neg hd hm hne htie

/-- Settles O51: quotient and product round the same magnitude `m / 2^n`, which is exact for a multiple of `2^n`. -/
theorem scalingByPowerOfTwo : Obligations.ScalingByPowerOfTwo := fun rm n _ hn =>
  ⟨F64.div_two_pow_eq_mul rm (by omega), fun s _ hm h => F64.div_two_pow_exact rm n s hm h,
    fun s => ⟨F64.div_zero_fin rm s false (F64.ofNat_two_pow_ne_zero n) |>.trans (by rw [Bool.bne_false]), by
      rw [F64.ofNat, F64.div, Bool.bne_false]⟩⟩

/-- Settles O47, from the bits of the exclusive-or. -/
theorem negFlipsSignBit : Obligations.NegFlipsSignBit := fun w =>
  ⟨fun _ hi => F64.getLsbD_negWord w hi, F64.getLsbD_negWord_sign w, F64.ofWord_negWord w⟩

/-- Settles O50, one rule of IEEE 754 after the other. -/
theorem signedZerosAndInfinities : Obligations.SignedZerosAndInfinities := by
  refine ⟨F64.sub_self_rne, rfl, rfl, rfl, ?_, ?_, ?_, ?_, ?_, ?_, ?_⟩
  · exact fun rm s1 s2 m => ⟨rfl, F64.mul_zero_fin rm s1 s2 m⟩
  · exact fun rm x y a b hx hy => ⟨F64.signBit_mul rm hx hy, F64.signBit_div rm hx hy⟩
  · exact fun rm s1 s2 m => ⟨rfl, if_pos rfl, rfl, rfl⟩
  · exact fun rm s1 s2 m hm => F64.mul_fin_inf rm s1 s2 hm
  · exact fun rm s1 s2 m hm => ⟨F64.mul_inf_fin rm s1 s2 hm, F64.div_zero_fin rm s1 s2 hm, rfl⟩
  · exact fun rm s s' => ⟨if_neg (by simp), rfl, rfl, rfl, rfl⟩
  · exact fun rm x => ⟨rfl, F64.add_nan rm x, rfl, F64.add_nan rm x, rfl, F64.mul_nan rm x, rfl, F64.div_nan rm x⟩

end Sys2Proof
end

section
/-! SUPPORT. What FFT, IFFT and RFFT leave in their destination, word by word, and the engines of two and of four points, which
have no combine pass (R163, R165, R170, R171, R201). -/

namespace Sys2Proof.Machine
open Claims

/-! ### Commands that complete -/

/-- Reading a written source from its first word on (R25, R289). -/
theorem readBuf_of_Written {s : State} {b : BufNo} {k : Nat} (h : Written s b 0 k) :
    ∃ ws, readBuf s b 0 k = some ws ∧ ∀ i, i < k → bufWord s b i = ws[i]? := by
  obtain ⟨ws, hread⟩ := readBuf_of_written (s := s) (b := b) (i := 0) (k := k) fun j hj => h (0 + j) (by omega) (by omega)
  obtain ⟨-, hword⟩ := readBuf_eq_some.1 hread
  exact ⟨ws, hread, fun i hi => by rw [← hword i hi, Nat.zero_add]⟩

/-- The first words of a stretch that is read. -/
theorem readBuf_take {s : State} {b : BufNo} {i k m : Nat} {ws : List Word} (h : readBuf s b i k = some ws) (hm : m ≤ k) :
    readBuf s b i m = some (ws.take m) := by
  obtain ⟨hlen, hword⟩ := readBuf_eq_some.1 h
  refine readBuf_eq_some.2 ⟨by rw [List.length_take, hlen, Nat.min_eq_left hm], fun j hj => ?_⟩
  rw [hword j (by omega), List.getElem?_take_of_lt hj]

theorem holds_storeResults {d : BufNo} {vs : List F64} (s : State) {i : Nat} {v : F64} (h : vs[i]? = some v) :
    Holds (complete (storeResults d vs s)) d i v := by
  obtain ⟨hi, rfl⟩ := List.getElem?_eq_some_iff.1 h
  exact ⟨_, bufWord_storeResults s hi⟩

section
variable {s : State} {d r : BufNo} {ws : List Word} (hbuf : TwoBuffers s d r)
include hbuf

/-- An out-of-place command that passes its checks and reads `k` words stores what it computes from them. -/
theorem outOfPlace_of_read {k : Nat} (f : List Word → List F64) (hread : readBuf s r 0 k = some ws) :
    withTwoBuffers d r s (fun s' => transform d r k f s') = .next (complete (storeResults d (f ws) s)) := by
  obtain ⟨hd, hr, hdr⟩ := hbuf
  rw [withTwoBuffers_run _ hd hr hdr, transform_of_read hread]

theorem execFft_of_read (hread : readBuf s r 0 (2 * s.size) = some ws) :
    exec (.fft d r) s = .next (complete (storeResults d (fftWords s ws) s)) := by
  rw [execFft_eq, outOfPlace_of_read hbuf _ hread]

theorem execIfft_of_read (hread : readBuf s r 0 (2 * s.size) = some ws) :
    exec (.ifft d r) s = .next (complete (storeResults d (ifftWords s ws) s)) := by
  rw [execIfft_eq, outOfPlace_of_read hbuf _ hread]

theorem execRfft_of_read (hread : readBuf s r 0 s.size = some ws) :
    exec (.rfft d r) s = .next (complete (storeResults d (rfftWords s ws) s)) := by
  rw [execRfft_eq, outOfPlace_of_read hbuf _ hread]

end

/-! ### The words they compute -/

/-- Scaling divides each word by `N` once (R172). -/
theorem wordOf_scale {α : Type} (A : Arith α) (n : Nat) (x : Nat → Cplx α) (i : Nat) :
    wordOf (scale A n x) i = A.div (wordOf x i) (A.pow2 n) := by
  unfold wordOf
  split <;> rfl

section
variable (s : State) (d : BufNo) (x : Nat → Cplx F64) {k : Nat}

/-- A destination holds the words of the points stored in it. -/
theorem holds_wordsOf {i : Nat} (hi : i < k) : Holds (complete (storeResults d (wordsOf x k) s)) d i (wordOf x i) :=
  holds_storeResults s (by rw [wordsOf, List.getElem?_map, List.getElem?_range hi, Option.map_some])

/-- A destination holds the two parts of each point stored in it (R14). -/
theorem holds_wordsOf_point {m : Nat} (hm : 2 * m + 1 < k) :
    Holds (complete (storeResults d (wordsOf x k) s)) d (2 * m) (x m).re ∧
    Holds (complete (storeResults d (wordsOf x k) s)) d (2 * m + 1) (x m).im := by
  rw [← wordOf_even, ← wordOf_odd]
  exact ⟨holds_wordsOf s d x (by omega), holds_wordsOf s d x hm⟩

variable {x} in
/-- The four words of the first two points stored. -/
theorem holds_two_points {z z' : Cplx F64} (h : x 0 = z ∧ x 1 = z') (hk : 4 ≤ k) :
    Holds (complete (storeResults d (wordsOf x k) s)) d 0 z.re ∧
    Holds (complete (storeResults d (wordsOf x k) s)) d 1 z.im ∧
    Holds (complete (storeResults d (wordsOf x k) s)) d 2 z'.re ∧
    Holds (complete (storeResults d (wordsOf x k) s)) d 3 z'.im := by
  obtain ⟨rfl, rfl⟩ := h
  obtain ⟨hre, him⟩ := holds_wordsOf_point s d x (k := k) (m := 0) (by omega)
  exact ⟨hre, him, holds_wordsOf_point s d x (m := 1) (by omega)⟩

end

/-- `+0.0` has one pattern (R130). -/
theorem bufWord_of_holds_zero {t : State} {d : BufNo} {i : Nat} (h : Holds t d i F64.zero) : bufWord t d i = some 0#64 := by
  obtain ⟨draw, hword⟩ := h
  exact hword

end Sys2Proof.Machine

namespace Sys2Proof

/-! ### Engines without a combine pass -/

section
variable {α : Type} (A : Arith α) {perm : Nat → Nat} (rom : Nat → Cplx α) (n : Nat) (dir : Direction) (x : Nat → Cplx α)

/-- The one-point engine copies its point (R169). -/
theorem engine_zero (perm : Nat → Nat) : engine A perm rom n 0 dir x = x := if_pos rfl

theorem engine_of_passes_zero (perm : Nat → Nat) {ne : Nat} (hne : ne ≠ 0) (hp : passes ne = 0) :
    engine A perm rom n ne dir x = basePass A perm ne dir x := by
  rw [engine, if_neg hne, hp, combinePasses]

/-- The engine of two points is one `BASE2` (R163). -/
theorem engine_two (h0 : perm 0 = 0) :
    engine A perm rom n 1 dir x 0 = cadd A (x 0) (x 1) ∧ engine A perm rom n 1 dir x 1 = csub A (x 0) (x 1) := by
  rw [engine_of_passes_zero A rom n dir x perm (by decide) (by decide)]
  have hbase := basePass_two A perm dir x (ne := 1) (by decide) 0
  rwa [h0, show groups 1 = 1 by decide] at hbase

/-- The engine of four points is one `BASE4` (R165). -/
theorem engine_four (h0 : perm 0 = 0) {k : Nat} (hk : k < 4) :
    engine A perm rom n 2 dir x k = quadAt (bfly4 A dir (x 0) (x 1) (x 2) (x 3)) k := by
  rw [engine_of_passes_zero A rom n dir x perm (by decide) (by decide)]
  have hbase := basePass_four A perm dir x (ne := 2) (by decide) 0 hk
  rwa [h0, show groups 2 = 1 by decide, Nat.mul_zero, Nat.zero_add] at hbase

/-! ### The unpacker's outer bins (R204) -/

theorem unpack_first (m : Nat) : unpack A rom m x 0 = (unpk0 A (x 0)).1 := if_pos rfl

theorem unpack_last {m : Nat} (hm : m ≠ 0) : unpack A rom m x m = (unpk0 A (x 0)).2 := by
  rw [unpack, if_neg hm, if_pos rfl]

end

end Sys2Proof

namespace Sys2Proof.Machine
open Claims

theorem permIndex_zero_of_passes_zero {s : State} (hs : s.Inv) (hp : passes s.logN = 0) : permIndex s s.logN 0 = 0 := by
  rw [permIndex, hs.br_const, List.getD_eq_getElem?_getD, reversalTable_getElem? (groups_pos _), hp, rev4_zero]
  rfl

section
variable {s : State} {d r : BufNo} {w0 w1 w2 w3 : Word}

/-- The four words of a source at `N = 2`. -/
theorem readBuf_two_points (hn : s.logN = 1) (h0 : bufWord s r 0 = some w0) (h1 : bufWord s r 1 = some w1)
    (h2 : bufWord s r 2 = some w2) (h3 : bufWord s r 3 = some w3) :
    readBuf s r 0 (2 * s.size) = some [w0, w1, w2, w3] := by
  rw [State.size, hn]
  refine readBuf_eq_some.2 ⟨rfl, fun j hj => ?_⟩
  have hj : j < 4 := hj
  rw [Nat.zero_add]
  interval_cases j <;> assumption

/-- The engine's points at `N = 2` (R163). -/
theorem runEngine_two_points (hs : s.Inv) (hn : s.logN = 1) (dir : Direction) (x : Nat → Cplx F64) :
    runEngine s s.logN dir x 0 = cadd (f64Arith s.rm) (x 0) (x 1) ∧
    runEngine s s.logN dir x 1 = csub (f64Arith s.rm) (x 0) (x 1) := by
  have hperm := permIndex_zero_of_passes_zero hs (by rw [hn]; rfl)
  rw [hn] at hperm
  rw [runEngine, hn]
  exact engine_two _ _ _ _ _ hperm

/-- The points of IFFT at `N = 2` (R171). -/
theorem scaledEngine_two_points (hs : s.Inv) (hn : s.logN = 1) (x : Nat → Cplx F64) :
    scale (f64Arith s.rm) s.logN (runEngine s s.logN .inverse x) 0 =
      ⟨F64.div s.rm (F64.add s.rm (x 0).re (x 1).re) (.ofNat 2),
        F64.div s.rm (F64.add s.rm (x 0).im (x 1).im) (.ofNat 2)⟩ ∧
    scale (f64Arith s.rm) s.logN (runEngine s s.logN .inverse x) 1 =
      ⟨F64.div s.rm (F64.sub s.rm (x 0).re (x 1).re) (.ofNat 2),
        F64.div s.rm (F64.sub s.rm (x 0).im (x 1).im) (.ofNat 2)⟩ := by
  obtain ⟨hsum, hdiff⟩ := runEngine_two_points hs hn .inverse x
  have hpow : (f64Arith s.rm).pow2 s.logN = F64.ofNat 2 := by rw [hn]; exact congrArg F64.ofNat (Nat.pow_one 2)
  rw [scale, scale, hsum, hdiff, hpow]
  exact ⟨rfl, rfl⟩

/-- The bins of RFFT at `N = 2`: `UNPK0` of the one point (R201, R204). -/
theorem unpack_two_points (hn : s.logN = 1) (x : Nat → Cplx F64) :
    unpack (f64Arith s.rm) (romPair s) (s.size / 2) (runEngine s (s.logN - 1) .forward x) 0 =
      ⟨F64.add s.rm (x 0).re (x 0).im, F64.zero⟩ ∧
    unpack (f64Arith s.rm) (romPair s) (s.size / 2) (runEngine s (s.logN - 1) .forward x) 1 =
      ⟨F64.sub s.rm (x 0).re (x 0).im, F64.zero⟩ := by
  rw [runEngine, State.size, hn, engine_zero]
  exact ⟨unpack_first _ _ _ 1, unpack_last _ _ _ Nat.one_ne_zero⟩

/-- The engine's points at `N = 4` (R165). -/
theorem runEngine_four_points (hs : s.Inv) (hn : s.logN = 2) (dir : Direction) (x : Nat → Cplx F64) {k : Nat} (hk : k < 4) :
    runEngine s s.logN dir x k = quadAt (bfly4 (f64Arith s.rm) dir (x 0) (x 1) (x 2) (x 3)) k := by
  have hperm := permIndex_zero_of_passes_zero hs (by rw [hn]; rfl)
  rw [hn] at hperm
  rw [runEngine, hn]
  exact engine_four _ _ _ _ _ hperm hk

end

/-- CSPEC at `N = 2` reads and stores no word (R210). -/
theorem execCspec_two_points {s : State} {d : BufNo} (hn : s.logN = 1) (hd : d.toNat < s.nbuf) :
    exec (.cspec d) s = .next (complete s) := by
  have hread : readBuf s d 2 (s.size - 2) = some [] := by rw [State.size, hn]; rfl
  rw [execCspec_of_read hd hread, hn]
  rfl

end Sys2Proof.Machine
end

section
/-! SUPPORT. The statements about FFT and IFFT and about the smallest sizes, each settled from the facts above. -/

namespace Sys2Proof.Machine
open Claims

/-- Settles O13: the words stored are the forward engine's. -/
theorem fftCompletes : Obligations.FftCompletes := by
  intro s d r hbuf hw
  obtain ⟨ws, hread, hword⟩ := readBuf_of_Written hw
  have hexec := execFft_of_read hbuf hread
  exact ⟨ws, _, hread, hword, hexec, exec_registersKept hexec, endCommand_statusEnds 0 rfl,
    fun i hi => holds_wordsOf s d (runEngine s s.logN .forward (pointsOf ws)) hi⟩

/-- Settles O14: the words stored are the inverse engine's, each divided by `N`. -/
theorem ifftCompletes : Obligations.IfftCompletes := by
  intro s d r hbuf hw
  obtain ⟨ws, hread, hword⟩ := readBuf_of_Written hw
  have hexec := execIfft_of_read hbuf hread
  refine ⟨ws, _, hread, hword, hexec, exec_registersKept hexec, endCommand_statusEnds 0 rfl,
    fun i hi => ?_⟩
  have hscaled := holds_wordsOf s d (scale (f64Arith s.rm) s.logN (runEngine s s.logN .inverse (pointsOf ws))) hi
  rw [wordOf_scale] at hscaled
  exact hscaled

/-- Settles O20: each bin is one output of the radix-4 butterfly of the four points. -/
theorem fourPointForward : Obligations.FourPointForward := by
  intro s d r ws hs hn hbuf hread x add sub
  have hsize : 2 * s.size = 8 := by rw [State.size, hn]; rfl
  have hbin : ∀ k, k < 4 → _ ∧ _ := fun k hk => runEngine_four_points hs hn .forward (pointsOf ws) hk ▸
    holds_wordsOf_point (k := 2 * s.size) s d (runEngine s s.logN .forward (pointsOf ws)) (m := k) (by omega)
  obtain ⟨h0, h1⟩ := hbin 0 (by decide)
  obtain ⟨h2, h3⟩ := hbin 1 (by decide)
  obtain ⟨h4, h5⟩ := hbin 2 (by decide)
  obtain ⟨h6, h7⟩ := hbin 3 (by decide)
  exact ⟨_, execFft_of_read hbuf (hsize ▸ hread), h0, h1, h2, h3, h4, h5, h6, h7⟩

/-- Settles O19, command by command: each stores two points, which are the sum and the difference of its source's, those
halved, and the outer bins of its source's one point. -/
theorem twoPointCommands : Obligations.TwoPointCommands := by
  intro s d r w0 w1 w2 w3 hs hn hbuf h0 h1 h2 h3
  have hsize : s.size = 2 := by rw [State.size, hn]; rfl
  have hread := readBuf_two_points hn h0 h1 h2 h3
  have hhalf : readBuf s r 0 s.size = some ([w0, w1, w2, w3].take 2) := hsize ▸ readBuf_take hread (by omega)
  refine ⟨⟨_, execFft_of_read hbuf hread, ?_⟩, ⟨_, execIfft_of_read hbuf hread, ?_⟩,
    ⟨_, execRfft_of_read hbuf hhalf, ?_⟩, ⟨_, execCspec_two_points hn hbuf.1, rfl⟩⟩
  · exact holds_two_points s d (runEngine_two_points hs hn .forward (pointsOf [w0, w1, w2, w3])) (by omega)
  · exact holds_two_points s d (scaledEngine_two_points hs hn (pointsOf [w0, w1, w2, w3])) (by omega)
  · obtain ⟨hsum, hzero, hdiff, hzero'⟩ :=
      holds_two_points (k := s.size + 2) s d (unpack_two_points hn (pointsOf [w0, w1])) (by omega)
    exact ⟨hsum, bufWord_of_holds_zero hzero, hdiff, bufWord_of_holds_zero hzero'⟩

end Sys2Proof.Machine
end

section
/-! SUPPORT. The pseudocode's in-place loops as updates of points, the points that one butterfly of a pass writes, and what a
pass reads (R162 to R169, R175). -/

namespace Sys2Proof

section
variable {α : Type}

/-! ### Arrays as points -/

theorem wordOf_congr {x y : Nat → Cplx α} {i : Nat} (h : x (i / 2) = y (i / 2)) : wordOf x i = wordOf y i := by
  rw [wordOf, wordOf, h]

/-- Arrays that agree on their first words agree on their first points. -/
theorem pointOf_congr {a b : Nat → α} {k m : Nat} (h : ∀ i, i < 2 * m → a i = b i) (hk : k < m) :
    pointOf a k = pointOf b k := by
  rw [pointOf, pointOf, h (2 * k) (by omega), h (2 * k + 1) (by omega)]

/-- Arrays with the same points have the same words. -/
theorem eq_of_pointOf_eq {a b : Nat → α} {i : Nat} (h : pointOf a (i / 2) = pointOf b (i / 2)) : a i = b i := by
  rw [← wordOf_pointOf a, ← wordOf_pointOf b, wordOf_congr h]

/-- Writing a point at an even word offset writes that point and no other. -/
theorem pointOf_setPoint (a : Nat → α) (k : Nat) (z : Cplx α) (j : Nat) :
    pointOf (setPoint a (2 * k) z) j = if j = k then z else pointOf a j := by
  by_cases h : j = k
  · rw [if_pos h, h, pointOf, setPoint_re, setPoint_im]
  · rw [if_neg h, pointOf, setPoint_other a z (by omega) (by omega), setPoint_other a z (by omega) (by omega), pointOf]

/-! ### Loops whose turns own their points -/

/-- A loop whose turn `t` writes the points of owner `t`, from the points of that owner, applies each turn's rule to the array
before the loop. -/
theorem pointOf_loop {own : Nat → Nat} {F : (Nat → Cplx α) → Nat → Cplx α} {m : Nat}
    {body : Nat → (Nat → α) → (Nat → α)} {a : Nat → α}
    (hF : ∀ x y k, (∀ k', own k' = own k → x k' = y k') → F x k = F y k)
    (hbody : ∀ t b k, t < m → pointOf (body t b) k = if own k = t then F (pointOf b) k else pointOf b k) (k : Nat) :
    pointOf (loop m body a) k = if own k < m then F (pointOf a) k else pointOf a k := by
  induction m generalizing k with
  | zero => rw [loop_zero, if_neg (Nat.not_lt_zero _)]
  | succ m ih =>
    have ih := ih fun t b k ht => hbody t b k (Nat.lt_succ_of_lt ht)
    rw [loop_succ, hbody m _ k (Nat.lt_succ_self m)]
    by_cases hlast : own k = m
    · rw [if_pos hlast, if_pos (by omega)]
      exact hF _ _ k fun k' hk' => by rw [ih, if_neg (by omega)]
    · rw [if_neg hlast, ih]
      by_cases hlt : own k < m
      · rw [if_pos hlt, if_pos (by omega)]
      · rw [if_neg hlt, if_neg (by omega)]

/-! ### The four outputs of a butterfly -/

/-- The outputs of a radix-4 butterfly written at the points `f`, `f + g`, `f + 2g`, `f + 3g` (R165, R167). -/
def setQuad (a : Nat → α) (f g : Nat) (q : Quad α) : Nat → α :=
  setPoint (setPoint (setPoint (setPoint a (2 * f) q.a) (2 * (f + g)) q.b) (2 * (f + 2 * g)) q.c) (2 * (f + 3 * g)) q.d

theorem pointOf_setQuad (a : Nat → α) {g : Nat} (hg : 0 < g) (f : Nat) (q : Quad α) {r : Nat} (hr : r < 4) :
    pointOf (setQuad a f g q) (f + r * g) = quadAt q r := by
  have hne : g ≠ 0 := by omega
  simp only [setQuad, pointOf_setPoint]
  interval_cases r <;> simp [quadAt, hne]

theorem pointOf_setQuad_other (a : Nat → α) {f g k : Nat} (q : Quad α) (h : ∀ r, r < 4 → k ≠ f + r * g) :
    pointOf (setQuad a f g q) k = pointOf a k := by
  have h0 := h 0 (by decide)
  have h1 := h 1 (by decide)
  simp only [setQuad, pointOf_setPoint]
  rw [if_neg (h 3 (by decide)), if_neg (h 2 (by decide)), if_neg (by omega), if_neg (by omega)]

/-! ### The base pass -/

variable (A : Arith α)

theorem seqBase2_eq (out inp : Nat → α) (o off stepw : Nat) :
    seqBase2 A out o inp off stepw =
      setPoint (setPoint out o (base2 A (pointAt inp off) (pointAt inp (off + stepw))).1) (o + 2)
        (base2 A (pointAt inp off) (pointAt inp (off + stepw))).2 := rfl

/-- `BASE4` writes four neighbouring points. -/
theorem seqBase4_eq (dir : Direction) (out inp : Nat → α) (t f g : Nat) :
    seqBase4 A dir out (2 * t) inp (2 * f) (2 * g) =
      setQuad out t 1 (bfly4 A dir (pointOf inp f) (pointOf inp (f + g)) (pointOf inp (f + 2 * g))
        (pointOf inp (f + 3 * g))) := by
  rw [seqBase4, setQuad]
  simp only [← pointAt_even]
  ring_nf

variable (perm : Nat → Nat) (dir : Direction)

/-- One turn of the base pass's loop: `BASE2` or `BASE4` of group `t` (R162). -/
def seqBaseGroup (ne t : Nat) (inp out : Nat → α) : Nat → α :=
  if basePoints ne = 2 then seqBase2 A out (t * (2 * basePoints ne)) inp (2 * perm t) (2 * groups ne)
  else seqBase4 A dir out (t * (2 * basePoints ne)) inp (2 * perm t) (2 * groups ne)

theorem basePoints_of_baseBits_one {ne : Nat} (h : baseBits ne = 1) : basePoints ne = 2 := by rw [basePoints, h, Nat.pow_one]

theorem basePoints_of_baseBits_two {ne : Nat} (h : baseBits ne = 2) : basePoints ne = 4 := by rw [basePoints, h]; rfl

/-- Group `t` of the base pass writes points `tB` to `tB + B - 1` of the pass's result. -/
theorem pointOf_seqBaseGroup (ne t : Nat) (inp out : Nat → α) (k : Nat) :
    pointOf (seqBaseGroup A perm dir ne t inp out) k =
      if k / basePoints ne = t then basePass A perm ne dir (pointOf inp) k else pointOf out k := by
  obtain hb | hb := baseBits_cases ne
  · obtain ⟨heven, hodd⟩ := basePass_two A perm dir (pointOf inp) hb t
    rw [seqBaseGroup, basePoints_of_baseBits_one hb, if_pos rfl, seqBase2_eq, ← Nat.mul_add, pointAt_even, pointAt_even,
      show t * (2 * 2) = 2 * (2 * t) by ring, show 2 * (2 * t) + 2 = 2 * (2 * t + 1) by ring, pointOf_setPoint,
      pointOf_setPoint, base2]
    by_cases ht : k / 2 = t
    · rw [if_pos ht]
      obtain rfl | rfl : k = 2 * t ∨ k = 2 * t + 1 := by omega
      · rw [if_neg (by omega), if_pos rfl, heven]
      · rw [if_pos rfl, hodd]
    · rw [if_neg ht, if_neg (by omega), if_neg (by omega)]
  · rw [seqBaseGroup, basePoints_of_baseBits_two hb, if_neg (by decide), show t * (2 * 4) = 2 * (4 * t) by ring, seqBase4_eq]
    by_cases ht : k / 4 = t
    · rw [if_pos ht]
      obtain ⟨r, hr, rfl⟩ : ∃ r, r < 4 ∧ k = 4 * t + r * 1 := ⟨k % 4, by omega, by omega⟩
      rw [pointOf_setQuad _ Nat.one_pos _ _ hr, Nat.mul_one, basePass_four A perm dir _ hb t hr]
    · rw [if_neg ht]
      exact pointOf_setQuad_other _ _ fun r hr => by omega

theorem seqBasePass_eq (ne : Nat) (inp out : Nat → α) :
    seqBasePass A perm ne dir inp out = loop (groups ne) (fun t => seqBaseGroup A perm dir ne t inp) out := rfl

theorem pointOf_seqBasePass {ne : Nat} (hne : 1 ≤ ne) (inp out : Nat → α) (k : Nat) :
    pointOf (seqBasePass A perm ne dir inp out) k =
      if k < 2 ^ ne then basePass A perm ne dir (pointOf inp) k else pointOf out k := by
  rw [seqBasePass_eq, pointOf_loop (own := (· / basePoints ne)) (F := fun _ => basePass A perm ne dir (pointOf inp))
    (fun _ _ _ _ => rfl) (fun t b k _ => pointOf_seqBaseGroup A perm dir ne t inp b k)]
  simp only [Nat.div_lt_iff_lt_mul (basePoints_pos ne), Nat.mul_comm (groups ne), basePoints_mul_groups hne]

/-! ### A combine pass -/

/-- The blocks of a pass have four quarters. -/
theorem blockPoints_succ_div_four (ne q : Nat) : blockPoints ne (q + 1) / 4 = blockPoints ne q := by
  rw [blockPoints_succ, Nat.mul_div_cancel_left _ (by decide)]

/-- The ROM's word offset of butterfly `j` is that of pair `j * N / L` (R166). -/
theorem romOffset_eq {n l : Nat} (hdvd : l ∣ 2 ^ n) (j : Nat) : j * (2 * 2 ^ n / l) = 2 * (j * (2 ^ n / l)) := by
  rw [Nat.mul_div_assoc _ hdvd, Nat.mul_left_comm]

/-- The ROM pairs of indices `k`, `2k`, `3k` that a butterfly takes are within the ROM (R167, R175). -/
theorem romIndex_lt {n ne q j r : Nat} (hdvd : blockPoints ne (q + 1) ∣ 2 ^ n) (hj : j < blockPoints ne q) (hr : r < 4) :
    r * (j * (2 ^ n / blockPoints ne (q + 1))) < 2 ^ n := by
  have hstep : 0 < 2 ^ n / blockPoints ne (q + 1) :=
    Nat.div_pos (Nat.le_of_dvd (Nat.two_pow_pos n) hdvd) (blockPoints_pos ne (q + 1))
  have hlt : r * j < blockPoints ne (q + 1) := by
    rw [blockPoints_succ]
    calc r * j ≤ 3 * j := Nat.mul_le_mul_right j (by omega)
      _ < 4 * blockPoints ne q := by omega
  calc r * (j * (2 ^ n / blockPoints ne (q + 1)))
    _ = r * j * (2 ^ n / blockPoints ne (q + 1)) := (Nat.mul_assoc ..).symm
    _ < blockPoints ne (q + 1) * (2 ^ n / blockPoints ne (q + 1)) := Nat.mul_lt_mul_of_pos_right hlt hstep
    _ = 2 ^ n := Nat.mul_div_cancel' hdvd

/-- Point `k` belongs to butterfly `j` of block `u` exactly when it is one of the butterfly's four points. -/
theorem mem_butterfly_iff {l g u j : Nat} (hl : l = 4 * g) (hj : j < g) (k : Nat) :
    (k / l = u ∧ k % g = j) ↔ ∃ r, r < 4 ∧ k = u * l + j + r * g := by
  subst hl
  have hg : 0 < g := by omega
  constructor
  · rintro ⟨rfl, rfl⟩
    refine ⟨k / g % 4, Nat.mod_lt _ (by decide), ?_⟩
    have hblock : k / (4 * g) = k / g / 4 := by rw [Nat.div_div_eq_div_mul, Nat.mul_comm]
    calc k = g * (4 * (k / g / 4) + k / g % 4) + k % g := by rw [Nat.div_add_mod, Nat.div_add_mod]
      _ = k / (4 * g) * (4 * g) + k % g + k / g % 4 * g := by rw [hblock]; ring
  · rintro ⟨r, hr, rfl⟩
    have hoffset : u * (4 * g) + j + r * g = j + (4 * u + r) * g := by ring
    have hmod : (j + (4 * u + r) * g) % g = j := by rw [Nat.add_mul_mod_self_right, Nat.mod_eq_of_lt hj]
    have hdiv : (j + (4 * u + r) * g) / g = 4 * u + r := by
      rw [Nat.add_mul_div_right _ _ hg, Nat.div_eq_of_lt hj, Nat.zero_add]
    rw [hoffset, Nat.mul_comm 4 g, ← Nat.div_div_eq_div_mul, hdiv]
    exact ⟨by omega, hmod⟩

/-- The butterfly that point `k` belongs to in block `u` of `l` points, in quarters of `g` points; `g`, which is none, outside the
block. -/
def butterflyIn (l g u k : Nat) : Nat := if k / l = u then k % g else g

theorem butterflyIn_eq_iff {l g u j : Nat} (hj : j < g) {k : Nat} :
    butterflyIn l g u k = j ↔ k / l = u ∧ k % g = j := by
  unfold butterflyIn
  by_cases hk : k / l = u
  · simp [hk]
  · simp [hk, hj.ne']

theorem butterflyIn_lt_iff {l g u : Nat} (hg : 0 < g) {k : Nat} : butterflyIn l g u k < g ↔ k / l = u := by
  unfold butterflyIn
  by_cases hk : k / l = u
  · simp [hk, Nat.mod_lt k hg]
  · simp [hk]

theorem lt_of_same_block {l m k k' : Nat} (hl : l ∣ m) (h : k' / l = k / l) (hk : k < m) : k' < m := by
  obtain ⟨c, rfl⟩ := hl
  have hc : k / l < c := Nat.div_lt_of_lt_mul hk
  rw [← h, Nat.div_lt_iff_lt_mul (Nat.pos_of_ne_zero ?_), Nat.mul_comm] at hc
  · exact hc
  · rintro rfl
    simp at hk

variable (rom : Nat → Cplx α) (tw : Nat → α) (n : Nat)

/-- A point after a combine pass depends on the points of its own butterfly. -/
theorem combinePass_congr_butterfly {ne q : Nat} {x y : Nat → Cplx α} {k : Nat}
    (h : ∀ k', k' / blockPoints ne (q + 1) = k / blockPoints ne (q + 1) → k' % blockPoints ne q = k % blockPoints ne q →
      x k' = y k') :
    combinePass A rom n ne (q + 1) dir x k = combinePass A rom n ne (q + 1) dir y k := by
  have hl := blockPoints_succ ne q
  have hj := Nat.mod_lt k (blockPoints_pos ne q)
  obtain ⟨f, hf⟩ : ∃ f, k / blockPoints ne (q + 1) * blockPoints ne (q + 1) + k % blockPoints ne q = f := ⟨_, rfl⟩
  have hpoint : ∀ r, r < 4 → x (f + r * blockPoints ne q) = y (f + r * blockPoints ne q) := by
    intro r hr
    obtain ⟨hblock, hpos⟩ := (mem_butterfly_iff hl hj (f + r * blockPoints ne q)).2 ⟨r, hr, by rw [hf]⟩
    exact h _ hblock hpos
  have h0 := hpoint 0 (by decide)
  have h1 := hpoint 1 (by decide)
  rw [Nat.zero_mul, Nat.add_zero] at h0
  rw [Nat.one_mul] at h1
  simp only [combinePass, blockPoints_succ_div_four, hf, h0, h1, hpoint 2 (by decide), hpoint 3 (by decide)]

theorem seqR4bfly_eq (out : Nat → α) (f g k : Nat) :
    seqR4bfly A tw dir out (2 * f) (2 * g) (2 * k) =
      setQuad out f g (r4bfly A (pointOf tw) dir k (pointOf out f) (pointOf out (f + g)) (pointOf out (f + 2 * g))
        (pointOf out (f + 3 * g))) := by
  rw [seqR4bfly, setQuad, r4bfly]
  simp only [← pointAt_even]
  ring_nf

section
variable {ne q : Nat} (hdvd : blockPoints ne (q + 1) ∣ 2 ^ n)
include hdvd

/-- Butterfly `j` of block `u` writes its four points of the pass's result (R166, R167). -/
theorem pointOf_seqR4bfly (u : Nat) {j : Nat} (hj : j < blockPoints ne q) (out : Nat → α) (k : Nat) :
    pointOf (seqR4bfly A tw dir out (u * (2 * blockPoints ne (q + 1)) + 2 * j) (2 * blockPoints ne (q + 1) / 4)
        (j * (2 * 2 ^ n / blockPoints ne (q + 1)))) k =
      if k / blockPoints ne (q + 1) = u ∧ k % blockPoints ne q = j then
        combinePass A (pointOf tw) n ne (q + 1) dir (pointOf out) k
      else pointOf out k := by
  have hl := blockPoints_succ ne q
  have hoffset : u * (2 * blockPoints ne (q + 1)) + 2 * j = 2 * (u * blockPoints ne (q + 1) + j) := by ring
  have hquarter : 2 * blockPoints ne (q + 1) / 4 = 2 * blockPoints ne q := by omega
  rw [hoffset, hquarter, romOffset_eq hdvd, seqR4bfly_eq]
  by_cases hk : k / blockPoints ne (q + 1) = u ∧ k % blockPoints ne q = j
  · rw [if_pos hk]
    obtain ⟨r, hr, rfl⟩ := (mem_butterfly_iff hl hj k).1 hk
    rw [pointOf_setQuad _ (by omega) _ _ hr, Nat.add_right_comm _ j (r * _), combinePass_at A _ n ne _ dir _ rfl hl hr hj]
  · rw [if_neg hk]
    rw [mem_butterfly_iff hl hj] at hk
    exact pointOf_setQuad_other _ _ fun r hr hkr => hk ⟨r, hr, hkr⟩

/-- One turn of the outer loop of a combine pass writes the points of block `u` of the pass's result (R166). -/
theorem pointOf_seqBlock (u : Nat) (out : Nat → α) (k : Nat) :
    pointOf (loop (blockPoints ne q) (fun j out => seqR4bfly A tw dir out (u * (2 * blockPoints ne (q + 1)) + 2 * j)
        (2 * blockPoints ne (q + 1) / 4) (j * (2 * 2 ^ n / blockPoints ne (q + 1)))) out) k =
      if k / blockPoints ne (q + 1) = u then combinePass A (pointOf tw) n ne (q + 1) dir (pointOf out) k
      else pointOf out k := by
  have hg := blockPoints_pos ne q
  rw [pointOf_loop (own := butterflyIn (blockPoints ne (q + 1)) (blockPoints ne q) u)
    (F := combinePass A (pointOf tw) n ne (q + 1) dir) (fun x y k h => ?_) (fun j b k hj => ?_)]
  · simp only [butterflyIn_lt_iff hg]
  · exact combinePass_congr_butterfly A dir _ n fun k' hblock hpos => h k' (by rw [butterflyIn, butterflyIn, hblock, hpos])
  · simp only [butterflyIn_eq_iff hj, pointOf_seqR4bfly A dir tw n hdvd u hj]

theorem pointOf_seqCombinePass (hblocks : blockPoints ne (q + 1) ∣ 2 ^ ne) (out : Nat → α) (k : Nat) :
    pointOf (seqCombinePass A tw n ne (q + 1) dir out) k =
      if k < 2 ^ ne then combinePass A (pointOf tw) n ne (q + 1) dir (pointOf out) k else pointOf out k := by
  have hl := blockPoints_pos ne (q + 1)
  rw [seqCombinePass, pointOf_loop (own := (· / blockPoints ne (q + 1)))
    (F := combinePass A (pointOf tw) n ne (q + 1) dir) (fun x y k h => ?_) (fun u b k hu => ?_)]
  · simp only [Nat.mul_div_mul_left _ _ Nat.two_pos, Nat.div_lt_iff_lt_mul hl, Nat.div_mul_cancel hblocks]
  · exact combinePass_congr_butterfly A dir _ n fun k' hblock _ => h k' hblock
  · rw [blockPoints_succ_div_four]
    exact pointOf_seqBlock A dir tw n hdvd u b k

end

/-! ### The engine -/

section
variable {ne : Nat} (h1 : 1 ≤ ne)
include h1

/-- A base pass reads the points at `perm(t) + mG` (R162, R175). -/
theorem basePass_congr {perm perm' : Nat → Nat} {x x' : Nat → Cplx α}
    (hperm : ∀ t, t < groups ne → perm t < groups ne ∧ perm' t = perm t) (hx : ∀ m, m < 2 ^ ne → x' m = x m) {i : Nat}
    (hi : i < 2 ^ ne) : basePass A perm' ne dir x' i = basePass A perm ne dir x i := by
  have hpoints := basePoints_mul_groups h1
  obtain ⟨hlt, heq⟩ := hperm (i / basePoints ne) (by rwa [Nat.div_lt_iff_lt_mul (basePoints_pos ne), Nat.mul_comm, hpoints])
  simp only [basePass, heq]
  obtain hb | hb := baseBits_cases ne
  · rw [basePoints_of_baseBits_one hb] at hpoints hlt ⊢
    rw [if_pos hb, if_pos hb, hx _ (by omega), hx _ (by omega)]
  · rw [basePoints_of_baseBits_two hb] at hpoints hlt ⊢
    rw [if_neg (by omega), if_neg (by omega), hx _ (by omega), hx _ (by omega), hx _ (by omega), hx _ (by omega)]

variable (hne : ne ≤ n)
include hne

theorem combinePass_congr {rom rom' x x' : Nat → Cplx α} {q : Nat} (hq : q < passes ne)
    (hrom : ∀ k, k < 2 ^ n → rom' k = rom k) (hx : ∀ m, m < 2 ^ ne → x' m = x m) {i : Nat} (hi : i < 2 ^ ne) :
    combinePass A rom' n ne (q + 1) dir x' i = combinePass A rom n ne (q + 1) dir x i := by
  have hblocks := blockPoints_dvd h1 hq
  calc combinePass A rom' n ne (q + 1) dir x' i
    _ = combinePass A rom' n ne (q + 1) dir x i :=
      combinePass_congr_butterfly A dir rom' n fun k' hblock _ => hx k' (lt_of_same_block hblocks hblock hi)
    _ = combinePass A rom n ne (q + 1) dir x i := by
      have hpair := romIndex_lt (hblocks.trans (Nat.pow_dvd_pow 2 hne)) (Nat.mod_lt i (blockPoints_pos ne q))
        (show 3 < 4 by decide)
      rw [combinePass, combinePass, blockPoints_succ_div_four, r4bfly, r4bfly, hrom _ (by omega), hrom _ (by omega),
        hrom _ hpair]

theorem combinePasses_congr {rom rom' x x' : Nat → Cplx α} {p : Nat} (hp : p ≤ passes ne)
    (hrom : ∀ k, k < 2 ^ n → rom' k = rom k) (hx : ∀ m, m < 2 ^ ne → x' m = x m) {i : Nat} (hi : i < 2 ^ ne) :
    combinePasses A rom' n ne dir x' p i = combinePasses A rom n ne dir x p i := by
  induction p generalizing i with
  | zero => exact hx i hi
  | succ p ih => exact combinePass_congr A dir n h1 hne hp hrom (fun m hm => ih (Nat.le_of_succ_le hp) hm) hi

end

/-- An engine reads the points, the ROM pairs and the permuter's values of its size and no others (R175). -/
theorem engine_congr {ne : Nat} (hne : ne ≤ n) {perm perm' : Nat → Nat} {rom rom' x x' : Nat → Cplx α}
    (hperm : ∀ t, t < groups ne → perm t < groups ne ∧ perm' t = perm t) (hrom : ∀ k, k < 2 ^ n → rom' k = rom k)
    (hx : ∀ m, m < 2 ^ ne → x' m = x m) {i : Nat} (hi : i < 2 ^ ne) :
    engine A perm' rom' n ne dir x' i = engine A perm rom n ne dir x i := by
  by_cases h0 : ne = 0
  · rw [engine, engine, if_pos h0, if_pos h0, hx i hi]
  · have h1 : 1 ≤ ne := Nat.one_le_iff_ne_zero.2 h0
    rw [engine, engine, if_neg h0, if_neg h0]
    exact combinePasses_congr A dir n h1 hne le_rfl hrom (fun m hm => basePass_congr A dir h1 hperm hx hm) hi

theorem pointOf_seqEngine {ne : Nat} (hne : ne ≤ n) (inp out : Nat → α) (k : Nat) :
    pointOf (seqEngine A perm tw n ne dir inp out) k =
      if k < 2 ^ ne then engine A perm (pointOf tw) n ne dir (pointOf inp) k else pointOf out k := by
  by_cases h0 : ne = 0
  · subst h0
    rw [engine_zero, show seqEngine A perm tw n 0 dir inp out = setPoint out (2 * 0) (pointOf inp 0) from rfl, pointOf_setPoint]
    by_cases hk : k = 0
    · rw [hk, if_pos rfl, if_pos (by decide)]
    · rw [if_neg hk, if_neg (by rw [Nat.pow_zero]; omega)]
  · have h1 : 1 ≤ ne := Nat.one_le_iff_ne_zero.2 h0
    rw [seqEngine, engine, if_neg h0, if_neg h0]
    refine loop_induction (fun q a => ∀ k, pointOf a k = if k < 2 ^ ne then
      combinePasses A (pointOf tw) n ne dir (basePass A perm ne dir (pointOf inp)) q k else pointOf out k)
      (pointOf_seqBasePass A perm dir h1 inp out) (fun q a hq ih k => ?_) k
    have hblocks := blockPoints_dvd h1 (q := q + 1) hq
    rw [pointOf_seqCombinePass A dir tw n (hblocks.trans (Nat.pow_dvd_pow 2 hne)) hblocks]
    by_cases hk : k < 2 ^ ne
    · rw [if_pos hk, if_pos hk]
      exact combinePass_congr A dir n h1 hne hq (fun _ _ => rfl) (fun m hm => by rw [ih, if_pos hm]) hk
    · rw [if_neg hk, if_neg hk, ih, if_neg hk]

/-- The loops leave the engine's word at each offset of its points, and what was there elsewhere (R168, R169). -/
theorem seqEngine_eq {ne : Nat} (hne : ne ≤ n) (inp out : Nat → α) (i : Nat) :
    seqEngine A perm tw n ne dir inp out i =
      if i < 2 * 2 ^ ne then wordOf (engine A perm (pointOf tw) n ne dir (pointOf inp)) i else out i := by
  have hpoint := pointOf_seqEngine A perm dir tw n hne inp out (i / 2)
  by_cases hi : i < 2 * 2 ^ ne
  · rw [if_pos (by omega)] at hpoint
    rw [if_pos hi, ← wordOf_pointOf (seqEngine A perm tw n ne dir inp out), wordOf_congr hpoint]
  · rw [if_neg (by omega)] at hpoint
    rw [if_neg hi, eq_of_pointOf_eq hpoint]

/-! ### The micro-operations one by one -/

theorem microOp_copy (ne : Nat) (inp out : Nat → α) :
    microOp A perm tw n ne dir inp out .copy = setPoint out (2 * 0) (pointOf inp 0) := rfl

/-- The base butterfly of a group, as an engine's list names it, is the turn of the base pass's loop. -/
theorem microOp_base (ne t : Nat) (inp out : Nat → α) :
    microOp A perm tw n ne dir inp out (if basePoints ne = 2 then .base2 t else .base4 t) =
      seqBaseGroup A perm dir ne t inp out := by
  unfold seqBaseGroup
  split <;> rfl

section
variable {ne : Nat} (hne : ne ≤ n) {op : MicroOp} (hop : op ∈ engineOps n ne)
include hne hop

/-- A micro-operation of an engine writes no point beyond the engine's (R175). -/
theorem pointOf_microOp_outside (inp out : Nat → α) {k : Nat} (hk : 2 ^ ne ≤ k) :
    pointOf (microOp A perm tw n ne dir inp out op) k = pointOf out k := by
  obtain ⟨rfl, rfl⟩ | ⟨h0, t, ht, rfl⟩ | ⟨h0, q, u, j, hq, hu, hj, rfl⟩ := mem_engineOps hop
  · rw [microOp_copy, pointOf_setPoint, if_neg (by rw [Nat.pow_zero] at hk; omega)]
  · have hgroup : t < k / basePoints ne := ht.trans_le <| by
      rwa [Nat.le_div_iff_mul_le (basePoints_pos ne), Nat.mul_comm, basePoints_mul_groups (Nat.one_le_iff_ne_zero.2 h0)]
    rw [microOp_base, pointOf_seqBaseGroup, if_neg hgroup.ne']
  · have hblocks := blockPoints_dvd (Nat.one_le_iff_ne_zero.2 h0) (q := q + 1) hq
    rw [Nat.mul_div_mul_left _ _ Nat.two_pos] at hu
    have hblock : u < k / blockPoints ne (q + 1) := hu.trans_le (Nat.div_le_div_right hk)
    rw [microOp, pointOf_seqR4bfly A dir tw n (hblocks.trans (Nat.pow_dvd_pow 2 hne)) u (blockPoints_succ_div_four ne q ▸ hj),
      if_neg fun h => hblock.ne' h.1]

/-- A micro-operation of an engine reads no word beyond the engine's and the ROM's (R175). -/
theorem pointOf_microOp_congr (hperm : ∀ t, t < groups ne → perm t < groups ne) {tw tw' inp inp' out out' : Nat → α}
    (htw : ∀ k, k < 2 ^ n → pointOf tw' k = pointOf tw k) (hinp : ∀ k, k < 2 ^ ne → pointOf inp' k = pointOf inp k)
    (hout : ∀ k, k < 2 ^ ne → pointOf out' k = pointOf out k) {k : Nat} (hk : k < 2 ^ ne) :
    pointOf (microOp A perm tw' n ne dir inp' out' op) k = pointOf (microOp A perm tw n ne dir inp out op) k := by
  obtain ⟨rfl, rfl⟩ | ⟨h0, t, ht, rfl⟩ | ⟨h0, q, u, j, hq, hu, hj, rfl⟩ := mem_engineOps hop
  · rw [microOp_copy, microOp_copy, pointOf_setPoint, pointOf_setPoint, hinp 0 (by decide), hout k hk]
  · rw [microOp_base, microOp_base, pointOf_seqBaseGroup, pointOf_seqBaseGroup, hout k hk,
      basePass_congr A dir (Nat.one_le_iff_ne_zero.2 h0) (fun t ht => ⟨hperm t ht, rfl⟩) hinp hk]
  · have h1 : 1 ≤ ne := Nat.one_le_iff_ne_zero.2 h0
    have hdvd := (blockPoints_dvd h1 (q := q + 1) hq).trans (Nat.pow_dvd_pow 2 hne)
    rw [blockPoints_succ_div_four] at hj
    rw [microOp, microOp, pointOf_seqR4bfly A dir tw' n hdvd u hj, pointOf_seqR4bfly A dir tw n hdvd u hj, hout k hk,
      combinePass_congr A dir n h1 hne hq htw hout hk]

end

end

/-! ### The offsets of an engine's micro-operations (R175) -/

section
variable {n ne : Nat}

theorem base_group_lt {t : Nat} {op : MicroOp} (hop : op ∈ engineOps n ne) (h : op = .base2 t ∨ op = .base4 t) :
    t < groups ne := by
  obtain ⟨-, rfl⟩ | ⟨-, t', ht, rfl⟩ | ⟨-, q, u, j, -, -, -, rfl⟩ := mem_engineOps hop
  · simp at h
  · obtain rfl : t' = t := by
      split at h <;> simpa using h
    exact ht
  · simp at h

theorem r4bfly_offsets_lt (hne : ne ≤ n) {a quarter k : Nat} (h : MicroOp.r4bfly a quarter k ∈ engineOps n ne) :
    a + 3 * quarter + 1 < 2 * 2 ^ ne ∧ 3 * k + 1 < 2 * 2 ^ n := by
  obtain ⟨-, h⟩ | ⟨-, t, -, h⟩ | ⟨h0, q, u, j, hq, hu, hj, h⟩ := mem_engineOps h
  · cases h
  · split at h <;> cases h
  · have hblocks := blockPoints_dvd (Nat.one_le_iff_ne_zero.2 h0) (q := q + 1) hq
    have hdvd := hblocks.trans (Nat.pow_dvd_pow 2 hne)
    rw [blockPoints_succ_div_four] at hj
    rw [Nat.mul_div_mul_left _ _ Nat.two_pos] at hu
    have hrom := romIndex_lt hdvd hj (show 3 < 4 by decide)
    have hend : (u + 1) * blockPoints ne (q + 1) ≤ 2 ^ ne :=
      (Nat.mul_le_mul_right _ hu).trans (Nat.div_mul_cancel hblocks).le
    have hl := blockPoints_succ ne q
    cases h
    constructor
    · rw [Nat.add_mul, Nat.one_mul] at hend
      have hoffset : u * (2 * blockPoints ne (q + 1)) = 2 * (u * blockPoints ne (q + 1)) := by ring
      omega
    · rw [romOffset_eq hdvd]
      omega

end

end Sys2Proof
end

section
/-! SUPPORT. The lists of micro-operations: run in order they are the pseudocode, and their lengths and operation counts
(R168 to R172, R201 to R206, R210, R293). -/

namespace Sys2Proof

section
variable {α : Type} (A : Arith α) (perm : Nat → Nat) (tw : Nat → α) (n ne : Nat) (dir : Direction) (inp out : Nat → α)

/-! ### The lists run in order -/

theorem runOps_engineOps : runOps A perm tw n ne dir inp (engineOps n ne) out = seqEngine A perm tw n ne dir inp out := by
  by_cases h0 : ne = 0
  · rw [engineOps, seqEngine, if_pos h0, if_pos h0]
    rfl
  · rw [engineOps, seqEngine, if_neg h0, if_neg h0, runOps_append, runOps_map, runOps_flatMap, seqBasePass_eq]
    simp only [microOp_base, runOps_flatMap, runOps_map]
    rfl

/-- Loops that agree wherever an invariant of the second one holds agree. -/
theorem loop_congr_of_invariant (P : Nat → (Nat → α) → Prop) {m : Nat} {f g : Nat → (Nat → α) → (Nat → α)} {a : Nat → α}
    (h0 : P 0 a) (h : ∀ k x, k < m → P k x → f k x = g k x ∧ P (k + 1) (g k x)) : loop m f a = loop m g a := by
  have hboth : loop m f a = loop m g a ∧ P m (loop m g a) := by
    induction m with
    | zero => exact ⟨rfl, h0⟩
    | succ m ih =>
      obtain ⟨heq, hP⟩ := ih fun k x hk => h k x (Nat.lt_succ_of_lt hk)
      obtain ⟨hstep, hP'⟩ := h m _ (Nat.lt_succ_self m) hP
      exact ⟨by rw [loop_succ, loop_succ, heq, hstep], hP'⟩
  exact hboth.1

/-- The array after `UNPK0` and `UNPKH`, from the snapshot `z` (R204, R205). -/
def unpackOuter (m : Nat) (z : Nat → α) : Nat → α :=
  let out := setPoint (setPoint z 0 (unpk0 A (pointAt z 0)).1) (2 * m) (unpk0 A (pointAt z 0)).2
  if 2 ≤ m then setPoint out (2 * (m / 2)) (unpkh A (pointAt z (2 * (m / 2)))) else out

/-- `UNPKP` of bin `i + 1` with its points read from `z` (R206). -/
def unpackPair (m : Nat) (z : Nat → α) (i : Nat) (out : Nat → α) : Nat → α :=
  let x := unpkp A (pointAt tw (2 * (i + 1))) (pointAt z (2 * (i + 1))) (pointAt z (2 * (m - (i + 1))))
  setPoint (setPoint out (2 * (i + 1)) x.1) (2 * (m - (i + 1))) x.2

theorem seqUnpack_eq (m : Nat) (z : Nat → α) :
    seqUnpack A tw m z = loop (m / 2 - 1) (unpackPair A tw m z) (unpackOuter A m z) := rfl

theorem microOp_unpkp (i : Nat) :
    microOp A perm tw n ne dir inp out (.unpkp (i + 1)) = unpackPair A tw (2 ^ n / 2) out i out := rfl

/-- The pairs of bins after the first `k` are still those of the snapshot `z`. -/
def PairsKept (m : Nat) (z : Nat → α) (k : Nat) (a : Nat → α) : Prop :=
  ∀ j, k < j → j < m / 2 → pointOf a j = pointOf z j ∧ pointOf a (m - j) = pointOf z (m - j)

theorem pairsKept_unpackOuter (m : Nat) (z : Nat → α) : PairsKept m z 0 (unpackOuter A m z) := by
  have hkept : ∀ j, j ≠ 0 → j ≠ m → j ≠ m / 2 → pointOf (unpackOuter A m z) j = pointOf z j := by
    intro j h0 hm hh
    unfold unpackOuter
    split
    · rw [pointOf_setPoint, pointOf_setPoint, ← Nat.mul_zero 2, pointOf_setPoint, if_neg hh, if_neg hm, if_neg h0]
    · rw [pointOf_setPoint, ← Nat.mul_zero 2, pointOf_setPoint, if_neg hm, if_neg h0]
  exact fun j h0 hj => ⟨hkept j (by omega) (by omega) (by omega), hkept (m - j) (by omega) (by omega) (by omega)⟩

/-- A step of the unpacker finds its pair as in the snapshot and leaves the later pairs alone. -/
theorem unpackPair_inPlace {m k : Nat} {z a : Nat → α} (hk : k < m / 2 - 1) (h : PairsKept m z k a) :
    unpackPair A tw m a k a = unpackPair A tw m z k a ∧ PairsKept m z (k + 1) (unpackPair A tw m z k a) := by
  obtain ⟨hlow, hhigh⟩ := h (k + 1) (by omega) (by omega)
  constructor
  · simp only [unpackPair, pointAt_even, hlow, hhigh]
  · intro j hj hjm
    obtain ⟨hlow, hhigh⟩ := h j (by omega) hjm
    simp only [unpackPair, pointOf_setPoint]
    rw [if_neg (by omega), if_neg (by omega), if_neg (by omega), if_neg (by omega)]
    exact ⟨hlow, hhigh⟩

/-- `UNPKH` reads a point that `UNPK0` has not written (R204, R205). -/
theorem runOps_outer :
    runOps A perm tw n ne dir inp (.unpk0 :: if 2 ≤ 2 ^ n / 2 then [.unpkh] else []) out = unpackOuter A (2 ^ n / 2) out := by
  rw [runOps_cons]
  unfold unpackOuter
  by_cases h2 : 2 ≤ 2 ^ n / 2
  · rw [if_pos h2, runOps_cons, runOps_nil, microOp, microOp]
    simp only [pointAt_even, if_pos h2, pointOf_setPoint]
    rw [← Nat.mul_zero 2, pointOf_setPoint, if_neg (by omega), if_neg (by omega)]
  · rw [if_neg h2, runOps_nil]
    simp only [if_neg h2]
    rfl

/-- The unpacker's steps in place do what they do over the snapshot (R203). -/
theorem runOps_unpackOps :
    runOps A perm tw n ne dir inp (unpackOps n) out = seqUnpack A tw (2 ^ n / 2) out := by
  rw [unpackOps, runOps_append, List.singleton_append, runOps_outer, runOps_map, seqUnpack_eq]
  simp only [microOp_unpkp]
  exact loop_congr_of_invariant (PairsKept (2 ^ n / 2) out) (pairsKept_unpackOuter A _ out)
    fun k a hk h => unpackPair_inPlace A tw hk h

end

/-! ### Lengths and counts -/

theorem length_flatMap_of_forall {β γ : Type} {l : List β} {f : β → List γ} {c : Nat} (h : ∀ b ∈ l, (f b).length = c) :
    (l.flatMap f).length = l.length * c := by
  rw [List.length_flatMap, List.sum_eq_card_nsmul _ c (by simpa using h), List.length_map, smul_eq_mul]

/-- A sequence of micro-operations of one kind. -/
theorem countOps_of_forall {ops : List MicroOp} {c : OpCount} (h : ∀ op ∈ ops, op.count = c) :
    countOps ops = ⟨ops.length * c.adds, ops.length * c.muls, ops.length * c.divs⟩ := by
  induction ops with
  | nil => simp [countOps]
  | cons op ops ih =>
    rw [countOps, ih fun op' hop' => h op' (List.mem_cons_of_mem op hop'), h op List.mem_cons_self, List.length_cons]
    simp only [Nat.add_one_mul, Nat.add_comm]

theorem countOps_map_range {f : Nat → MicroOp} {c : OpCount} (m : Nat) (h : ∀ i, (f i).count = c) :
    countOps ((List.range m).map f) = ⟨m * c.adds, m * c.muls, m * c.divs⟩ := by
  rw [countOps_of_forall (c := c), List.length_map, List.length_range]
  intro op hop
  obtain ⟨i, -, rfl⟩ := List.mem_map.1 hop
  exact h i

/-- The base steps of an engine's list (R162). -/
def baseOps (ne : Nat) : List MicroOp :=
  (List.range (groups ne)).map fun t => if basePoints ne = 2 then .base2 t else .base4 t

/-- The combine butterflies of an engine's list (R166, R168). -/
def combineOps (n ne : Nat) : List MicroOp :=
  (List.range (passes ne)).flatMap fun q =>
    (List.range (2 * 2 ^ ne / (2 * blockPoints ne (q + 1)))).flatMap fun u =>
      (List.range (blockPoints ne (q + 1) / 4)).map fun j =>
        .r4bfly (u * (2 * blockPoints ne (q + 1)) + 2 * j) (2 * blockPoints ne (q + 1) / 4)
          (j * (2 * 2 ^ n / blockPoints ne (q + 1)))

theorem engineOps_eq (n : Nat) {ne : Nat} (h1 : 1 ≤ ne) : engineOps n ne = baseOps ne ++ combineOps n ne :=
  if_neg (Nat.one_le_iff_ne_zero.1 h1)

theorem length_baseOps (ne : Nat) : (baseOps ne).length = groups ne := by
  rw [baseOps, List.length_map, List.length_range]

/-- Each pass has a quarter as many butterflies as points (R166). -/
theorem length_combineOps (n : Nat) {ne : Nat} (h1 : 1 ≤ ne) : (combineOps n ne).length = passes ne * (2 ^ ne / 4) := by
  rw [combineOps, length_flatMap_of_forall (c := 2 ^ ne / 4), List.length_range]
  intro q hq
  have hblocks := blockPoints_dvd h1 (List.mem_range.1 hq)
  rw [length_flatMap_of_forall (c := blockPoints ne (q + 1) / 4) (by simp), List.length_range,
    Nat.mul_div_mul_left _ _ Nat.two_pos, ← Nat.mul_div_assoc _ ⟨_, blockPoints_succ ne q⟩, Nat.div_mul_cancel hblocks]

theorem countOps_baseOps (ne : Nat) :
    countOps (baseOps ne) = ⟨groups ne * (if ne % 2 = 1 then 4 else 16), 0, 0⟩ := by
  refine countOps_map_range (c := ⟨if ne % 2 = 1 then 4 else 16, 0, 0⟩) (groups ne) fun t => ?_
  obtain heven | hodd := Nat.mod_two_eq_zero_or_one ne
  · simp [basePoints, baseBits, heven, MicroOp.count]
  · simp [basePoints, baseBits, hodd, MicroOp.count]

theorem countOps_combineOps (n : Nat) {ne : Nat} (h1 : 1 ≤ ne) :
    countOps (combineOps n ne) = ⟨passes ne * (2 ^ ne / 4) * 22, passes ne * (2 ^ ne / 4) * 12, 0⟩ := by
  have hkind : ∀ op ∈ combineOps n ne, op.count = ⟨22, 12, 0⟩ := by
    intro op hop
    simp only [combineOps, List.mem_flatMap, List.mem_map] at hop
    obtain ⟨q, -, u, -, j, -, rfl⟩ := hop
    rfl
  rw [countOps_of_forall hkind, length_combineOps n h1]
  rfl

/-- The operations and steps of an engine (R293). -/
theorem countOps_engineOps (n : Nat) {ne : Nat} (h1 : 1 ≤ ne) :
    countOps (engineOps n ne) =
      ⟨groups ne * (if ne % 2 = 1 then 4 else 16) + passes ne * (2 ^ ne / 4) * 22, passes ne * (2 ^ ne / 4) * 12, 0⟩ := by
  rw [engineOps_eq n h1, countOps_append, countOps_baseOps, countOps_combineOps n h1]
  simp

theorem length_engineOps (n : Nat) {ne : Nat} (h1 : 1 ≤ ne) :
    (engineOps n ne).length = groups ne + passes ne * (2 ^ ne / 4) := by
  rw [engineOps_eq n h1, List.length_append, length_baseOps, length_combineOps n h1]

/-- An engine divides nothing. -/
theorem countOps_engineOps_divs (n ne : Nat) : (countOps (engineOps n ne)).divs = 0 := by
  obtain rfl | h1 : ne = 0 ∨ 1 ≤ ne := by omega
  · rfl
  · rw [countOps_engineOps n h1]

/-! ### SCALE, the unpacker and the mirror -/

theorem length_unpackOps (n : Nat) :
    (unpackOps n).length = 1 + (if 4 ≤ 2 ^ n then 1 else 0) + (2 ^ n / 4 - 1) := by
  have hcond : 2 ≤ 2 ^ n / 2 ↔ 4 ≤ 2 ^ n := by omega
  rw [unpackOps, List.length_append, List.length_append, List.length_map, List.length_range, Nat.div_div_eq_div_mul]
  simp only [hcond, apply_ite List.length, List.length_singleton, List.length_nil]

theorem countOps_unpackOps (n : Nat) : countOps (unpackOps n) = ⟨2 + (2 ^ n / 4 - 1) * 10, (2 ^ n / 4 - 1) * 8, 0⟩ := by
  have hpairs : countOps ((List.range (2 ^ n / 4 - 1)).map fun i => .unpkp (i + 1)) = _ :=
    countOps_map_range (c := ⟨10, 8, 0⟩) _ fun i => rfl
  rw [unpackOps, countOps_append, countOps_append, Nat.div_div_eq_div_mul, hpairs]
  split <;> simp [countOps, MicroOp.count]

/-- `UNPK0` occurs once, and `UNPKH` exactly when `N >= 4` (R204, R205). -/
theorem count_unpackOps (n : Nat) :
    (unpackOps n).count .unpk0 = 1 ∧ (unpackOps n).count .unpkh = if 4 ≤ 2 ^ n then 1 else 0 := by
  have hcond : 2 ≤ 2 ^ n / 2 ↔ 4 ≤ 2 ^ n := by omega
  have hpairs : ∀ op, (∀ k, op ≠ .unpkp k) →
      ((List.range (2 ^ n / 2 / 2 - 1)).map fun i => MicroOp.unpkp (i + 1)).count op = 0 := by
    intro op hop
    refine List.count_eq_zero.2 fun hmem => ?_
    obtain ⟨i, -, hi⟩ := List.mem_map.1 hmem
    exact hop _ hi.symm
  rw [unpackOps, List.count_append, List.count_append, List.count_append, List.count_append, hpairs _ (by simp),
    hpairs _ (by simp)]
  simp only [hcond]
  split <;> simp

theorem count_engineOps_unpack (n ne : Nat) :
    (engineOps n ne).count .unpk0 = 0 ∧ (engineOps n ne).count .unpkh = 0 := by
  have hnot : ∀ op ∈ engineOps n ne, op ≠ .unpk0 ∧ op ≠ .unpkh := by
    intro op hop
    obtain ⟨-, rfl⟩ | ⟨-, t, -, rfl⟩ | ⟨-, q, u, j, -, -, -, rfl⟩ := mem_engineOps hop
    · simp
    · split <;> simp
    · simp
  exact ⟨List.count_eq_zero.2 fun h => (hnot _ h).1 rfl, List.count_eq_zero.2 fun h => (hnot _ h).2 rfl⟩

end Sys2Proof
end

section
/-! SUPPORT. The statements about the sequencer and its micro-operations, each settled from the facts above. -/

namespace Sys2Proof

/-- Settles O52: a turn of a loop writes the points of one butterfly and reads no point that another turn has written. -/
theorem sequencerRefinesEngine : Obligations.SequencerRefinesEngine := fun _ A perm tw inp out n _ dir i hne =>
  seqEngine_eq A perm dir tw n hne inp out i

/-- Settles O56: what one micro-operation reads and writes, point by point. -/
theorem indicesStayInRange : Obligations.IndicesStayInRange := by
  intro n ne hne
  refine ⟨fun t h => ?_, fun a quarter k h => r4bfly_offsets_lt hne h, ?_, ?_⟩
  · obtain h | h := h
    · exact base_group_lt h (.inl rfl)
    · exact base_group_lt h (.inr rfl)
  · intro α A perm tw tw' inp inp' out out' dir op hop hperm htw hio
    refine ⟨fun i hi => eq_of_pointOf_eq ?_, fun i hi => eq_of_pointOf_eq ?_⟩
    · exact pointOf_microOp_congr A perm dir n hne hop hperm (fun k => pointOf_congr htw)
        (fun k => pointOf_congr fun i hi => (hio i hi).1) (fun k => pointOf_congr fun i hi => (hio i hi).2) (by omega)
    · exact pointOf_microOp_outside A perm dir tw n hne hop inp out (by omega)
  · exact fun α A perm perm' rom rom' x x' dir hperm hrom hx i hi => engine_congr A dir n hne hperm hrom hx hi

/-- Settles O55: the lists run as the loops they are built like, the unpacker's steps find their points unwritten, and each
part of a list is of one kind. -/
theorem microOperationsOfCommands : Obligations.MicroOperationsOfCommands := by
  refine ⟨fun n d r d' r' => ⟨rfl, rfl, rfl, rfl, rfl⟩, fun α A perm tw inp out n d r hn => ?_,
    fun n ne h1 _ => ⟨length_engineOps n h1, countOps_engineOps n h1⟩, fun n d r hn => ?_⟩
  · refine ⟨runOps_engineOps .., ?_, ?_, fun ne dir => ?_, fun ne dir => runOps_engineOps ..⟩
    · rw [microOps, runOps_append, runOps_engineOps, runOps_map]
      rfl
    · rw [microOps, runOps_append, runOps_engineOps, runOps_unpackOps]
    · rw [microOps, runOps_map]
      rfl
  · obtain ⟨h0, hh⟩ := count_unpackOps n
    obtain ⟨h0', hh'⟩ := count_engineOps_unpack n (n - 1)
    refine ⟨rfl, rfl, ?_, ?_, ?_, ?_, ?_, ?_, ?_, ?_⟩
    · rw [microOps, List.length_append, List.length_map, List.length_range]
    · rw [microOps, countOps_append, countOps_map_range (c := ⟨0, 0, 1⟩) _ fun _ => rfl, countOps_engineOps_divs]
      simp
    · rw [microOps, List.length_append, length_unpackOps, Nat.add_assoc, Nat.add_assoc, Nat.add_assoc]
    · rw [microOps, List.count_append, h0, h0']
    · rw [microOps, List.count_append, hh, hh', Nat.zero_add]
    · rw [microOps, countOps_append, countOps_unpackOps, countOps_engineOps_divs, Nat.add_assoc]
      rfl
    · rw [microOps, List.length_map, List.length_range]
    · exact countOps_map_range (c := ⟨0, 0, 0⟩) _ fun _ => rfl

end Sys2Proof
end

section
/-! SUPPORT. The discrete Fourier transform as a sum of powers of a root of unity, its splitting by the residue of the index
modulo 4, and the engine's passes as its partial sums (R160, R173, R174). -/

namespace Sys2Proof
open Claims

/-! ### Roots of unity and the sums of R160 -/

/-- `e^(-2 pi i / l)` forward, `e^(2 pi i / l)` inverse (R160). -/
noncomputable def unitRoot (dir : Direction) (l : Nat) : ℂ := Complex.exp (expSign dir * (2 * Real.pi * Complex.I / l))

/-- The unnormalised transform of `l` points in a direction (R160). -/
noncomputable def dftSum (dir : Direction) (l : Nat) (f : Nat → ℂ) (k : Nat) : ℂ :=
  ∑ m ∈ Finset.range l, f m * unitRoot dir l ^ (m * k)

section
variable (dir : Direction)

theorem unitRoot_pow (l k : Nat) : unitRoot dir l ^ k = Complex.exp (expSign dir * (2 * Real.pi * Complex.I * k / l)) := by
  rw [unitRoot, ← Complex.exp_nat_mul]
  congr 1
  ring

theorem unitRoot_mul_pow {c : Nat} (hc : c ≠ 0) (l : Nat) : unitRoot dir (c * l) ^ c = unitRoot dir l := by
  have hc' : (c : ℂ) ≠ 0 := Nat.cast_ne_zero.2 hc
  rw [unitRoot_pow, unitRoot, Nat.cast_mul, mul_comm _ (c : ℂ), mul_div_mul_left _ _ hc']

theorem unitRoot_one : unitRoot dir 1 = 1 := by
  have hperiod : Complex.exp (2 * Real.pi * Complex.I) = 1 := Complex.exp_two_pi_mul_I
  cases dir <;> simp [unitRoot, expSign, Complex.exp_neg, hperiod]

theorem unitRoot_pow_self {l : Nat} (hl : l ≠ 0) : unitRoot dir l ^ l = 1 := by
  rw [← unitRoot_one dir, ← unitRoot_mul_pow dir hl 1, Nat.mul_one]

theorem unitRoot_four : unitRoot dir 4 = expSign dir * Complex.I := by
  have hquarter : (2 * Real.pi * Complex.I / (4 : Nat) : ℂ) = Real.pi / 2 * Complex.I := by push_cast; ring
  cases dir
  · rw [unitRoot, hquarter, expSign, neg_one_mul, ← neg_mul, ← neg_div, Complex.exp_neg_pi_div_two_mul_I,
      neg_one_mul]
  · rw [unitRoot, hquarter, expSign, one_mul, one_mul, Complex.exp_pi_div_two_mul_I]

theorem unitRoot_two : unitRoot dir 2 = -1 := by
  rw [← unitRoot_mul_pow dir (c := 2) (by decide) 2, unitRoot_four]
  cases dir <;> simp [expSign]

theorem dftSum_congr {l : Nat} {f g : Nat → ℂ} (k : Nat) (h : ∀ m, m < l → f m = g m) :
    dftSum dir l f k = dftSum dir l g k :=
  Finset.sum_congr rfl fun m hm => by rw [h m (Finset.mem_range.1 hm)]

theorem dftSum_two (f : Nat → ℂ) : dftSum dir 2 f 0 = f 0 + f 1 ∧ dftSum dir 2 f 1 = f 0 - f 1 := by
  constructor <;> simp [dftSum, Finset.sum_range_succ, unitRoot_two, sub_eq_add_neg]

theorem dftSum_four (f : Nat → ℂ) (r : Nat) :
    dftSum dir 4 f r = f 0 + (expSign dir * Complex.I) ^ r * f 1 + (expSign dir * Complex.I) ^ (2 * r) * f 2 +
      (expSign dir * Complex.I) ^ (3 * r) * f 3 := by
  simp [dftSum, Finset.sum_range_succ, unitRoot_four, mul_comm]

/-- A sum over `4g` indices, residue by residue. -/
theorem sum_range_four_mul (F : Nat → ℂ) (g : Nat) :
    ∑ i ∈ Finset.range (4 * g), F i = ∑ s ∈ Finset.range 4, ∑ m ∈ Finset.range g, F (4 * m + s) := by
  induction g with
  | zero => simp
  | succ g ih =>
    rw [Nat.mul_succ, Finset.sum_range_add, ih]
    simp only [Finset.sum_range_succ _ g, Finset.sum_add_distrib]

/-- The radix-4 step: bin `rg + j` of a transform of `4g` points from bin `j` of the four transforms of the points of one residue
(R174). -/
theorem dftSum_four_mul {g : Nat} (hg : g ≠ 0) (f : Nat → ℂ) (r j : Nat) :
    dftSum dir (4 * g) f (r * g + j) = ∑ s ∈ Finset.range 4, (expSign dir * Complex.I) ^ (s * r) *
      (unitRoot dir (4 * g) ^ (s * j) * dftSum dir g (fun m => f (4 * m + s)) j) := by
  have hfull : unitRoot dir (4 * g) ^ (4 * g) = 1 := unitRoot_pow_self dir (by omega)
  have hsub : unitRoot dir (4 * g) ^ 4 = unitRoot dir g := unitRoot_mul_pow dir (by decide) g
  have hquarter : unitRoot dir (4 * g) ^ g = expSign dir * Complex.I := by
    rw [Nat.mul_comm, unitRoot_mul_pow dir hg, unitRoot_four]
  rw [dftSum, sum_range_four_mul]
  refine Finset.sum_congr rfl fun s _ => ?_
  rw [dftSum, Finset.mul_sum, Finset.mul_sum]
  refine Finset.sum_congr rfl fun m _ => ?_
  have hexp : (4 * m + s) * (r * g + j) = 4 * g * (m * r) + g * (s * r) + s * j + 4 * (m * j) := by ring
  rw [hexp, pow_add, pow_add, pow_add, pow_mul _ (4 * g), hfull, one_pow, pow_mul _ g, hquarter, pow_mul _ 4, hsub]
  ring

end

/-! ### The passes -/

section
variable {n ne : Nat} {perm : Nat → Nat} {rom : Nat → Cplx ℝ} (dir : Direction) (x : Nat → Cplx ℝ)

/-- The points of block `u` after pass `q`: a transform of the input points at the block's offset and stride (R174). -/
noncomputable def blockInput (ne q u : Nat) (x : Nat → Cplx ℝ) (m : Nat) : ℂ :=
  toComplex (x (rev4 (passes ne - q) u + m * 4 ^ (passes ne - q)))

/-- Block `4u + s` before a pass takes every fourth point of block `u` after it, from the `s`-th on. -/
theorem blockInput_split {q : Nat} (hq : q < passes ne) (u : Nat) {s : Nat} (hs : s < 4) (m : Nat) :
    blockInput ne q (4 * u + s) x m = blockInput ne (q + 1) u x (4 * m + s) := by
  obtain ⟨p, hp⟩ : ∃ p, passes ne - (q + 1) = p := ⟨_, rfl⟩
  rw [blockInput, blockInput, hp, show passes ne - q = p + 1 by omega, rev4_block p u s hs, pow_succ]
  congr 2
  ring

theorem basePass_exact (hperm : Reverses ne perm) {t r : Nat} (ht : t < groups ne) (hr : r < basePoints ne) :
    toComplex (basePass (exactArith ℝ) perm ne dir x (t * basePoints ne + r)) =
      dftSum dir (basePoints ne) (blockInput ne 0 t x) r := by
  have hinput : ∀ m, blockInput ne 0 t x m = toComplex (x (perm t + m * groups ne)) := fun m => by
    rw [hperm t ht]; rfl
  have h0 := hinput 0
  have h1 := hinput 1
  rw [Nat.zero_mul, Nat.add_zero] at h0
  rw [Nat.one_mul] at h1
  rw [Nat.mul_comm]
  obtain hb | hb := baseBits_cases ne
  · obtain ⟨hsum, hdiff⟩ := basePass_two (exactArith ℝ) perm dir x hb t
    obtain ⟨hbin0, hbin1⟩ := dftSum_two dir (blockInput ne 0 t x)
    rw [basePoints_of_baseBits_one hb] at hr ⊢
    interval_cases r
    · rw [Nat.add_zero, hsum, toComplex_cadd, hbin0, h0, h1]
    · rw [hdiff, toComplex_csub, hbin1, h0, h1]
  · rw [basePoints_of_baseBits_two hb] at hr ⊢
    rw [basePass_four _ perm dir x hb t hr, bfly4_exact dir _ _ _ _ hr, dftSum_four, h0, h1, hinput 2, hinput 3]

/-- The twiddle of a butterfly as a power of the block's root of unity (R105, R166). -/
theorem twiddle_unitRoot (hrom : ExactRom n rom) {l : Nat} (hdvd : l ∣ 2 ^ n) {s j : Nat} (h : s * (j * (2 ^ n / l)) < 2 ^ n) :
    toComplex (twiddle (exactArith ℝ) dir (rom (s * (j * (2 ^ n / l))))) = unitRoot dir l ^ (s * j) := by
  obtain ⟨c, hc⟩ := hdvd
  have hpos : 0 < l * c := hc ▸ Nat.two_pow_pos n
  have hl : 0 < l := Nat.pos_of_mul_pos_right hpos
  have hc0 : (c : ℂ) ≠ 0 := Nat.cast_ne_zero.2 (Nat.pos_of_mul_pos_left hpos).ne'
  have hstep : 2 ^ n / l = c := by rw [hc, Nat.mul_div_cancel_left _ hl]
  have hsize : (2 ^ n : ℂ) = l * c := by exact_mod_cast hc
  rw [twiddle_exact hrom dir h, unitRoot_pow, hstep, hsize]
  congr 2
  push_cast
  rw [← mul_assoc (s : ℂ), ← mul_assoc _ ((s : ℂ) * j), mul_div_mul_right _ _ hc0]

theorem r4bfly_exact (hrom : ExactRom n rom) {q j : Nat} (hdvd : blockPoints ne (q + 1) ∣ 2 ^ n) (hj : j < blockPoints ne q)
    (a b c d : Cplx ℝ) {r : Nat} (hr : r < 4) :
    toComplex (quadAt (r4bfly (exactArith ℝ) rom dir (j * (2 ^ n / blockPoints ne (q + 1))) a b c d) r) =
      toComplex a + (expSign dir * Complex.I) ^ r * (toComplex b * unitRoot dir (blockPoints ne (q + 1)) ^ j) +
        (expSign dir * Complex.I) ^ (2 * r) * (toComplex c * unitRoot dir (blockPoints ne (q + 1)) ^ (2 * j)) +
        (expSign dir * Complex.I) ^ (3 * r) * (toComplex d * unitRoot dir (blockPoints ne (q + 1)) ^ (3 * j)) := by
  have htwiddle : ∀ s, s < 4 → _ := fun s hs => twiddle_unitRoot dir hrom hdvd (romIndex_lt hdvd hj hs)
  have h1 := htwiddle 1 (by decide)
  rw [Nat.one_mul, Nat.one_mul] at h1
  rw [r4bfly, bfly4_exact dir _ _ _ _ hr, toComplex_cmul, toComplex_cmul, toComplex_cmul, h1, htwiddle 2 (by decide),
    htwiddle 3 (by decide)]

/-- A combine pass makes the transform of a block's input points from those of its four quarters (R174). -/
theorem combinePass_exact (h1 : 1 ≤ ne) (hne : ne ≤ n) (hrom : ExactRom n rom) {q u : Nat} (hq : q < passes ne)
    {y : Nat → Cplx ℝ}
    (hy : ∀ s j, s < 4 → j < blockPoints ne q → toComplex (y ((4 * u + s) * blockPoints ne q + j)) =
      dftSum dir (blockPoints ne q) (blockInput ne q (4 * u + s) x) j) {j : Nat} (hj : j < blockPoints ne (q + 1)) :
    toComplex (combinePass (exactArith ℝ) rom n ne (q + 1) dir y (u * blockPoints ne (q + 1) + j)) =
      dftSum dir (blockPoints ne (q + 1)) (blockInput ne (q + 1) u x) j := by
  have hdvd := (blockPoints_dvd h1 (q := q + 1) hq).trans (Nat.pow_dvd_pow 2 hne)
  have hg := blockPoints_pos ne q
  have hl := blockPoints_succ ne q
  have hpos := Nat.mod_lt j hg
  obtain ⟨r, hr, hbin⟩ : ∃ r, r < 4 ∧ j = r * blockPoints ne q + j % blockPoints ne q :=
    ⟨j / blockPoints ne q, Nat.div_lt_of_lt_mul (by omega), (Nat.div_add_mod' ..).symm⟩
  have hquarter : ∀ s, s < 4 → toComplex (y (u * blockPoints ne (q + 1) + j % blockPoints ne q + s * blockPoints ne q)) =
      dftSum dir (blockPoints ne q) (fun m => blockInput ne (q + 1) u x (4 * m + s)) (j % blockPoints ne q) := by
    intro s hs
    have hoffset : u * blockPoints ne (q + 1) + j % blockPoints ne q + s * blockPoints ne q =
        (4 * u + s) * blockPoints ne q + j % blockPoints ne q := by rw [hl]; ring
    rw [hoffset, hy s _ hs hpos]
    exact dftSum_congr dir _ fun m _ => blockInput_split x hq u hs m
  have hq0 := hquarter 0 (by decide)
  have hq1 := hquarter 1 (by decide)
  rw [Nat.zero_mul, Nat.add_zero] at hq0
  rw [Nat.one_mul] at hq1
  rw [hbin, ← Nat.add_assoc, combinePass_at _ rom n ne _ dir _ rfl hl hr hpos,
    r4bfly_exact dir hrom hdvd hpos _ _ _ _ hr, hq0, hq1, hquarter 2 (by decide), hquarter 3 (by decide), hl,
    dftSum_four_mul dir hg.ne']
  simp only [Finset.sum_range_succ, Finset.sum_range_zero, Nat.zero_mul, Nat.one_mul, pow_zero]
  ring

/-- After pass `q`, each block holds the transform of its input points. -/
theorem combinePasses_exact (h1 : 1 ≤ ne) (hne : ne ≤ n) (hrom : ExactRom n rom) (hperm : Reverses ne perm) {q : Nat}
    (hq : q ≤ passes ne) {u j : Nat} (hu : u < 4 ^ (passes ne - q)) (hj : j < blockPoints ne q) :
    toComplex (combinePasses (exactArith ℝ) rom n ne dir (basePass (exactArith ℝ) perm ne dir x) q
      (u * blockPoints ne q + j)) = dftSum dir (blockPoints ne q) (blockInput ne q u x) j := by
  induction q generalizing u j with
  | zero =>
    rw [blockPoints_zero] at hj ⊢
    exact basePass_exact dir x hperm hu hj
  | succ q ih =>
    have hblocks : 4 ^ (passes ne - q) = 4 * 4 ^ (passes ne - (q + 1)) := by
      rw [← pow_succ']; congr 1; omega
    exact combinePass_exact dir x h1 hne hrom hq (fun s j hs => ih (Nat.le_of_succ_le hq) (by omega)) hj

/-- The engine computes the transform of R160 in exact arithmetic (R173). -/
theorem engine_exact (hne : ne ≤ n) (hrom : ExactRom n rom) (hperm : Reverses ne perm) {k : Nat} (hk : k < 2 ^ ne) :
    toComplex (engine (exactArith ℝ) perm rom n ne dir x k) = dftSum dir (2 ^ ne) (fun m => toComplex (x m)) k := by
  by_cases h0 : ne = 0
  · subst h0
    obtain rfl : k = 0 := by rw [Nat.pow_zero] at hk; omega
    rw [engine_zero]
    simp [dftSum]
  · have h1 : 1 ≤ ne := Nat.one_le_iff_ne_zero.2 h0
    have hinput : blockInput ne (passes ne) 0 x = fun m => toComplex (x m) := by
      funext m
      simp [blockInput]
    have hpass := combinePasses_exact dir x h1 hne hrom hperm le_rfl (u := 0) (j := k) (Nat.pow_pos (by decide))
      (by rwa [blockPoints_passes h1])
    rw [Nat.zero_mul, Nat.zero_add, hinput, blockPoints_passes h1] at hpass
    rw [engine, if_neg h0, hpass]

end

/-! ### The inverse transform -/

theorem unitRoot_forward (l : Nat) : unitRoot .forward l = (unitRoot .inverse l)⁻¹ := by
  rw [unitRoot, unitRoot, ← Complex.exp_neg, expSign, expSign, neg_one_mul, one_mul]

/-- Orthogonality of the powers of the root of unity. -/
theorem sum_unitRoot {l k m : Nat} (hm : m < l) (hk : k < l) :
    ∑ i ∈ Finset.range l, (unitRoot .inverse l ^ k * (unitRoot .inverse l ^ m)⁻¹) ^ i =
      if m = k then (l : ℂ) else 0 := by
  have hl : l ≠ 0 := by omega
  have hprim : IsPrimitiveRoot (unitRoot .inverse l) l := by
    rw [unitRoot, expSign, one_mul]
    exact Complex.isPrimitiveRoot_exp l hl
  have hne : unitRoot .inverse l ^ m ≠ 0 := pow_ne_zero _ (hprim.ne_zero hl)
  split
  next h => rw [h, mul_inv_cancel₀ (h ▸ hne)]; simp
  next h =>
    have hratio : unitRoot .inverse l ^ k * (unitRoot .inverse l ^ m)⁻¹ ≠ 1 := fun h1 =>
      h (hprim.pow_inj hm hk ((mul_inv_eq_one₀ hne).1 h1).symm)
    rw [geom_sum_eq hratio, mul_pow, inv_pow, ← pow_mul, ← pow_mul, Nat.mul_comm k, Nat.mul_comm m, pow_mul, pow_mul,
      hprim.pow_eq_one]
    simp

/-- The inverse transform of the forward transform is `N` times the points. -/
theorem dftSum_inverse_forward {l : Nat} (f : Nat → ℂ) {k : Nat} (hk : k < l) :
    dftSum .inverse l (dftSum .forward l f) k = l * f k := by
  calc dftSum .inverse l (dftSum .forward l f) k
    _ = ∑ m ∈ Finset.range l, f m *
        ∑ i ∈ Finset.range l, (unitRoot .inverse l ^ k * (unitRoot .inverse l ^ m)⁻¹) ^ i := by
      simp only [dftSum, Finset.sum_mul, Finset.mul_sum]
      rw [Finset.sum_comm]
      refine Finset.sum_congr rfl fun m _ => Finset.sum_congr rfl fun i _ => ?_
      rw [unitRoot_forward, mul_pow, inv_pow, inv_pow, ← pow_mul, ← pow_mul, Nat.mul_comm k i]
      ring
    _ = ∑ m ∈ Finset.range l, if m = k then l * f k else 0 := by
      refine Finset.sum_congr rfl fun m hm => ?_
      rw [sum_unitRoot (Finset.mem_range.1 hm) hk]
      split
      next h => rw [h, mul_comm]
      next => rw [mul_zero]
    _ = l * f k := by
      rw [Finset.sum_ite_eq' , if_pos (Finset.mem_range.2 hk)]

theorem toComplex_injective : Function.Injective toComplex := by
  rintro ⟨re, im⟩ ⟨re', im'⟩ h
  obtain ⟨hre, him⟩ : re = re' ∧ im = im' := by simpa [toComplex] using h
  rw [hre, him]

theorem toComplex_scale (n : Nat) (x : Nat → Cplx ℝ) (k : Nat) :
    toComplex (scale (exactArith ℝ) n x k) = toComplex (x k) / 2 ^ n := by
  have hcast : (2 ^ n : ℂ) = ((2 ^ n : ℝ) : ℂ) := by push_cast; rfl
  rw [hcast]
  apply Complex.ext
  · rw [Complex.div_ofReal_re]; rfl
  · rw [Complex.div_ofReal_im]; rfl

end Sys2Proof
end

section
/-! SUPPORT. The exactness laws of the engine, each settled from the facts above. -/

namespace Sys2Proof
open Claims

/-- Settles O57: pass by pass, each block holds the transform of its input points. -/
theorem engineComputesDft : Obligations.EngineComputesDft := by
  intro n ne perm rom x hne hrom hperm k hk
  have hsum : ∀ dir, toComplex (engine (exactArith ℝ) perm rom n ne dir x k) = ∑ m ∈ Finset.range (2 ^ ne),
      toComplex (x m) * Complex.exp (expSign dir * (2 * Real.pi * Complex.I * m * k / 2 ^ ne)) := by
    intro dir
    rw [engine_exact dir x hne hrom hperm hk, dftSum]
    refine Finset.sum_congr rfl fun m _ => ?_
    rw [unitRoot_pow, Nat.cast_mul, Nat.cast_pow, Nat.cast_ofNat, mul_assoc _ (m : ℂ)]
  have hforward := hsum .forward
  have hinverse := hsum .inverse
  simp only [expSign, neg_one_mul, one_mul] at hforward hinverse
  exact ⟨hforward, hinverse⟩

/-- Settles O58: the two transforms give `N` times each point, and scaling divides by `N`. -/
theorem inverseUndoesForward : Obligations.InverseUndoesForward := by
  intro n perm rom x hrom hperm k hk
  apply toComplex_injective
  calc toComplex (scale (exactArith ℝ) n (engine (exactArith ℝ) perm rom n n .inverse
        (engine (exactArith ℝ) perm rom n n .forward x)) k)
    _ = dftSum .inverse (2 ^ n) (fun m => toComplex (engine (exactArith ℝ) perm rom n n .forward x m)) k / 2 ^ n := by
      rw [toComplex_scale, engine_exact .inverse _ le_rfl hrom hperm hk]
    _ = dftSum .inverse (2 ^ n) (dftSum .forward (2 ^ n) fun m => toComplex (x m)) k / 2 ^ n := by
      rw [dftSum_congr .inverse k fun m hm => engine_exact .forward x le_rfl hrom hperm hm]
    _ = toComplex (x k) := by
      rw [dftSum_inverse_forward _ hk, Nat.cast_pow, Nat.cast_ofNat, mul_div_cancel_left₀ _ (pow_ne_zero n two_ne_zero)]

end Sys2Proof
end

section
/-! SUPPORT. The unpacker bin by bin, the mirror pair by pair, and what RFFT and CSPEC leave in their buffer (R201 to R211). -/

namespace Sys2Proof

/-! ### The unpacker's inner bins (R205, R206) -/

section
variable {α : Type} (A : Arith α) (rom z : Nat → Cplx α) {m k : Nat}

theorem unpack_middle (h0 : k ≠ 0) (hk : 2 * k = m) : unpack A rom m z k = unpkh A (z k) := by
  rw [unpack, if_neg h0, if_neg (by omega), if_pos hk]

theorem unpack_low (h0 : k ≠ 0) (hk : 2 * k < m) : unpack A rom m z k = (unpkp A (rom k) (z k) (z (m - k))).1 := by
  rw [unpack, if_neg h0, if_neg (by omega), if_neg hk.ne, if_pos hk]

/-- The upper bin of a pair comes from the same step as the lower one (R206). -/
theorem unpack_high (h0 : k ≠ 0) (hk : 2 * k < m) :
    unpack A rom m z (m - k) = (unpkp A (rom k) (z k) (z (m - k))).2 := by
  rw [unpack, if_neg (by omega), if_neg (by omega), if_neg (by omega), if_neg (by omega), Nat.sub_sub_self (by omega)]

/-- A bin below `M` is the middle one, lies below it, or is the upper bin of a pair. -/
theorem bin_cases (hk : k < m) :
    2 * k = m ∨ 2 * k < m ∨ ∃ j, j ≠ 0 ∧ 2 * j < m ∧ k = m - j := by
  obtain hlt | heq | hgt := Nat.lt_trichotomy (2 * k) m
  · exact .inr (.inl hlt)
  · exact .inl heq
  · exact .inr (.inr ⟨m - k, by omega, by omega, by omega⟩)

end

/-! ### The mirrored words (R211) -/

theorem two_mul_half_two_pow {n : Nat} (hn : 1 ≤ n) : 2 * (2 ^ n / 2) = 2 ^ n :=
  Nat.mul_div_cancel' (dvd_pow_self 2 (by omega))

theorem mirrorWords_getElem? {n i : Nat} (ws : List Word) (hi : i < 2 ^ n - 2) :
    (mirrorWords n ws)[i]? =
      some (if i % 2 = 0 then ws.getD (2 * (2 ^ n / 2 - 2 - i / 2) + i % 2) 0#64
        else negWord (ws.getD (2 * (2 ^ n / 2 - 2 - i / 2) + i % 2) 0#64)) := by
  rw [mirrorWords, List.getElem?_map, List.getElem?_range hi, Option.map_some]

/-- The two words stored for bin `N - k` come from the two words read of bin `k`. -/
theorem mirrorWords_pair {n k : Nat} (ws : List Word) (h1 : 1 ≤ k) (hk : k < 2 ^ n / 2) :
    (mirrorWords n ws)[2 * (2 ^ n / 2 - 1 - k)]? = some (ws.getD (2 * (k - 1)) 0#64) ∧
    (mirrorWords n ws)[2 * (2 ^ n / 2 - 1 - k) + 1]? = some (negWord (ws.getD (2 * (k - 1) + 1) 0#64)) := by
  obtain ⟨j, hj⟩ : ∃ j, 2 ^ n / 2 - 1 - k = j := ⟨_, rfl⟩
  have hbin : 2 ^ n / 2 - 2 - j = k - 1 := by omega
  rw [hj, mirrorWords_getElem? ws (by omega), mirrorWords_getElem? ws (by omega), Nat.mul_mod_right,
    Nat.mul_div_cancel_left j Nat.two_pos, show (2 * j + 1) % 2 = 1 by omega, show (2 * j + 1) / 2 = j by omega, hbin]
  exact ⟨rfl, rfl⟩

/-! ### The passes of the half-size engine (R202) -/

/-- The half-size engine has as many passes as the full-size one, or one fewer (R202). -/
theorem passes_pred {n : Nat} (hn : 2 ≤ n) :
    passes (n - 1) = passes n ∨ 1 ≤ passes n ∧ passes (n - 1) = passes n - 1 := by
  have hfull := baseBits_add_passes (ne := n) (by omega)
  have hhalf := baseBits_add_passes (ne := n - 1) (by omega)
  obtain hb | hb := baseBits_cases n <;> obtain hb' | hb' := baseBits_cases (n - 1) <;> omega

end Sys2Proof

namespace Sys2Proof.Machine
open Claims

/-! ### RFFT (R201, R207) -/

section
variable {s t : State} {d r : BufNo}

theorem size_eq_of_registersKept (h : RegistersKept s t) : t.size = s.size := by
  obtain ⟨-, hcfg, -⟩ := h
  rw [State.size, State.size, State.logN, State.logN, hcfg]

theorem two_mul_half_size (hn : 1 ≤ s.logN) : 2 * (s.size / 2) = s.size := two_mul_half_two_pow hn

theorem isSome_of_holds {i : Nat} {v : F64} (h : Holds t d i v) : (bufWord t d i).isSome = true := by
  obtain ⟨draw, hword⟩ := h
  rw [hword, Option.isSome_some]

/-- Storing the unpacker's bins leaves `+0.0` in the imaginary words of bins 0 and `M` (R204). -/
theorem bufWord_unpack_outer_im (A : Arith F64) (hzero : A.zero = F64.zero) (rom z : Nat → Cplx F64) {m k : Nat}
    (hm : m ≠ 0) (hk : 2 * m + 1 < k) :
    bufWord (complete (storeResults d (wordsOf (unpack A rom m z) k) s)) d 1 = some 0#64 ∧
    bufWord (complete (storeResults d (wordsOf (unpack A rom m z) k) s)) d (2 * m + 1) = some 0#64 := by
  obtain ⟨-, hfirst⟩ := holds_wordsOf_point s d (unpack A rom m z) (k := k) (m := 0) (by omega)
  obtain ⟨-, hlast⟩ := holds_wordsOf_point s d (unpack A rom m z) (k := k) (m := m) hk
  rw [unpack_first, unpk0, hzero] at hfirst
  rw [unpack_last A rom z hm, unpk0, hzero] at hlast
  exact ⟨bufWord_of_holds_zero hfirst, bufWord_of_holds_zero hlast⟩

/-- An RFFT that answers a next state has read its source, so all of it was written (R39, R289). -/
theorem written_of_execRfft (hbuf : TwoBuffers s d r) (h : exec (.rfft d r) s = .next t) : Written s r 0 s.size := by
  intro j _ hj
  by_contra hnone
  rw [execRfft_eq, outOfPlace_unwritten _ hbuf (Option.not_isSome_iff_eq_none.1 hnone) (by omega)] at h
  cases h

end

/-! ### CSPEC (R210, R211) -/

section
variable {s : State} {d : BufNo} (hn : 1 ≤ s.logN)
include hn

theorem bufWord_mirror_kept (ws : List Word) {i : Nat} (hi : i < s.size + 2) :
    bufWord (complete (writeBuf d (s.size + 2) (mirrorWords s.logN ws) s)) d i = bufWord s d i := by
  have hlen : (mirrorWords s.logN ws).length = s.size - 2 := mirrorWords_length ..
  have hsize := two_le_size hn
  obtain hin | hout : i < 2 * s.size ∨ s.size - 2 = 0 := by omega
  · exact bufWord_writeBuf_other s (by omega) hin (.inr (.inl hi))
  · rw [List.length_eq_zero_iff.1 (hlen.trans hout)]
    rfl

/-- Bin `N - k` after CSPEC is bin `k` as it was read, with the sign bit of the imaginary word inverted. -/
theorem bufWord_mirror_pair {ws : List Word} (hread : readBuf s d 2 (s.size - 2) = some ws) {k : Nat} (h1 : 1 ≤ k)
    (hk : k < s.size / 2) :
    ∃ re im, bufWord s d (2 * k) = some re ∧ bufWord s d (2 * k + 1) = some im ∧
      bufWord (complete (writeBuf d (s.size + 2) (mirrorWords s.logN ws) s)) d (2 * (s.size - k)) = some re ∧
      bufWord (complete (writeBuf d (s.size + 2) (mirrorWords s.logN ws) s)) d (2 * (s.size - k) + 1) =
        some (negWord im) := by
  obtain ⟨hlen, hword⟩ := readBuf_eq_some.1 hread
  have heven := two_mul_half_size hn
  have hre := hword (2 * (k - 1)) (by omega)
  have him := hword (2 * (k - 1) + 1) (by omega)
  have hoffset : 2 * (s.size - k) = s.size + 2 + 2 * (s.size / 2 - 1 - k) := by omega
  rw [show 2 + 2 * (k - 1) = 2 * k by omega, List.getElem?_eq_getElem (by omega)] at hre
  rw [show 2 + (2 * (k - 1) + 1) = 2 * k + 1 by omega, List.getElem?_eq_getElem (by omega)] at him
  obtain ⟨hmre, hmim⟩ := mirrorWords_pair ws h1 hk
  rw [List.getD_eq_getElem _ _ (by omega)] at hmre hmim
  obtain ⟨hlt, hmre⟩ := List.getElem?_eq_some_iff.1 hmre
  obtain ⟨hlt', hmim⟩ := List.getElem?_eq_some_iff.1 hmim
  refine ⟨_, _, hre, him, ?_, ?_⟩
  · rw [hoffset, ← hmre]
    exact bufWord_writeBuf s hlt
  · rw [hoffset, Nat.add_assoc, ← hmim]
    exact bufWord_writeBuf s hlt'

end

/-! ### The permuter (R202) -/

theorem permIndex_eq {s : State} (hs : s.Inv) (ne : Nat) {t : Nat} (ht : t < groups s.logN) :
    permIndex s ne t = rev4 (passes s.logN) t >>> (2 * (passes s.logN - passes ne)) := by
  rw [permIndex, hs.br_const, List.getD_eq_getElem?_getD, reversalTable_getElem? ht, Option.getD_some]

end Sys2Proof.Machine
end

section
/-! SUPPORT. The loops of the unpacker, of SCALE and of CSPEC: the points each turn has written (R172, R203 to R206, R210, R211). -/

namespace Sys2Proof

section
variable {α : Type}

/-- An array whose first `c` points are those of `x`, and whose other points are those of `out`, word by word. -/
theorem eq_wordOf_of_pointOf_eq {a out : Nat → α} {x : Nat → Cplx α} {c : Nat}
    (h : ∀ k, pointOf a k = if k < c then x k else pointOf out k) (i : Nat) :
    a i = if i < 2 * c then wordOf x i else out i := by
  have hpoint := h (i / 2)
  by_cases hi : i < 2 * c
  · rw [if_pos (by omega)] at hpoint
    rw [if_pos hi, ← wordOf_pointOf a, wordOf_congr hpoint]
  · rw [if_neg (by omega)] at hpoint
    rw [if_neg hi, eq_of_pointOf_eq hpoint]

/-! ### The unpacker (R203) -/

section
variable (A : Arith α) (tw : Nat → α) {m : Nat} (z : Nat → α)

/-- `UNPK0` and `UNPKH` write the bins 0, `M` and `M/2` (R204, R205). -/
theorem pointOf_unpackOuter (h1 : 1 ≤ m) (heven : 2 ≤ m → 2 * (m / 2) = m) (k : Nat) :
    pointOf (unpackOuter A m z) k =
      if k = 0 ∨ k = m ∨ 2 * k = m then unpack A (pointOf tw) m (pointOf z) k else pointOf z k := by
  have hbins : ∀ k, pointOf (setPoint (setPoint z 0 (unpk0 A (pointAt z 0)).1) (2 * m) (unpk0 A (pointAt z 0)).2) k =
      if k = 0 ∨ k = m then unpack A (pointOf tw) m (pointOf z) k else pointOf z k := by
    intro k
    rw [pointOf_setPoint, ← Nat.mul_zero 2, pointOf_setPoint, pointAt_even]
    by_cases hm : k = m
    · rw [if_pos hm, if_pos (.inr hm), hm, unpack_last A _ _ (by omega)]
    by_cases h0 : k = 0
    · rw [if_neg hm, if_pos h0, if_pos (.inl h0), h0, unpack_first]
    · rw [if_neg hm, if_neg h0, if_neg (by omega)]
  unfold unpackOuter
  split
  next h2 =>
    rw [pointOf_setPoint, hbins, pointAt_even]
    by_cases hmid : k = m / 2
    · rw [if_pos hmid, if_pos (by omega), hmid, unpack_middle A _ _ (by omega) (heven h2)]
    · rw [if_neg hmid]
      exact if_congr (by omega) rfl rfl
  next h2 =>
    rw [hbins]
    exact if_congr (by omega) rfl rfl

/-- `UNPKP` of bin `i + 1` writes that bin and bin `M - (i + 1)` (R206). -/
theorem pointOf_unpackPair {i : Nat} (hi : i < m / 2 - 1) (out : Nat → α) (k : Nat) :
    pointOf (unpackPair A tw m z i out) k =
      if k = i + 1 ∨ k = m - (i + 1) then unpack A (pointOf tw) m (pointOf z) k else pointOf out k := by
  have hlow := unpack_low A (pointOf tw) (pointOf z) (m := m) (Nat.succ_ne_zero i) (by omega)
  have hhigh := unpack_high A (pointOf tw) (pointOf z) (m := m) (Nat.succ_ne_zero i) (by omega)
  rw [unpackPair, pointOf_setPoint, pointOf_setPoint, pointAt_even, pointAt_even, pointAt_even]
  by_cases hk : k = m - (i + 1)
  · rw [if_pos hk, if_pos (.inr hk), hk, hhigh]
  by_cases hk' : k = i + 1
  · rw [if_neg hk, if_pos hk', if_pos (.inl hk'), hk', hlow]
  · rw [if_neg hk, if_neg hk', if_neg (by omega)]

/-- The bins that the first `j` pairs of the unpacker's loop write. -/
abbrev InPairs (m j k : Nat) : Prop := (0 < k ∧ k ≤ j) ∨ (k < m ∧ m ≤ k + j)

theorem pointOf_seqUnpack (h1 : 1 ≤ m) (heven : 2 ≤ m → 2 * (m / 2) = m) (k : Nat) :
    pointOf (seqUnpack A tw m z) k =
      if k < m + 1 then unpack A (pointOf tw) m (pointOf z) k else pointOf z k := by
  have hpairs : pointOf (seqUnpack A tw m z) k = if InPairs m (m / 2 - 1) k then
      unpack A (pointOf tw) m (pointOf z) k else pointOf (unpackOuter A m z) k := by
    rw [seqUnpack_eq]
    refine loop_induction (fun j a => ∀ k, pointOf a k = if InPairs m j k then
      unpack A (pointOf tw) m (pointOf z) k else pointOf (unpackOuter A m z) k)
      (fun k => (if_neg (by omega)).symm) (fun j a hj ih k => ?_) k
    rw [pointOf_unpackPair A tw z hj, ih]
    by_cases hk : k = j + 1 ∨ k = m - (j + 1)
    · rw [if_pos hk, if_pos (by omega)]
    · rw [if_neg hk]
      exact if_congr (by omega) rfl rfl
  rw [hpairs, pointOf_unpackOuter A tw z h1 heven]
  by_cases hin : InPairs m (m / 2 - 1) k
  · rw [if_pos hin, if_pos (by omega)]
  · rw [if_neg hin]
    exact if_congr (by omega) rfl rfl

end

/-- The unpacker's loop leaves the `M + 1` bins in words `0 .. 2M + 1` and what was there elsewhere (R203). -/
theorem seqUnpack_two_pow_eq (A : Arith α) (tw out : Nat → α) (n i : Nat) :
    seqUnpack A tw (2 ^ n) out i =
      if i < 2 * 2 ^ n + 2 then wordOf (unpack A (pointOf tw) (2 ^ n) (pointOf out)) i else out i := by
  have heven : 2 ≤ 2 ^ n → 2 * (2 ^ n / 2) = 2 ^ n := by
    intro h2
    exact two_mul_half_two_pow (Nat.one_le_iff_ne_zero.2 (by rintro rfl; simp at h2))
  exact eq_wordOf_of_pointOf_eq (pointOf_seqUnpack A tw out Nat.one_le_two_pow heven) i

/-! ### SCALE (R172) -/

/-- A loop whose turn `i` rewrites word `i` rewrites each word below its bound once. -/
theorem loop_setWord_eq (f : α → α) (m : Nat) (out : Nat → α) (i : Nat) :
    loop m (fun i a => setWord a i (f (a i))) out i = if i < m then f (out i) else out i := by
  refine loop_induction (fun j a => ∀ i, a i = if i < j then f (out i) else out i)
    (fun i => (if_neg (Nat.not_lt_zero i)).symm) (fun j a _ ih i => ?_) i
  by_cases hi : i = j
  · rw [hi, setWord_same, ih, if_neg (lt_irrefl j), if_pos (Nat.lt_succ_self j)]
  · rw [setWord_other _ _ hi, ih]
    exact if_congr (by omega) rfl rfl

theorem seqScale_eq (A : Arith α) (n : Nat) (out : Nat → α) (i : Nat) :
    seqScale A n out i = if i < 2 * 2 ^ n then wordOf (scale A n (pointOf out)) i else out i := by
  rw [seqScale, loop_setWord_eq (fun v => A.div v (A.pow2 n)), Machine.wordOf_scale, wordOf_pointOf]

/-! ### The MIRROR loop (R210, R211) -/

section
variable (neg : α → α)

/-- Bin `N - k` as `MIRROR` makes it from bin `k` (R211). -/
def mirrorPoint (z : Cplx α) : Cplx α := ⟨z.re, neg z.im⟩

/-- Turn `i` of the loop of CSPEC: `MIRROR` of bin `i + 1` (R210, R211). -/
def mirrorStep (n i : Nat) (out : Nat → α) : Nat → α :=
  setPoint out (2 * (2 ^ n - (i + 1))) (mirrorPoint neg (pointOf out (i + 1)))

/-- The real word that a turn stores first is none that it reads afterwards. -/
theorem seqMirror_step (n : Nat) (out : Nat → α) :
    seqMirror neg n out = loop (2 ^ n / 2 - 1) (mirrorStep neg n) out := by
  refine loop_congr out fun i a _ => ?_
  simp only [mirrorStep, mirrorPoint, setPoint, pointOf]
  rw [setWord_other a (i := 2 * (2 ^ n - (i + 1))) (j := 2 * (i + 1) + 1) _ (by omega)]

theorem pointOf_seqMirror (n : Nat) (out : Nat → α) (k : Nat) :
    pointOf (seqMirror neg n out) k =
      if k < 2 ^ n ∧ 2 ^ n ≤ k + (2 ^ n / 2 - 1) then mirrorPoint neg (pointOf out (2 ^ n - k)) else pointOf out k := by
  rw [seqMirror_step]
  refine loop_induction (fun j a => ∀ k, pointOf a k = if k < 2 ^ n ∧ 2 ^ n ≤ k + j then
    mirrorPoint neg (pointOf out (2 ^ n - k)) else pointOf out k) (fun k => (if_neg (by omega)).symm)
    (fun j a hj ih k => ?_) k
  have hsource : pointOf a (j + 1) = pointOf out (j + 1) := by rw [ih, if_neg (by omega)]
  rw [mirrorStep, pointOf_setPoint, hsource, ih]
  by_cases hk : k = 2 ^ n - (j + 1)
  · rw [if_pos hk, if_pos (by omega), hk, Nat.sub_sub_self (by omega)]
  · rw [if_neg hk]
    exact if_congr (by omega) rfl rfl

end

/-- The words read by CSPEC, as a list, give bin `k` back. -/
theorem getD_map_range_offset (out : Nat → Word) {m i : Nat} (hi : i < m) :
    ((List.range m).map fun j => out (j + 2)).getD i 0#64 = out (i + 2) := by
  rw [List.getD_eq_getElem?_getD, List.getElem?_map, List.getElem?_range hi, Option.map_some, Option.getD_some]

theorem mirrorWords_getD (out : Nat → Word) {n i : Nat} (hn : 1 ≤ n) (hlo : 2 ^ n + 2 ≤ i) (hhi : i < 2 * 2 ^ n) :
    (mirrorWords n ((List.range (2 ^ n - 2)).map fun j => out (j + 2))).getD (i - (2 ^ n + 2)) 0#64 =
      wordOf (fun k => mirrorPoint negWord (pointOf out (2 ^ n - k))) i := by
  have heven := two_mul_half_two_pow hn
  obtain ⟨k, hk⟩ : ∃ k, 2 ^ n - i / 2 = k := ⟨_, rfl⟩
  obtain ⟨hre, him⟩ := mirrorWords_pair (n := n) (k := k) ((List.range (2 ^ n - 2)).map fun j => out (j + 2))
    (by omega) (by omega)
  rw [getD_map_range_offset out (by omega)] at hre him
  rw [List.getD_eq_getElem?_getD]
  obtain hi | hi : i = 2 * (2 ^ n - k) ∨ i = 2 * (2 ^ n - k) + 1 := by omega
  · rw [show i - (2 ^ n + 2) = 2 * (2 ^ n / 2 - 1 - k) by omega, hre, hi, wordOf_even, Nat.sub_sub_self (by omega),
      show 2 * (k - 1) + 2 = 2 * k by omega]
    rfl
  · rw [show i - (2 ^ n + 2) = 2 * (2 ^ n / 2 - 1 - k) + 1 by omega, him, hi, wordOf_odd, Nat.sub_sub_self (by omega),
      show 2 * (k - 1) + 1 + 2 = 2 * k + 1 by omega]
    rfl

theorem seqMirror_eq (out : Nat → Word) {n : Nat} (hn : 1 ≤ n) (i : Nat) :
    seqMirror negWord n out i =
      if 2 ^ n + 2 ≤ i ∧ i < 2 * 2 ^ n then
        (mirrorWords n ((List.range (2 ^ n - 2)).map fun j => out (j + 2))).getD (i - (2 ^ n + 2)) 0#64
      else out i := by
  have heven := two_mul_half_two_pow hn
  have hpoint := pointOf_seqMirror negWord n out (i / 2)
  by_cases hi : 2 ^ n + 2 ≤ i ∧ i < 2 * 2 ^ n
  · obtain ⟨hlo, hhi⟩ := hi
    rw [if_pos (by omega)] at hpoint
    rw [if_pos ⟨hlo, hhi⟩, mirrorWords_getD out hn hlo hhi, ← wordOf_pointOf (seqMirror negWord n out)]
    exact wordOf_congr hpoint
  · rw [if_neg (by omega)] at hpoint
    rw [if_neg hi, eq_of_pointOf_eq hpoint]

end

end Sys2Proof
end

section
/-! SUPPORT. The transform of a real signal from the transforms of its even and odd samples, and the unpacker in exact arithmetic
(R201, R204 to R206, R208). -/

namespace Sys2Proof
open Claims
open scoped ComplexConjugate

/-! ### Even and odd samples -/

/-- A sum over `2l` indices, even and odd ones apart. -/
theorem sum_range_two_mul (F : Nat → ℂ) (l : Nat) :
    ∑ i ∈ Finset.range (2 * l), F i = ∑ m ∈ Finset.range l, F (2 * m) + ∑ m ∈ Finset.range l, F (2 * m + 1) := by
  induction l with
  | zero => simp
  | succ l ih =>
    rw [Nat.mul_succ, Finset.sum_range_add, ih]
    simp only [Finset.sum_range_succ _ l, Finset.sum_range_succ _ 1, Finset.sum_range_one, Nat.add_zero]
    ring

section
variable (dir : Direction)

theorem unitRoot_two_mul_pow_half {l : Nat} (hl : l ≠ 0) : unitRoot dir (2 * l) ^ l = -1 := by
  rw [Nat.mul_comm, unitRoot_mul_pow dir hl, unitRoot_two]

/-- The radix-2 step: a bin of a transform of `2l` points from the same bin of the transforms of the even and the odd points. -/
theorem dftSum_two_mul (l : Nat) (f : Nat → ℂ) (k : Nat) :
    dftSum dir (2 * l) f k = dftSum dir l (fun m => f (2 * m)) k +
      unitRoot dir (2 * l) ^ k * dftSum dir l (fun m => f (2 * m + 1)) k := by
  have hsub : unitRoot dir (2 * l) ^ 2 = unitRoot dir l := unitRoot_mul_pow dir (by decide) l
  rw [dftSum, sum_range_two_mul, dftSum, dftSum, Finset.mul_sum]
  congr 1 <;> refine Finset.sum_congr rfl fun m _ => ?_
  · rw [Nat.mul_assoc, pow_mul, hsub]
  · rw [show (2 * m + 1) * k = k + 2 * (m * k) by ring, pow_add, pow_mul _ 2, hsub]
    ring

theorem dftSum_add_period {l : Nat} (hl : l ≠ 0) (f : Nat → ℂ) (k : Nat) : dftSum dir l f (l + k) = dftSum dir l f k := by
  refine Finset.sum_congr rfl fun m _ => ?_
  rw [Nat.mul_add, pow_add, Nat.mul_comm m l, pow_mul, unitRoot_pow_self dir hl, one_pow, one_mul]

/-- Bin `l + k` of a transform of `2l` points takes the odd points with the opposite sign. -/
theorem dftSum_two_mul_upper {l : Nat} (hl : l ≠ 0) (f : Nat → ℂ) (k : Nat) :
    dftSum dir (2 * l) f (l + k) = dftSum dir l (fun m => f (2 * m)) k -
      unitRoot dir (2 * l) ^ k * dftSum dir l (fun m => f (2 * m + 1)) k := by
  rw [dftSum_two_mul, dftSum_add_period dir hl, dftSum_add_period dir hl, pow_add, unitRoot_two_mul_pow_half dir hl,
    neg_one_mul, neg_mul, sub_eq_add_neg]

theorem dftSum_add_I_mul (l : Nat) (f g : Nat → ℂ) (k : Nat) :
    dftSum dir l (fun m => f m + Complex.I * g m) k = dftSum dir l f k + Complex.I * dftSum dir l g k := by
  rw [dftSum, dftSum, dftSum, Finset.mul_sum, ← Finset.sum_add_distrib]
  exact Finset.sum_congr rfl fun m _ => by ring

/-! ### Real signals -/

theorem conj_unitRoot (l : Nat) : conj (unitRoot dir l) = (unitRoot dir l)⁻¹ := by
  rw [unitRoot, ← Complex.exp_conj, ← Complex.exp_neg]
  congr 1
  cases dir <;> simp [expSign, neg_div, map_ofNat]

/-- The transform of a real signal is conjugate-symmetric (R212). -/
theorem conj_dftSum_ofReal {l : Nat} (hl : l ≠ 0) (x : Nat → ℝ) {k : Nat} (hk : k ≤ l) :
    conj (dftSum dir l (fun m => (x m : ℂ)) k) = dftSum dir l (fun m => (x m : ℂ)) (l - k) := by
  rw [dftSum, dftSum, map_sum]
  refine Finset.sum_congr rfl fun m _ => ?_
  have hinv : unitRoot dir l ^ (m * (l - k)) * unitRoot dir l ^ (m * k) = 1 := by
    rw [← pow_add, ← Nat.mul_add, Nat.sub_add_cancel hk, Nat.mul_comm, pow_mul, unitRoot_pow_self dir hl, one_pow]
  rw [map_mul, Complex.conj_ofReal, map_pow, conj_unitRoot, inv_pow, eq_inv_of_mul_eq_one_left hinv]

end

/-! ### The unpacker's steps as complex numbers -/

@[simp] theorem toComplex_re (z : Cplx ℝ) : (toComplex z).re = z.re := rfl

@[simp] theorem toComplex_im (z : Cplx ℝ) : (toComplex z).im = z.im := rfl

section
variable {w zk zmk : Cplx ℝ} {e o : ℂ}

theorem parts_of_packed (hk : toComplex zk = e + Complex.I * o) : zk.re = e.re - o.im ∧ zk.im = e.im + o.re :=
  ⟨by simpa [sub_eq_add_neg] using congrArg Complex.re hk, by simpa using congrArg Complex.im hk⟩

theorem parts_of_conj_packed (hmk : conj (toComplex zmk) = e - Complex.I * o) :
    zmk.re = e.re + o.im ∧ zmk.im = o.re - e.im := by
  have him : -zmk.im = e.im - o.re := by simpa using congrArg Complex.im hmk
  exact ⟨by simpa using congrArg Complex.re hmk, by linarith⟩

/-- `UNPK0` takes `Z[0] = e + i o` apart, `e` and `o` being real (R204). -/
theorem toComplex_unpk0 (hk : toComplex zk = e + Complex.I * o) (hconj : conj (toComplex zk) = e - Complex.I * o) :
    toComplex (unpk0 (exactArith ℝ) zk).1 = e + o ∧ toComplex (unpk0 (exactArith ℝ) zk).2 = e - o := by
  obtain ⟨hre, him⟩ := parts_of_packed hk
  obtain ⟨hre', him'⟩ := parts_of_conj_packed hconj
  have ho : o.im = 0 := by linarith
  have he : e.im = 0 := by linarith
  constructor <;> apply Complex.ext <;> simp [unpk0, exactArith, hre, him, ho, he]

/-- `UNPKP` takes apart `Z[k] = e + i o` and `Z[M-k]`, the conjugate of `e - i o`, and turns `o` by the twiddle (R206). -/
theorem toComplex_unpkp (hk : toComplex zk = e + Complex.I * o) (hmk : conj (toComplex zmk) = e - Complex.I * o) :
    toComplex (unpkp (exactArith ℝ) w zk zmk).1 = e + toComplex w * o ∧
    toComplex (unpkp (exactArith ℝ) w zk zmk).2 = conj (e - toComplex w * o) := by
  obtain ⟨hre, him⟩ := parts_of_packed hk
  obtain ⟨hre', him'⟩ := parts_of_conj_packed hmk
  constructor <;> apply Complex.ext <;> simp [unpkp, cmul, exactArith, hre, him, hre', him'] <;> ring

end

/-! ### The bins of a real signal (R208) -/

/-- Bin `k` of the transform of the `l` even samples. -/
noncomputable def evenBin (l : Nat) (x : Nat → ℝ) (k : Nat) : ℂ := dftSum .forward l (fun m => (x (2 * m) : ℂ)) k

/-- Bin `k` of the transform of the `l` odd samples. -/
noncomputable def oddBin (l : Nat) (x : Nat → ℝ) (k : Nat) : ℂ := dftSum .forward l (fun m => (x (2 * m + 1) : ℂ)) k

/-- The packed samples are the even ones with the odd ones as imaginary parts (R201). -/
theorem toComplex_pointOf (x : Nat → ℝ) (m : Nat) :
    toComplex (pointOf x m) = (x (2 * m) : ℂ) + Complex.I * (x (2 * m + 1) : ℂ) := by
  rw [mul_comm Complex.I]
  exact Complex.mk_eq_add_mul_I _ _

section
variable {l : Nat} (hl : l ≠ 0) (x : Nat → ℝ) {z rom : Nat → Cplx ℝ}
include hl

/-- Bin `l - k` of a real signal of `2l` samples, from bin `k` of its halves. -/
theorem dftSum_real_mirrored {k : Nat} (hk : k ≤ l) :
    dftSum .forward (2 * l) (fun m => (x m : ℂ)) (l - k) =
      conj (evenBin l x k - unitRoot .forward (2 * l) ^ k * oddBin l x k) := by
  rw [evenBin, oddBin, ← dftSum_two_mul_upper .forward hl (fun m => (x m : ℂ)),
    conj_dftSum_ofReal .forward (by omega) x (by omega)]
  congr 1
  omega

variable (hz : ∀ k, k < l → toComplex (z k) = evenBin l x k + Complex.I * oddBin l x k)
include hz

theorem conj_packedBin {k : Nat} (h0 : k ≠ 0) (hk : k ≤ l) :
    conj (toComplex (z (l - k))) = evenBin l x k - Complex.I * oddBin l x k := by
  have heven := conj_dftSum_ofReal .forward hl (fun m => x (2 * m)) (Nat.sub_le l k)
  have hodd := conj_dftSum_ofReal .forward hl (fun m => x (2 * m + 1)) (Nat.sub_le l k)
  rw [Nat.sub_sub_self hk] at heven hodd
  rw [hz _ (by omega), map_add, map_mul, Complex.conj_I, evenBin, oddBin, heven, hodd, neg_mul, ← sub_eq_add_neg]
  rfl

theorem conj_packedBin_zero : conj (toComplex (z 0)) = evenBin l x 0 - Complex.I * oddBin l x 0 := by
  have heven : evenBin l x l = evenBin l x 0 := dftSum_add_period .forward hl _ 0
  have hodd : oddBin l x l = oddBin l x 0 := dftSum_add_period .forward hl _ 0
  rw [← heven, ← hodd, ← conj_packedBin hl x hz hl le_rfl, Nat.sub_self]

/-- In exact arithmetic the unpacker makes the bins of a real signal from those of its packed samples. -/
theorem unpack_exact (hrom : ∀ k, k < l → toComplex (rom k) = unitRoot .forward (2 * l) ^ k) {k : Nat} (hk : k ≤ l) :
    toComplex (unpack (exactArith ℝ) rom l z k) = dftSum .forward (2 * l) (fun m => (x m : ℂ)) k := by
  have hlower : ∀ k, dftSum .forward (2 * l) (fun m => (x m : ℂ)) k =
      evenBin l x k + unitRoot .forward (2 * l) ^ k * oddBin l x k := dftSum_two_mul .forward l _
  obtain ⟨hfirst, hlast⟩ := toComplex_unpk0 (hz 0 (by omega)) (conj_packedBin_zero hl x hz)
  obtain rfl | h0 := eq_or_ne k 0
  · rw [unpack_first, hlower, pow_zero, one_mul, hfirst]
  obtain rfl | hkl := eq_or_ne k l
  · have hupper := dftSum_two_mul_upper .forward hl (fun m => (x m : ℂ)) 0
    rw [Nat.add_zero, pow_zero, one_mul] at hupper
    rw [unpack_last _ rom z hl, hlast, hupper]
    rfl
  obtain hmid | hlow | ⟨j, hj0, hj, rfl⟩ := bin_cases (show k < l by omega)
  · have hquarter : unitRoot .forward (2 * l) ^ k = -Complex.I := by
      rw [show 2 * l = k * 4 by omega, unitRoot_mul_pow _ h0, unitRoot_four, expSign, neg_one_mul]
    have hconj := conj_packedBin hl x hz h0 hk
    rw [show l - k = k by omega] at hconj
    rw [unpack_middle _ rom z h0 hmid, unpkh, toComplex_cconj, hlower, hquarter, hconj, neg_mul, ← sub_eq_add_neg]
  · obtain ⟨hbin, -⟩ := toComplex_unpkp (w := rom k) (hz k (by omega)) (conj_packedBin hl x hz h0 hk)
    rw [unpack_low _ rom z h0 hlow, hbin, hlower, hrom k (by omega)]
  · obtain ⟨-, hbin⟩ := toComplex_unpkp (w := rom j) (hz j (by omega)) (conj_packedBin hl x hz hj0 (by omega))
    rw [unpack_high _ rom z hj0 hj, hbin, dftSum_real_mirrored hl x (by omega), hrom j (by omega)]

end

/-- The sum of R160 in a forward transform of `2^n` points. -/
theorem dftSum_forward_two_pow (n : Nat) (f : Nat → ℂ) (k : Nat) :
    dftSum .forward (2 ^ n) f k =
      ∑ m ∈ Finset.range (2 ^ n), f m * Complex.exp (-(2 * Real.pi * Complex.I * m * k / 2 ^ n)) := by
  refine Finset.sum_congr rfl fun m _ => ?_
  rw [unitRoot_pow, expSign, neg_one_mul, Nat.cast_mul, Nat.cast_pow, Nat.cast_ofNat, mul_assoc _ (m : ℂ)]

theorem toComplex_rom {n : Nat} {rom : Nat → Cplx ℝ} (hrom : ExactRom n rom) {k : Nat} (hk : k < 2 ^ n) :
    toComplex (rom k) = unitRoot .forward (2 ^ n) ^ k := by
  rw [unitRoot_pow, Nat.cast_pow, Nat.cast_ofNat]
  exact twiddle_exact hrom .forward hk

/-- The half-size engine on the packed samples holds the bins of the even and of the odd samples (R201). -/
theorem engine_packed {n ne : Nat} {perm : Nat → Nat} {rom : Nat → Cplx ℝ} (x : Nat → ℝ) (hne : ne ≤ n)
    (hrom : ExactRom n rom) (hperm : Reverses ne perm) {k : Nat} (hk : k < 2 ^ ne) :
    toComplex (engine (exactArith ℝ) perm rom n ne .forward (pointOf x) k) =
      evenBin (2 ^ ne) x k + Complex.I * oddBin (2 ^ ne) x k := by
  rw [engine_exact .forward _ hne hrom hperm hk, dftSum_congr .forward k fun m _ => toComplex_pointOf x m]
  exact dftSum_add_I_mul .forward _ _ _ _

end Sys2Proof
end

section
/-! SUPPORT. The statements about the real path, each settled from the facts above. -/

namespace Sys2Proof.Machine
open Claims

/-- Settles O43: the half-size engine has the same groups, or drops the lowest digit of a reversal of one digit more. -/
theorem permuterServesBothEngines : Obligations.PermuterServesBothEngines := by
  refine fun s hs => ⟨fun t ht => ?_, fun hn t ht => ?_⟩
  · rw [permIndex_eq hs _ ht, Nat.sub_self]
    rfl
  · obtain hsame | ⟨hpos, hfewer⟩ := passes_pred hn
    · rw [groups, hsame] at ht
      rw [permIndex_eq hs _ ht, hsame, Nat.sub_self]
      rfl
    · rw [groups, hfewer] at ht
      have hfull : t < groups s.logN := ht.trans_le (Nat.pow_le_pow_right (by decide) (Nat.sub_le ..))
      rw [permIndex_eq hs _ hfull, hfewer, Nat.sub_sub_self hpos, rev4Laws.2 _ t hpos ht]

/-- Settles O15: the words stored are the unpacked bins of the half-size engine. -/
theorem rfftCompletes : Obligations.RfftCompletes := by
  intro s d r hn hbuf hw
  obtain ⟨ws, hread, hword⟩ := readBuf_of_Written hw
  have hexec := execRfft_of_read hbuf hread
  have hsize := two_le_size hn
  have heven := two_mul_half_size hn
  obtain ⟨hfirst, hlast⟩ := bufWord_unpack_outer_im (s := s) (d := d) (f64Arith s.rm) rfl (romPair s)
    (runEngine s (s.logN - 1) .forward (pointsOf ws)) (m := s.size / 2) (k := s.size + 2) (by omega) (by omega)
  rw [heven] at hlast
  exact ⟨ws, _, hread, hword, hexec, exec_registersKept hexec, endCommand_statusEnds 0 rfl,
    fun i hi => holds_wordsOf s d (unpack (f64Arith s.rm) (romPair s) (s.size / 2)
      (runEngine s (s.logN - 1) .forward (pointsOf ws))) hi,
    hfirst, hlast,
    fun i hlo hhi => bufWord_storeResults_other s (by rw [rfftWords_length]; omega) hhi
      (.inr (by rwa [rfftWords_length]))⟩

/-- Settles O16: the mirror words are stored pair by pair above word `N + 1`. -/
theorem cspecCompletes : Obligations.CspecCompletes := by
  intro s d hn hd hw
  obtain ⟨ws, hread⟩ := readBuf_of_written (s := s) (b := d) (i := 2) (k := s.size - 2)
    fun j hj => hw (2 + j) (by omega) (by omega)
  have hexec := execCspec_of_read hd hread
  exact ⟨_, hexec, exec_registersKept hexec, endCommand_statusEnds 0 rfl,
    fun k h1 hk => bufWord_mirror_pair hn hread h1 hk, fun i hi => bufWord_mirror_kept hn ws hi⟩

/-- Settles O21: RFFT writes words `0 .. N+1` (O15), CSPEC keeps those and writes the others from them (O16). -/
theorem completedSpectrumIsSymmetric : Obligations.CompletedSpectrumIsSymmetric := by
  intro s t u d r hn hdr hd hr hrfft hcspec
  have hbuf : TwoBuffers s d r := ⟨hd, hr, hdr⟩
  obtain ⟨ws, t', -, -, hexec, hregs, -, hbins, hfirst, hlast, -⟩ :=
    rfftCompletes s d r hn hbuf (written_of_execRfft hbuf hrfft)
  obtain rfl : t' = t := by rw [hexec] at hrfft; exact Host.Outcome.next.inj hrfft
  have hsize := size_eq_of_registersKept hregs
  have hwritten : ∀ i, i < s.size + 2 → (bufWord t' d i).isSome = true := fun i hi => isSome_of_holds (hbins i hi)
  obtain ⟨-, hcfg, -⟩ := hregs
  obtain ⟨u', hexec', -, -, hmirror, hkept⟩ := cspecCompletes t' d
    (by rwa [State.logN, hcfg]) (by rwa [State.nbuf, hcfg]) fun j _ hj => hwritten j (by omega)
  obtain rfl : u' = u := by rw [hexec'] at hcspec; exact Host.Outcome.next.inj hcspec
  rw [hsize] at hmirror hkept
  have heven := two_mul_half_size hn
  have hpos := two_le_size hn
  refine ⟨by rw [hkept 1 (by omega), hfirst], by rw [hkept _ (by omega), hlast], fun i hi => ?_, fun k h1 hk => ?_⟩
  · by_cases hlow : i < s.size + 2
    · rw [hkept i hlow]
      exact hwritten i hlow
    · obtain ⟨re, im, -, -, hre, him⟩ := hmirror (s.size - i / 2) (by omega) (by omega)
      obtain hi' | hi' : i = 2 * (s.size - (s.size - i / 2)) ∨ i = 2 * (s.size - (s.size - i / 2)) + 1 := by omega
      · rw [hi', hre, Option.isSome_some]
      · rw [hi', him, Option.isSome_some]
  · obtain ⟨re, im, hre, him, hre', him'⟩ := hmirror k h1 hk
    rw [hre', him', hkept (2 * k) (by omega), hkept (2 * k + 1) (by omega), hre, him]
    exact ⟨rfl, rfl⟩

end Sys2Proof.Machine

namespace Sys2Proof
open Claims

/-- Settles O53: each turn of the unpacker writes the bins of one step over the snapshot, each turn of SCALE one word. -/
theorem sequencerRefinesUnpackAndScale : Obligations.SequencerRefinesUnpackAndScale := fun _ A tw out n i =>
  ⟨seqUnpack_two_pow_eq A tw out n i, seqScale_eq A n out i⟩

/-- Settles O54: each turn writes one bin from a bin below `N/2`, which no turn writes. -/
theorem sequencerRefinesMirror : Obligations.SequencerRefinesMirror := fun out _ i hn => seqMirror_eq out hn i

/-- Settles O59: the engine holds the bins of the packed samples (R173), and the unpacker takes them apart. -/
theorem realPathComputesDft : Obligations.RealPathComputesDft := by
  intro n perm rom x hn hrom hperm k hk
  have hhalf : 2 ^ n / 2 = 2 ^ (n - 1) := Nat.pow_div hn Nat.two_pos
  have hsize : 2 * 2 ^ (n - 1) = 2 ^ n := by rw [← hhalf, two_mul_half_two_pow hn]
  rw [hhalf] at hk ⊢
  rw [← dftSum_forward_two_pow, ← hsize]
  refine unpack_exact (Nat.two_pow_pos _).ne' x (fun k hk => engine_packed x (Nat.sub_le n 1) hrom hperm hk)
    (fun k hk => ?_) hk
  rw [hsize]
  exact toComplex_rom hrom (by omega)

end Sys2Proof
end

section
/-! SUPPORT. The host's `CMD` write and its `await` as steps of the machine, the word of NOP, and the lookups of the host's
two marshalling functions (R230, R233, R234). -/

namespace Sys2Proof.Machine

/-! ### A command issued and awaited by the host -/

section
variable {s : State} {l : List Turn}

/-- The `CMD` write of an idle block issues its word (R31). -/
theorem step_of_commandWrite {w : Reg} (hidle : s.busy = false) (h : s.turns = .host (.regWrite 8 4 w) :: l) :
    step s = .next (issue w { s with turns := l }) := by
  have hidle' : State.busy { s with turns := l } = false := hidle
  rw [step_of_host h, hostAct_cmdWrite, hidle']
  rfl

/-- While the block is busy, an `await` is the command in flight and stays in the list. -/
theorem step_of_busy_await (hbusy : s.busy = true) (h : s.turns = .await :: l) : step s = runCommand s := by
  rw [step_of_await h, if_pos hbusy, engineStep_of_busy hbusy]

end

theorem encode_nop : encode .nop = 0#32 := rfl

/-- The word 0 in flight completes (R230). -/
theorem runCommand_of_nopWord {s : State} (h : s.cmd = 0#32) : runCommand s = .next (complete s) := by
  have hdec : decode s.cmd = .ok .nop := by rw [h, ← encode_nop, decode_encode]
  rw [runCommand_of_decode hdec, execNop_eq]

/-- A host that awaits the word 0 in flight lets it complete. -/
theorem step_of_await_nopWord {s : State} {l : List Turn} (hbusy : s.busy = true) (hcmd : s.cmd = 0#32)
    (h : s.turns = .await :: l) : step s = .next (complete s) := by
  rw [step_of_busy_await hbusy h, runCommand_of_nopWord hcmd]

/-! ### Marshalling -/

theorem toComplexArray_length (x : List Word) : (toComplexArray x).length = 2 * x.length := by
  induction x with
  | nil => rfl
  | cons w x ih => rw [toComplexArray, List.length_cons, List.length_cons, ih, List.length_cons, Nat.mul_succ]

/-- The even-indexed words are the real parts, past the end too. -/
theorem toComplexArray_getElem?_even (x : List Word) (m : Nat) : (toComplexArray x)[2 * m]? = x[m]? := by
  induction x generalizing m with
  | nil => rfl
  | cons w x ih =>
    cases m with
    | zero => rfl
    | succ m => exact ih m

/-- The odd-indexed words are the imaginary parts, all `+0.0`. -/
theorem toComplexArray_getElem?_odd {x : List Word} {m : Nat} (hm : m < x.length) :
    (toComplexArray x)[2 * m + 1]? = some 0#64 := by
  induction x generalizing m with
  | nil => exact absurd hm (Nat.not_lt_zero m)
  | cons w x ih =>
    cases m with
    | zero => rfl
    | succ m => exact ih (Nat.lt_of_succ_lt_succ hm)

theorem fromComplexArray_length (z : List Word) : (fromComplexArray z).length = (z.length + 1) / 2 := by
  induction z using fromComplexArray.induct with
  | case1 => rfl
  | case2 w => simp [fromComplexArray]
  | case3 w v z ih =>
    rw [fromComplexArray, List.length_cons, List.length_cons, List.length_cons, ih]
    omega

/-- `fromComplexArray` takes the even-indexed words, of a list of odd length too. -/
theorem fromComplexArray_getElem? (z : List Word) (m : Nat) : (fromComplexArray z)[m]? = z[2 * m]? := by
  induction z using fromComplexArray.induct generalizing m with
  | case1 => rfl
  | case2 w =>
    cases m with
    | zero => rfl
    | succ m => rfl
  | case3 w v z ih =>
    cases m with
    | zero => rfl
    | succ m => exact ih m

theorem fromComplexArray_toComplexArray (x : List Word) : fromComplexArray (toComplexArray x) = x :=
  List.ext_getElem? fun m => by rw [fromComplexArray_getElem?, toComplexArray_getElem?_even]

end Sys2Proof.Machine
end

section
/-! SUPPORT. The statements about NOP and the host, each settled from the facts above. -/

namespace Sys2Proof.Machine

/-- Settles O11: the write issues NOP, which clears the code, and the `await` lets it complete; both give `STATUS` one value,
whichever of its five it held. -/
theorem nopClearsFaultCode : Obligations.NopClearsFaultCode := by
  intro s hs hidle hturns
  have hissued : (issue 0#32 { s with turns := [.await] }).status = 0x01#32 := putStatus_issue hs.status_value
  refine ⟨_, _, step_of_commandWrite hidle hturns, hissued, step_of_await_nopWord (issue_busy _ _) rfl rfl, ?_, rfl, rfl⟩
  rw [complete_status, hissued]
  decide

/-- Settles O12: NOP is the end of a command (R83) and no more. -/
theorem nopCompletes : Obligations.NopCompletes := fun s =>
  ⟨complete s, execNop_eq s, rfl, endCommand_statusEnds 0 rfl⟩

/-- Settles O60: both functions are read word by word, and the round trip takes back the even-indexed words. -/
theorem marshallingRoundTrip : Obligations.MarshallingRoundTrip := by
  refine ⟨fun x => ⟨fromComplexArray_toComplexArray x, toComplexArray_length x, fun m hm =>
    ⟨toComplexArray_getElem?_even x m, toComplexArray_getElem?_odd hm⟩⟩, fun z l hz => ⟨?_, fun m _ => ?_⟩⟩
  · rw [fromComplexArray_length, hz]
    omega
  · exact fromComplexArray_getElem? z m

end Sys2Proof.Machine
end

section
/-! SUPPORT. What a command does at each check of R84 (3) and (4), the step on a word that a check rejects, and the code with
which a command ends. -/

namespace Sys2Proof
open Claims

/-- A word that passes checks (1) to (3) of R84 is the word of a command whose buffers all exist. -/
theorem decode_of_legalWord {nbuf : Nat} {w : Reg} (h : ¬IllegalWord nbuf w) :
    ∃ i, decode w = .ok i ∧ encode i = w ∧ i.wf nbuf = true := by
  have hrsv : rsvOf w = 0 := by omega
  have hopc : opcOf w ≤ 4 := by omega
  have hstray : ¬StrayOperand w := by unfold StrayOperand; omega
  obtain ⟨i, hdec, hword⟩ := decode_of_checks hrsv hopc hstray
  exact ⟨i, hdec, hword, by rwa [← hword, illegalWord_encode, Bool.not_eq_false] at h⟩

end Sys2Proof

namespace Sys2Proof.Machine
open Claims

/-! ### The checks of a command, in the order of R256 -/

section
variable {i : Instr} {s : State}

/-- R84 (3), R253: a command that names a buffer that does not exist is IllegalCommand. -/
theorem exec_of_not_wf (hwf : i.wf s.nbuf = false) : exec i s = .next (raise .illegalCommand s) := by
  cases i with
  | nop => cases hwf
  | fft d r | ifft d r | rfft d r =>
    have hbuf : ¬(d.toNat < s.nbuf ∧ r.toNat < s.nbuf) := by simpa [Instr.wf, legalBuf] using hwf
    exact if_neg hbuf
  | cspec d => exact execCspec_of_illegal (of_decide_eq_false hwf)

/-- R84 (4), R252: a command on existing buffers with equal numbers is AliasedBuffers. -/
theorem exec_of_aliased (hwf : i.wf s.nbuf = true) (hal : i.aliased = true) :
    exec i s = .next (raise .aliasedBuffers s) := by
  cases i with
  | nop | cspec d => cases hal
  | fft d r | ifft d r | rfft d r =>
    have hbuf : d.toNat < s.nbuf ∧ r.toNat < s.nbuf := by simpa [Instr.wf, legalBuf] using hwf
    exact (if_pos hbuf).trans (if_pos (of_decide_eq_true hal))

/-- What a command does: the two faults in the order of R256, the stop on an unwritten word that it reads, or completion. -/
theorem exec_cases (i : Instr) (s : State) :
    (i.wf s.nbuf = false ∧ exec i s = .next (raise .illegalCommand s)) ∨
    (i.wf s.nbuf = true ∧ i.aliased = true ∧ exec i s = .next (raise .aliasedBuffers s)) ∨
    (i.wf s.nbuf = true ∧ i.aliased = false ∧ (∃ b j, ReadsWord s.size i b j ∧ bufWord s b j = none) ∧
      exec i s = .fault .unwrittenWord) ∨
    (i.wf s.nbuf = true ∧ i.aliased = false ∧ (∀ b j, ReadsWord s.size i b j → (bufWord s b j).isSome = true) ∧
      ∃ t, exec i s = .next t ∧ StatusEnds s t 0) := by
  cases hwf : i.wf s.nbuf with
  | false => exact .inl ⟨rfl, exec_of_not_wf hwf⟩
  | true =>
    cases hal : i.aliased with
    | true => exact .inr (.inl ⟨rfl, rfl, exec_of_aliased hwf hal⟩)
    | false =>
      by_cases hw : ∀ b j, ReadsWord s.size i b j → (bufWord s b j).isSome = true
      · exact .inr (.inr (.inr ⟨rfl, rfl, hw, exec_completes hwf hal hw⟩))
      · push Not at hw
        obtain ⟨b, j, hreads, hsome⟩ := hw
        have hnone : bufWord s b j = none := Option.not_isSome_iff_eq_none.1 hsome
        exact .inr (.inr (.inl ⟨rfl, rfl, ⟨b, j, hreads, hnone⟩, exec_unwritten hwf hal hreads hnone⟩))

/-! ### The code of a command -/

/-- A command that ends with code 1 has passed check (3) of R84 and failed check (4). -/
theorem aliased_of_exec_errCode {t : State} (h : exec i s = .next t) (hcode : t.errCode = 1) :
    i.wf s.nbuf = true ∧ i.aliased = true := by
  obtain ⟨-, e⟩ | ⟨hwf, hal, -⟩ | ⟨-, -, -, e⟩ | ⟨-, -, -, u, e, -, -, hzero, -⟩ := exec_cases i s
  · rw [e] at h; cases h
    rw [raise_errCode] at hcode
    exact absurd hcode (by decide)
  · exact ⟨hwf, hal⟩
  · rw [e] at h; cases h
  · rw [e] at h; cases h
    rw [hzero] at hcode
    exact absurd hcode (by decide)

/-- A command's final `STATUS` follows from its start and its code (R83). -/
theorem exec_status {t : State} {c : BitVec 4} (h : exec i s = .next t) (hends : StatusEnds s t c) :
    t.status = putStatus s.status false true c := by
  obtain ⟨-, -, hcode, -⟩ := hends
  obtain ⟨c', m, k, rfl⟩ := exec_next_endCommand h
  rw [endCommand_errCode] at hcode
  rw [endCommand_status, hcode]

end

/-! ### The step on a rejected word -/

section
variable {s s' : State}

/-- A fault changes nothing but `STATUS` from the state at which the engine works (R254). -/
theorem raise_of_engineHasTurn (f : CommandFault) (h : EngineHasTurn s s') :
    raise f s' = { s' with status := (raise f s').status } ∧ StatusEnds s (raise f s') (faultCode f) := by
  obtain ⟨l, rfl⟩ := engineHasTurn_turns h
  exact ⟨rfl, endCommand_statusEnds _ rfl⟩

/-- R253: a word that checks (1) to (3) of R84 reject is IllegalCommand, whether the decoder or the command finds it. -/
theorem runCommand_of_illegalWord (h : IllegalWord s.nbuf s.cmd) : runCommand s = .next (raise .illegalCommand s) := by
  cases hdec : decode s.cmd with
  | error e => rw [runCommand, fetchWord, hdec]
  | ok i =>
    rw [← decode_eq_ok_iff.1 hdec, illegalWord_encode] at h
    rw [runCommand_of_decode hdec, exec_of_not_wf h]

/-- R252: an aliased word that checks (1) to (3) of R84 pass is AliasedBuffers. -/
theorem runCommand_of_aliasedWord (hlegal : ¬IllegalWord s.nbuf s.cmd) (hal : AliasedWord s.cmd) :
    runCommand s = .next (raise .aliasedBuffers s) := by
  obtain ⟨i, hdec, hword, hwf⟩ := decode_of_legalWord hlegal
  rw [← hword, aliasedWord_encode] at hal
  rw [runCommand_of_decode hdec, exec_of_aliased hwf hal]

/-- Code 1 is the code of no other word (R252, R256). -/
theorem aliasedWord_of_runCommand_errCode {t : State} (h : runCommand s = .next t) (hcode : t.errCode = 1) :
    AliasedWord s.cmd ∧ ¬IllegalWord s.nbuf s.cmd := by
  obtain ⟨i, hdec, hi⟩ | ⟨-, rfl⟩ := runCommand_next h
  · obtain ⟨hwf, hal⟩ := aliased_of_exec_errCode hi hcode
    rw [← decode_eq_ok_iff.1 hdec, aliasedWord_encode, illegalWord_encode, Bool.not_eq_false]
    exact ⟨hal, hwf⟩
  · rw [raise_errCode] at hcode
    exact absurd hcode (by decide)

end

end Sys2Proof.Machine
end

section
/-! SUPPORT. The statements about the faults, each settled from the facts above. -/

namespace Sys2Proof.Machine
open Claims

/-- Settles O7: the decoder refuses such a word, or it is that of a command whose range check fails. -/
theorem illegalWordsFault : Obligations.IllegalWordsFault := by
  intro s s' hbusy hturn hillegal
  have hrun : runCommand s' = .next (raise .illegalCommand s') := by
    obtain ⟨l, rfl⟩ := engineHasTurn_turns hturn
    exact runCommand_of_illegalWord (s := { s with turns := l }) hillegal
  exact ⟨_, (step_of_engineHasTurn hbusy hturn).trans hrun, raise_of_engineHasTurn .illegalCommand hturn⟩

/-- Settles O8: such a word is that of a command that fails its last check, and code 1 comes from that check alone. -/
theorem aliasedWordsFault : Obligations.AliasedWordsFault := by
  intro s s' hbusy hturn
  rw [step_of_engineHasTurn hbusy hturn]
  have hfault := raise_of_engineHasTurn .aliasedBuffers hturn
  obtain ⟨l, rfl⟩ := engineHasTurn_turns hturn
  exact ⟨fun hlegal hal => ⟨_, runCommand_of_aliasedWord (s := { s with turns := l }) hlegal hal, hfault⟩,
    fun _ => aliasedWord_of_runCommand_errCode (s := { s with turns := l })⟩

/-- Settles O10: the range check answers first, the aliasing check second. -/
theorem faultingCommandsChangeOnlyStatus : Obligations.FaultingCommandsChangeOnlyStatus := by
  intro i s hfails
  cases hwf : i.wf s.nbuf with
  | false => exact ⟨_, exec_of_not_wf hwf, rfl, endCommand_statusEnds _ rfl⟩
  | true =>
    have hal : i.aliased = true := hfails.resolve_left (by simp [hwf])
    exact ⟨_, exec_of_aliased hwf hal, rfl, endCommand_statusEnds _ rfl⟩

/-- Settles O18: every condition in the cases of a command is one on `CFG` or on the set of written words. -/
theorem outcomeIgnoresData : Obligations.OutcomeIgnoresData := by
  intro i s s' hcfg hstatus hwritten
  have hnbuf : s'.nbuf = s.nbuf := by rw [State.nbuf, hcfg, State.nbuf]
  have hsize : s'.size = s.size := by rw [State.size, State.logN, hcfg, State.size, State.logN]
  obtain ⟨hwf, e⟩ | ⟨hwf, hal, e⟩ | ⟨hwf, hal, ⟨b, j, hreads, hnone⟩, e⟩ | ⟨hwf, hal, hw, t, e, hends⟩ :=
    exec_cases i s <;> rw [← hnbuf] at hwf
  · exact .inr ⟨_, _, e, exec_of_not_wf hwf, by rw [raise_status, raise_status, hstatus]⟩
  · exact .inr ⟨_, _, e, exec_of_aliased hwf hal, by rw [raise_status, raise_status, hstatus]⟩
  · have hnone' : bufWord s' b j = none := by
      rw [← Option.not_isSome_iff_eq_none, ← hwritten, hnone]
      exact Bool.false_ne_true
    rw [← hsize] at hreads
    exact .inl ⟨e, exec_unwritten hwf hal hreads hnone'⟩
  · have hw' : ∀ b j, ReadsWord s'.size i b j → (bufWord s' b j).isSome = true := by
      intro b j hreads
      rw [hsize] at hreads
      rw [← hwritten]
      exact hw b j hreads
    obtain ⟨t', e', hends'⟩ := exec_completes hwf hal hw'
    exact .inr ⟨t, t', e, e', by rw [exec_status e hends, exec_status e' hends', hstatus]⟩

end Sys2Proof.Machine
end

section
/-! SUPPORT. Reset and construction: the block after reset is the block right after construction (R38, R280, R281). -/

namespace Sys2Proof.Machine

/-- On a sound state the constants that reset keeps are those of construction, and what reset clears is what construction
leaves clear. The host's turns and replies (log entry 6) and the draw counter (log entry 5) are kept. -/
theorem blockReset_eq_ofContext {s : State} (h : s.Inv) :
    blockReset s = { State.ofContext (contextOf s.logN) s.nbuf s.rm with
      draws := s.draws, turns := s.turns, replies := s.replies } := by
  rw [blockReset, h.id_const, h.cfg_const, h.tw_const, h.br_const]
  rfl

/-- Settles O33: reset is admitted in every state, and its clauses are the fields of the block that it leaves. -/
theorem resetClears : Obligations.ResetClears :=
  ⟨fun s => ⟨blockReset s, rfl, blockReset_cmd s, blockReset_status s,
      fun _ => by rw [blockReset_mem, readByte],
      blockReset_id s, blockReset_cfg s, blockReset_tw s, blockReset_br s, blockReset_rm s⟩,
    fun _ hs => congrArg Host.Outcome.next (blockReset_eq_ofContext hs)⟩

end Sys2Proof.Machine
end
